-- ==== Sys2Proof/Word.lean ====
section
/-!
DEFINITION. The word types of the P-384 engine (spec/00_scope.md R6, R15): bytes, 32-bit bus words, word
addresses of the 4 KiB register window, 384-bit register contents, and the register index types.
-/

namespace Sys2Proof

/-- One byte of `BUF`, `LEN` or `ERRCODE` (R25, R26, R34). -/
abbrev Byte := BitVec 8

/-- One bus word, also one command word (R6 "bus word width 32 bits", R70). -/
abbrev Word := BitVec 32

/-- The contents of one 384-bit register or coordinate (R20, R22). -/
abbrev Felt := BitVec 384

/-- The word address `addr[11:2]` the port carries (R50, R53): byte offset `4 * w` into the window, so that
a misaligned or sub-word access cannot be expressed. -/
abbrev WordAddr := BitVec 10

/-- The index of a field register `f0` to `f7` (R20). -/
abbrev FReg := Fin 8

/-- The index of a point register `p0` to `p3` (R22). -/
abbrev PReg := Fin 4

/-- The 4-bit constant index field `c` of `FLDC` (R73); which values are legal is `Instr.WellFormed`. -/
abbrev ConstIx := Fin 16

end Sys2Proof
end

