-- ==== Sys2Proof/Syntax.lean ====
section
/-!
DEFINITION. The fourteen commands of the engine (spec/30_encoding.md R71, R76), one constructor per row of
spec/opcode_table.json. The engine's "instruction" is the command (R19).
-/

namespace Sys2Proof

/-- A command with its operands, in the order destination, first source, second source (R71, R80). -/
inductive Instr where
  /-- `MONTMUL fd, fs1, fs2` (R97) -/
  | montmul (fd fs1 fs2 : FReg)
  /-- `MODMUL fd, fs1, fs2` (R98) -/
  | modmul (fd fs1 fs2 : FReg)
  /-- `MODINV fd, fs1` (R99) -/
  | modinv (fd fs1 : FReg)
  /-- `FLDC fd, c` (R100) -/
  | fldc (fd : FReg) (c : ConstIx)
  /-- `PDBL pd, ps1` (R117) -/
  | pdbl (pd ps1 : PReg)
  /-- `PADD pd, ps1, ps2` (R118) -/
  | padd (pd ps1 ps2 : PReg)
  /-- `PNEG pd, ps1` (R119) -/
  | pneg (pd ps1 : PReg)
  /-- `PISINF ps1` (R120) -/
  | pisinf (ps1 : PReg)
  /-- `PCHK ps1` (R121) -/
  | pchk (ps1 : PReg)
  /-- `PLDG pd` (R122) -/
  | pldg (pd : PReg)
  /-- `SMUL pd, ps1, fs2` (R132) -/
  | smul (pd ps1 : PReg) (fs2 : FReg)
  /-- `PENC ps1` (R145) -/
  | penc (ps1 : PReg)
  /-- `PDEC pd` (R146) -/
  | pdec (pd : PReg)
  /-- `XENC ps1` (R147) -/
  | xenc (ps1 : PReg)
  deriving DecidableEq, Repr

end Sys2Proof
end

