-- ==== Sys2Proof/WellFormed.lean ====
section
/-!
DEFINITION. Which command terms are legal. Register indices are legal by their types (R72: 0 to 7 and 0 to 3), so
the one check left is the constant index of `FLDC` (R73: "Legal values are 0 to 8").
-/

namespace Sys2Proof

/-- R73, R76: the constant index of `FLDC` is 0 to 8; every other command is legal as it stands. -/
def Instr.wellFormed : Instr → Bool
  | .montmul _ _ _ => true
  | .modmul _ _ _ => true
  | .modinv _ _ => true
  | .fldc _ c => decide (c.val ≤ 8)
  | .pdbl _ _ => true
  | .padd _ _ _ => true
  | .pneg _ _ => true
  | .pisinf _ => true
  | .pchk _ => true
  | .pldg _ => true
  | .smul _ _ _ => true
  | .penc _ => true
  | .pdec _ => true
  | .xenc _ => true

/-- The check as a proposition. -/
abbrev Instr.WellFormed (i : Instr) : Prop := i.wellFormed = true

end Sys2Proof
end

