-- ==== Sys2Proof/Decode.lean ====
section
/-!
DEFINITION. Decoding and encoding of command words (spec/30_encoding.md R70 to R79), from the match and mask
columns of R76 and the operand bits beside them.
-/

namespace Sys2Proof

/-- What `decode` answers (R77): "either `Legal(mnemonic, operands)` or `Illegal`". All illegal words behave
alike (R79), so `illegal` carries nothing. -/
inductive Decoded where
  | legal (i : Instr)
  | illegal
  deriving DecidableEq, Repr

/-- One row of the opcode table of R76. -/
structure Row where
  mnemonic : String
  mask     : Word
  pattern  : Word
  deriving DecidableEq, Repr

/-- `(w AND mask) = match` (R76). -/
def Row.hits (r : Row) (w : Word) : Bool := (w &&& r.mask) == r.pattern

def rowMontmul : Row := ⟨"MONTMUL", 0xFFF888FF#32, 0x00000010#32⟩
def rowModmul  : Row := ⟨"MODMUL",  0xFFF888FF#32, 0x00000011#32⟩
def rowModinv  : Row := ⟨"MODINV",  0xFFFF88FF#32, 0x00000012#32⟩
def rowFldc    : Row := ⟨"FLDC",    0xFFF0F8FF#32, 0x00000013#32⟩
def rowPdbl    : Row := ⟨"PDBL",    0xFFFFCCFF#32, 0x00000020#32⟩
def rowPadd    : Row := ⟨"PADD",    0xFFFCCCFF#32, 0x00000021#32⟩
def rowPneg    : Row := ⟨"PNEG",    0xFFFFCCFF#32, 0x00000022#32⟩
def rowPisinf  : Row := ⟨"PISINF",  0xFFFFCFFF#32, 0x00000023#32⟩
def rowPchk    : Row := ⟨"PCHK",    0xFFFFCFFF#32, 0x00000024#32⟩
def rowPldg    : Row := ⟨"PLDG",    0xFFFFFCFF#32, 0x00000025#32⟩
def rowSmul    : Row := ⟨"SMUL",    0xFFF8CCFF#32, 0x00000030#32⟩
def rowPenc    : Row := ⟨"PENC",    0xFFFFCFFF#32, 0x00000040#32⟩
def rowPdec    : Row := ⟨"PDEC",    0xFFFFFCFF#32, 0x00000041#32⟩
def rowXenc    : Row := ⟨"XENC",    0xFFFFCFFF#32, 0x00000042#32⟩

/-- The opcode table of R76, in its order. -/
def opcodeTable : List Row :=
  [rowMontmul, rowModmul, rowModinv, rowFldc, rowPdbl, rowPadd, rowPneg, rowPisinf, rowPchk, rowPldg, rowSmul,
   rowPenc, rowPdec, rowXenc]

/-- The row a command stands in. -/
def Instr.row : Instr → Row
  | .montmul _ _ _ => rowMontmul
  | .modmul _ _ _ => rowModmul
  | .modinv _ _ => rowModinv
  | .fldc _ _ => rowFldc
  | .pdbl _ _ => rowPdbl
  | .padd _ _ _ => rowPadd
  | .pneg _ _ => rowPneg
  | .pisinf _ => rowPisinf
  | .pchk _ => rowPchk
  | .pldg _ => rowPldg
  | .smul _ _ _ => rowSmul
  | .penc _ => rowPenc
  | .pdec _ => rowPdec
  | .xenc _ => rowXenc

/-- The operand values of a command, in the order of the "operand bits" column of R76. -/
def Instr.operands : Instr → List Nat
  | .montmul fd fs1 fs2 => [fd, fs1, fs2]
  | .modmul fd fs1 fs2 => [fd, fs1, fs2]
  | .modinv fd fs1 => [fd, fs1]
  | .fldc fd c => [fd, c]
  | .pdbl pd ps1 => [pd, ps1]
  | .padd pd ps1 ps2 => [pd, ps1, ps2]
  | .pneg pd ps1 => [pd, ps1]
  | .pisinf ps1 => [ps1]
  | .pchk ps1 => [ps1]
  | .pldg pd => [pd]
  | .smul pd ps1 fs2 => [pd, ps1, fs2]
  | .penc ps1 => [ps1]
  | .pdec pd => [pd]
  | .xenc ps1 => [ps1]

/-- The 4-bit field of a command word whose lowest bit is `lo` (R70): `rd` at 8, `rs1` at 12, `rs2` at 16. -/
def fieldAt (w : Word) (lo : Nat) : Nat := (w.toNat / 2 ^ lo) % 16

/-- A field register operand, bits 2:0 of its field (R72). -/
def fregAt (w : Word) (lo : Nat) : FReg := Fin.ofNat 8 (fieldAt w lo)

/-- A point register operand, bits 1:0 of its field (R72). -/
def pregAt (w : Word) (lo : Nat) : PReg := Fin.ofNat 4 (fieldAt w lo)

/-- The constant index of `FLDC`, all of word bits 19:16 (R73). -/
def constAt (w : Word) : ConstIx := Fin.ofNat 16 (fieldAt w 16)

/-- `decode(w)` of R77, total on 32-bit words. -/
def decode (w : Word) : Decoded :=
  if rowMontmul.hits w then .legal (.montmul (fregAt w 8) (fregAt w 12) (fregAt w 16))
  else if rowModmul.hits w then .legal (.modmul (fregAt w 8) (fregAt w 12) (fregAt w 16))
  else if rowModinv.hits w then .legal (.modinv (fregAt w 8) (fregAt w 12))
  else if rowFldc.hits w then
    (if fieldAt w 16 ≤ 8 then .legal (.fldc (fregAt w 8) (constAt w)) else .illegal)
  else if rowPdbl.hits w then .legal (.pdbl (pregAt w 8) (pregAt w 12))
  else if rowPadd.hits w then .legal (.padd (pregAt w 8) (pregAt w 12) (pregAt w 16))
  else if rowPneg.hits w then .legal (.pneg (pregAt w 8) (pregAt w 12))
  else if rowPisinf.hits w then .legal (.pisinf (pregAt w 12))
  else if rowPchk.hits w then .legal (.pchk (pregAt w 12))
  else if rowPldg.hits w then .legal (.pldg (pregAt w 8))
  else if rowSmul.hits w then .legal (.smul (pregAt w 8) (pregAt w 12) (fregAt w 16))
  else if rowPenc.hits w then .legal (.penc (pregAt w 12))
  else if rowPdec.hits w then .legal (.pdec (pregAt w 8))
  else if rowXenc.hits w then .legal (.xenc (pregAt w 12))
  else .illegal

/-- A command word from its five fields (R70); the `zero` field is 0. -/
def packWord (opcode rd rs1 rs2 : Nat) : Word :=
  BitVec.ofNat 32 (opcode + rd * 2 ^ 8 + rs1 * 2 ^ 12 + rs2 * 2 ^ 16)

/-- The command word of a command (R70, R71, R75); an unused field is 0 (R74). -/
def encode : Instr → Word
  | .montmul fd fs1 fs2 => packWord 0x10 fd fs1 fs2
  | .modmul fd fs1 fs2 => packWord 0x11 fd fs1 fs2
  | .modinv fd fs1 => packWord 0x12 fd fs1 0
  | .fldc fd c => packWord 0x13 fd 0 c
  | .pdbl pd ps1 => packWord 0x20 pd ps1 0
  | .padd pd ps1 ps2 => packWord 0x21 pd ps1 ps2
  | .pneg pd ps1 => packWord 0x22 pd ps1 0
  | .pisinf ps1 => packWord 0x23 0 ps1 0
  | .pchk ps1 => packWord 0x24 0 ps1 0
  | .pldg pd => packWord 0x25 pd 0 0
  | .smul pd ps1 fs2 => packWord 0x30 pd ps1 fs2
  | .penc ps1 => packWord 0x40 0 ps1 0
  | .pdec pd => packWord 0x41 pd 0 0
  | .xenc ps1 => packWord 0x42 0 ps1 0

/-- The command word given as a table word of `nbits` bits: a command is one 32-bit word (R70, R82), so the bits
at and above `nbits` are 0. -/
def tableWord (nbits w : Nat) : Word := BitVec.ofNat 32 (w % 2 ^ nbits)

/-- The command the decoder reads from a table word, none where the word is illegal. -/
def decodeTableWord (nbits w : Nat) : Option Instr :=
  match decode (tableWord nbits w) with
  | .legal i => some i
  | .illegal => none

end Sys2Proof
end

