-- ==== Sys2Proof/Config.lean ====
section
/-!
DEFINITION. What is fixed for one engine (spec/00_scope.md R6 to R9, R11, R13): its sizes and the immutable
record `CurveParameters`, with NIST P-384 as the default. The constants derived from the record (R10) are
functions of it and stand in Sys2Proof/Machine/FieldMath.lean. The spec leaves no value of a result open, so
there is no free value here; its open parameters `BASE`, `LATENCY` and `BUS_PROTOCOL` are in log entry 11.
-/

namespace Sys2Proof

/-- The record `(p, a, b, n, Gx, Gy)` of R7: "process-wide constant, never mutated". -/
structure CurveParameters where
  p  : Nat
  a  : Nat
  b  : Nat
  n  : Nat
  gx : Nat
  gy : Nat
  deriving DecidableEq, Repr

namespace Config

/-- `FS`, the byte width of a field element (R6). -/
abbrev fieldBytes : Nat := 48

/-- `PL = 1 + 2 * FS`, the length of an uncompressed point and of `BUF` (R6, R25). -/
abbrev bufBytes : Nat := 97

/-- The Montgomery radix `R = 2^384` of R6, written out; `radix_eq` in Sys2Proof/Laws/Field.lean says so. -/
def radix : Nat :=
  0x1000000000000000000000000000000000000000000000000000000000000000000000000000000000000000000000000

/-- The value `ID` reads as (R32). -/
def idWord : Word := 0x50333834#32

/-- NIST P-384, the default instance of R9 (log entry 6). -/
def p384 : CurveParameters where
  p  := 0xFFFFFFFFFFFFFFFFFFFFFFFFFFFFFFFFFFFFFFFFFFFFFFFFFFFFFFFFFFFFFFFEFFFFFFFF0000000000000000FFFFFFFF
  a  := 0xFFFFFFFFFFFFFFFFFFFFFFFFFFFFFFFFFFFFFFFFFFFFFFFFFFFFFFFFFFFFFFFEFFFFFFFF0000000000000000FFFFFFFC
  b  := 0xB3312FA7E23EE7E4988E056BE3F82D19181D9C6EFE8141120314088F5013875AC656398D8A2ED19D2A85C8EDD3EC2AEF
  n  := 0xFFFFFFFFFFFFFFFFFFFFFFFFFFFFFFFFFFFFFFFFFFFFFFFFC7634D81F4372DDF581A0DB248B0A77AECEC196ACCC52973
  gx := 0xAA87CA22BE8B05378EB1C71EF320AD746E1D3B628BA79B9859F741E082542A385502F25DBF55296C3A545E3872760AB7
  gy := 0x3617DE4A96262C6F5D9E98BF9292DC29F8F41DBD289A147CE9DA3113B5F0B8C00A60B1CE1D7E819D7A431D7C90EA0E5F

/-- The record of the engine `Sys2Proof.core` (R7): the default of R9. The machine itself takes any record: it is the field
`State.curve`, and `Sys2Proof.Machine.coreWith` is the machine of a record (log entry 17). -/
def curve : CurveParameters := p384

end Config

end Sys2Proof
end

