-- ==== Sys2Proof/Machine/State.lean ====
section
/-!
DEFINITION. The state of the engine (spec/10_state.md), the events that touch it (spec/20_memory.md R64), the
error causes (spec/60_exceptions.md R174) and the state after reset (R40, R201).
-/

namespace Sys2Proof.Machine

/-- One point register: an affine pair and "an explicit infinity flag" (R22). -/
structure PointReg where
  x   : Felt
  y   : Felt
  inf : Bool
  deriving DecidableEq, Repr

/-- The three result flags, `STATUS[18:16]` (R27), written as a whole (R28). -/
structure Flags where
  inf   : Bool
  onc   : Bool
  noinv : Bool
  deriving DecidableEq, Repr

/-- The error causes of R174; their codes are `ErrorKind.code` in Sys2Proof/Machine/Ops.lean. -/
inductive ErrorKind where
  /-- 0x01: the word is no command (R175) -/
  | illegalCommand
  /-- 0x10: `LEN != 97` (R141) -/
  | encLength
  /-- 0x11: `BUF[0] != 0x04` (R141) -/
  | encTag
  /-- 0x12: a coordinate at or above `p` (R141) -/
  | encRange
  /-- 0x13: the pair is not on the curve (R141) -/
  | encNotOnCurve
  /-- 0x20: the source point of `PENC` or `XENC` is infinity (R177) -/
  | operandInfinity
  deriving DecidableEq, Repr

/-- What can happen to the engine, one at a time in one total order (R64): a bus transaction of the host (R51), the
engine's own step `Complete` (R171), a reset (R200). -/
inductive Event where
  /-- `HostRead(4 * w)` -/
  | read (w : WordAddr)
  /-- `HostWrite(4 * w, v)` -/
  | write (w : WordAddr) (v : Word)
  /-- the engine's turn: `Complete` if a command is pending, else nothing (R171) -/
  | engine
  /-- the platform's reset input -/
  | reset
  deriving DecidableEq, Repr

/-- The byte storage `BUF`, as (index, byte) pairs in the canonical form `Memory.wf` of Sys2Proof/Machine/Ops.lean
(log entry 8). -/
abbrev Memory := List Host.Cell

/-- The whole state of the engine, and three fields of the model's own at its end: the record the engine is configured with
(log entry 17) and what the outside world does (log entries 1 to 3). -/
structure State where
  /-- the field registers `f[0..7]` (R20) -/
  f       : Vector Felt 8
  /-- the point registers `pt[0..3]` (R22) -/
  pt      : Vector PointReg 4
  /-- `BUF[0..96]` (R25) -/
  buf     : Memory
  /-- `LEN` (R26, R37) -/
  len     : Byte
  /-- `CTRL.IE` (R33) -/
  ie      : Bool
  /-- `STATUS.BUSY` (R34) -/
  busy    : Bool
  /-- `STATUS.DONE` (R34), also the pending bit of the interrupt (R181) -/
  done    : Bool
  /-- `STATUS.ERR` (R34) -/
  err     : Bool
  /-- `STATUS.OVR` (R34) -/
  ovr     : Bool
  /-- `STATUS.ERRCODE` (R34) -/
  errcode : Byte
  /-- `STATUS[18:16]`, FLAGS (R27) -/
  flags   : Flags
  /-- the latched command word `cur`, read through `CMD` (R36) -/
  cur     : Word
  /-- MODEL'S OWN: the configuration argument `curve` of R7, which nothing writes (log entry 17) -/
  curve   : CurveParameters
  /-- MODEL'S OWN: the events still to come, the next one first (log entries 1 and 2) -/
  inputs  : List Event
  /-- MODEL'S OWN: the word the last `HostRead` returned to the host (log entry 3) -/
  rdata   : Option Word
  deriving DecidableEq, Repr

/-- Why the machine stops with a fault: it never does. R51: "no offset in the window makes the engine signal a bus
error, stall for ever, or fault"; R178: "No command can hang, trap the host, or signal a bus error." -/
inductive Fault where
  deriving DecidableEq, Repr

/-- Why the machine refuses a command. -/
inductive Refusal where
  /-- Raised by an arm of `exec` whose command has no meaning yet. Safe. No arm raises it in this model. -/
  | notModelled (mnemonic : String)
  deriving DecidableEq, Repr

/-- The outcome of a command or a step. -/
abbrev Result := Host.Outcome State Fault Refusal

/-- The state after reset (R40, R201) of an engine with the default record (R9), with no event to come and nothing read. -/
def State.reset : State where
  f       := Vector.replicate 8 0#384
  pt      := Vector.replicate 4 ⟨0#384, 0#384, true⟩
  buf     := []
  len     := 0#8
  ie      := false
  busy    := false
  done    := false
  err     := false
  ovr     := false
  errcode := 0#8
  flags   := ⟨false, false, false⟩
  cur     := 0#32
  curve   := Config.curve
  inputs  := []
  rdata   := none

end Sys2Proof.Machine
end

