-- ==== Sys2Proof/Machine/Ops.lean ====
section
/-!
DEFINITION. The named operations over the state: the byte buffer, register files, words of a 384-bit value, the
acceptance of a command, success, and THE ERROR REPORT, which is all the exception entry the engine has
(spec/60_exceptions.md R170 to R173, R182).
-/

namespace Sys2Proof.Machine

/-! ### `BUF` -/

/-- What a byte of `BUF` that is not listed reads as: its reset value 0x00 (R40). -/
def Memory.unlisted : Byte := 0x00#8

/-- The canonical form: indices strictly rising and below 97, no byte listed that reads as an unlisted one. -/
abbrev Memory.wf (m : Memory) : Prop :=
  m.Pairwise (fun x y => x.1 < y.1) ∧ ∀ e ∈ m, e.1 < Config.bufBytes ∧ e.2 ≠ Memory.unlisted

/-- `BUF[a]`. -/
def Memory.read : Memory → Nat → Byte
  | [], _ => Memory.unlisted
  | (k, b) :: m, a => if k = a then b else Memory.read m a

/-- Put `b` at `a`, keeping the canonical form. -/
def Memory.put : Memory → Nat → Byte → Memory
  | [], a, b => if b = Memory.unlisted then [] else [(a, b)]
  | (k, v) :: m, a, b =>
    if a < k then (if b = Memory.unlisted then (k, v) :: m else (a, b) :: (k, v) :: m)
    else if a = k then (if b = Memory.unlisted then m else (a, b) :: m)
    else (k, v) :: Memory.put m a b

/-- `BUF[a] <- b`; there is no byte at 97 or above (R25). -/
def Memory.write (m : Memory) (a : Nat) (b : Byte) : Memory :=
  if a < Config.bufBytes then Memory.put m a b else m

/-- Write a list of bytes from `BUF[a]` on. -/
def Memory.writeBytes (m : Memory) (a : Nat) : List Byte → Memory
  | [] => m
  | b :: bs => Memory.writeBytes (Memory.write m a b) (a + 1) bs

/-- The bytes `BUF[a..a+n-1]`. -/
def Memory.readBytes (m : Memory) (a n : Nat) : List Byte :=
  (List.range n).map fun i => Memory.read m (a + i)

/-! ### Register files -/

/-- Read `f[i]` (R20). -/
def State.getF (s : State) (i : FReg) : Felt := s.f.get i

/-- Write `f[i]` (R20). -/
def State.setF (s : State) (i : FReg) (v : Felt) : State := { s with f := s.f.set i.val v i.isLt }

/-- Read `pt[j]` (R22). -/
def State.getPt (s : State) (j : PReg) : PointReg := s.pt.get j

/-- Write `pt[j]` (R22). -/
def State.setPt (s : State) (j : PReg) (v : PointReg) : State := { s with pt := s.pt.set j.val v j.isLt }

/-- `BUF[0..] <- bs; LEN <- n` (R145, R147). -/
def State.putString (s : State) (bs : List Byte) (n : Byte) : State :=
  { s with buf := Memory.writeBytes s.buf 0 bs, len := n }

/-! ### Words of a 384-bit value -/

/-- Word `j` of a value, `v[32j+31:32j]` (R52 (a)). -/
def getWord (v : Felt) (j : Nat) : Word := BitVec.extractLsb' (32 * j) 32 v

/-- The value with word `j` replaced and the other 352 bits unchanged (R58). -/
def setWord (v : Felt) (j : Nat) (x : Word) : Felt :=
  (v &&& ~~~(BitVec.setWidth 384 0xFFFFFFFF#32 <<< (32 * j))) ||| (BitVec.setWidth 384 x <<< (32 * j))

/-! ### The life of a command -/

/-- No flag set. -/
def Flags.none : Flags := ⟨false, false, false⟩

/-- Acceptance of a command word (R170). It also ends the last error report, the nearest thing to a return from an
exception (R183: "The report stays in `STATUS` … until the next command is accepted, which clears it"). -/
def State.accept (s : State) (w : Word) : State :=
  { s with cur := w, busy := true, done := false, err := false, errcode := 0x00#8, flags := Flags.none }

/-- The codes of R174. -/
def ErrorKind.code : ErrorKind → Byte
  | .illegalCommand => 0x01#8
  | .encLength => 0x10#8
  | .encTag => 0x11#8
  | .encRange => 0x12#8
  | .encNotOnCurve => 0x13#8
  | .operandInfinity => 0x20#8

/-- The error report, `raise E(code)` (R173): none of the command's writes, FLAGS 0, `ERR`, `ERRCODE`, idle. -/
def State.raise (s : State) (e : ErrorKind) : State :=
  { s with flags := Flags.none, err := true, errcode := e.code, busy := false, done := true }

/-- The success transition (R172), on the state that has the command's writes. -/
def State.succeed (s : State) (fl : Flags) : State :=
  { s with flags := fl, err := false, errcode := 0x00#8, busy := false, done := true }

/-- The interrupt output (R41), which is not state. -/
def State.irq (s : State) : Bool := s.ie && s.done

/-- The state after reset of an engine with the record `c` (R7, R11; `c` is to meet R8, `CurveParameters.Valid`). -/
def State.resetWith (c : CurveParameters) : State := { State.reset with curve := c }

/-- Reset (R200, R201): every piece of the engine's state to its reset value. The record is configuration (R13) and stays;
the events still to come and what the host has read belong to the outside world and stay (log entry 4). -/
def State.resetEngine (s : State) : State :=
  { State.resetWith s.curve with inputs := s.inputs, rdata := s.rdata }

end Sys2Proof.Machine
end

