-- ==== Sys2Proof/Machine/FieldMath.lean ====
section
/-!
DEFINITION. The field functions of spec/40_field.md R91 to R96 and the derived constants of spec/00_scope.md R10,
for any record `c`. Arguments are integers and results are residues in `[0, p)` (R91: "Every field function
below takes any integers and applies `fred` to its result").
-/

namespace Sys2Proof.Machine

variable (c : CurveParameters)

/-- `fred(v) = v mod p`, never negative (R91, R14). -/
def fred (v : Int) : Nat := (v % (c.p : Int)).toNat

/-- `fadd(u, v) = (u + v) mod p` (R92). -/
def fadd (u v : Int) : Nat := fred c (u + v)

/-- `fsub(u, v) = (u - v) mod p` (R93). -/
def fsub (u v : Int) : Nat := fred c (u - v)

/-- `fmul(u, v) = (u * v) mod p` (R94). -/
def fmul (u v : Int) : Nat := fred c (u * v)

/-- Square and multiply over the low `n` bits of `e`, the highest first, from the accumulator `acc`. -/
def powLoop (m b e : Nat) : Nat → Nat → Nat
  | 0, acc => acc
  | n + 1, acc => powLoop m b e n (if e.testBit n then acc * acc % m * b % m else acc * acc % m)

/-- `b ^ e mod m`, in a form that evaluates; `powMod_eq` in Sys2Proof/Laws/Field.lean says that it is the power. -/
def powMod (m b e : Nat) : Nat := powLoop m b e (e.log2 + 1) (1 % m)

/-- `finv(v) = (v mod p)^(p-2) mod p`, which is 0 when `v mod p = 0` (R95). -/
def finv (v : Int) : Nat := powMod c.p (fred c v) (c.p - 2)

/-- `has_inv(v) = (v mod p != 0)` (R95). -/
def hasInv (v : Int) : Bool := fred c v != 0

/-- `R mod p` (R10). -/
def rModP : Nat := Config.radix % c.p

/-- `R2 = R^2 mod p` (R10). -/
def r2 : Nat := Config.radix * Config.radix % c.p

/-- `Rinv = R^-1 mod p` (R10), as the inverse of R95 (log entry 7). -/
def rinv : Nat := finv c Config.radix

/-- `montmul(u, v) = ((u mod p) * (v mod p) * Rinv) mod p` (R96). -/
def montmul (u v : Int) : Nat := fred c ((fred c u : Int) * (fred c v : Int) * (rinv c : Int))

/-- The Montgomery form `mont(x) = (x * R) mod p` (R102). -/
def mont (x : Int) : Nat := fred c (x * (Config.radix : Int))

/-- An inverse of the odd number `p` modulo `2^(2^k)`, by doubling the precision `k` times. -/
def invPow2 (p m : Nat) : Nat → Nat
  | 0 => 1
  | k + 1 => let x := invPow2 p m k; x * (2 * m + 2 - p % m * x % m) % m

/-- `pprime = (-p^-1) mod R` (R10). -/
def pprime : Nat := (Config.radix - invPow2 c.p Config.radix 9) % Config.radix

/-- `n0 = (-p^-1) mod 2^32` (R10, R96). -/
def n0 : Nat := pprime c % 2 ^ 32

/-- The reference algorithm `REDC_mul` of R96: "Which algorithm the hardware uses is not observable." -/
def redcMul (u v : Nat) : Nat :=
  let t₀ := fred c u * fred c v
  let m := t₀ % Config.radix * pprime c % Config.radix
  let t := (t₀ + m * c.p) / Config.radix
  if t ≥ c.p then t - c.p else t

/-- One round of the word-serial form of R96, on word `i` of the second operand. -/
def redcRound (u v i t : Nat) : Nat :=
  let t₁ := t + u * (v / 2 ^ (32 * i) % 2 ^ 32)
  let m := t₁ % 2 ^ 32 * n0 c % 2 ^ 32
  (t₁ + m * c.p) / 2 ^ 32

/-- Rounds `0` to `k - 1` of the word-serial form. -/
def redcRounds (u v : Nat) : Nat → Nat
  | 0 => 0
  | k + 1 => redcRound c u v k (redcRounds u v k)

/-- The word-serial form of R96 with 32-bit words, `s = 12`. -/
def redcSerial (u v : Nat) : Nat :=
  let t := redcRounds c (fred c u) (fred c v) 12
  if t ≥ c.p then t - c.p else t

/-- The constant table `CONST[0..8]` of R38; no value at any other index. -/
def constVal (i : Nat) : Option Nat :=
  [c.p, c.a, c.b, c.n, c.gx, c.gy, r2 c, 1, rModP c][i]?

end Sys2Proof.Machine
end

