-- ==== Sys2Proof/Machine/PointMath.lean ====
section
/-!
DEFINITION. Point values and the functions on them (spec/41_point.md R110 to R115), for any record `c`.
-/

namespace Sys2Proof.Machine

/-- A point value: "either `INF` or a pair `(x, y)` of integers" (R110). -/
inductive Point where
  | inf
  | aff (x y : Nat)
  deriving DecidableEq, Repr

/-- The point-at-infinity detector `is_inf` (R110). -/
def Point.isInf : Point → Bool
  | .inf => true
  | .aff _ _ => false

variable (c : CurveParameters)

/-- `pt_norm` (R111). -/
def ptNorm : Point → Point
  | .inf => .inf
  | .aff x y => .aff (fred c x) (fred c y)

/-- `on_curve` (R112): `y^2 = x^3 + a*x + b` modulo `p`, and false of `INF`. -/
def onCurve : Point → Bool
  | .inf => false
  | .aff x y => fmul c y y == fadd c (fadd c (fmul c (fmul c x x) x) (fmul c c.a x)) c.b

/-- The slope of the doubler, `(3x^2 + a) * inv(2y)` (R113). -/
def dblSlope (x y : Nat) : Nat := fmul c (fadd c (fmul c 3 (fmul c x x)) c.a) (finv c (fmul c 2 y))

/-- The chord branch of the adder: the result for the slope `lam` through `(x1, y1)` and a point with first
coordinate `x2`
(R114). -/
def chord (lam x1 y1 x2 : Nat) : Point :=
  let x3 := fsub c (fsub c (fmul c lam lam) x1) x2
  .aff x3 (fsub c (fmul c lam (fsub c x1 x3)) y1)

/-- The affine point doubler `pt_dbl` (R113). -/
def ptDbl : Point → Point
  | .inf => .inf
  | .aff x y =>
    if fred c y = 0 then .inf
    else
      let lam := dblSlope c x y
      let x' := fsub c (fmul c lam lam) (fmul c 2 x)
      .aff x' (fsub c (fmul c lam (fsub c x x')) y)

/-- The affine point adder `pt_add`, cases in the order of R114. -/
def ptAdd : Point → Point → Point
  | .inf, .inf => .inf
  | .inf, .aff x y => ptNorm c (.aff x y)
  | .aff x y, .inf => ptNorm c (.aff x y)
  | .aff x1 y1, .aff x2 y2 =>
    if fsub c x1 x2 = 0 then
      if fsub c y1 y2 = 0 then ptDbl c (.aff x1 y1) else .inf
    else chord c (fmul c (fsub c y2 y1) (finv c (fsub c x2 x1))) x1 y1 x2

/-- Negation `pt_neg` (R115). -/
def ptNeg : Point → Point
  | .inf => .inf
  | .aff x y => .aff (fred c x) (fsub c 0 y)

/-- The generator `G = (Gx, Gy)` (R8, R38). -/
def gen : Point := .aff c.gx c.gy

end Sys2Proof.Machine
end

