-- ==== Sys2Proof/Machine/Operands.lean ====
section
/-!
DEFINITION. The operand forms of the commands (spec/30_encoding.md R71 to R73): field registers as integers,
point registers as point values (spec/41_point.md R111, R116). Constants (`FLDC`) are `constVal`, in
Sys2Proof/Machine/FieldMath.lean.
-/

namespace Sys2Proof.Machine

/-- A field register source as an integer: a field element before reduction (R21), or a scalar, which no one
reduces (R131). -/
def State.readField (s : State) (i : FReg) : Nat := (s.getF i).toNat

/-- A field register destination; every value written is below `2^384` (R16, R21). -/
def State.writeField (s : State) (i : FReg) (v : Nat) : State := s.setF i (BitVec.ofNat 384 v)

/-- `val(j)` (R111): `INF` when `.inf = 1`, whatever the coordinates hold (R23). -/
def State.readPoint (s : State) (j : PReg) : Point :=
  if (s.getPt j).inf then .inf else .aff (s.getPt j).x.toNat (s.getPt j).y.toNat

/-- How a point value is stored (R23, R116): `INF` as `(0, 0, 1)`. -/
def Point.toReg : Point → PointReg
  | .inf => ⟨0#384, 0#384, true⟩
  | .aff x y => ⟨BitVec.ofNat 384 x, BitVec.ofNat 384 y, false⟩

/-- The register part of `wr(pd, P)` (R116); its flag is `Flags.ofPoint`. -/
def State.writePoint (s : State) (j : PReg) (q : Point) : State := s.setPt j q.toReg

/-- The 97 bytes of `BUF` (R25), the string operand of `PDEC`. -/
def State.bufString (s : State) : List Byte := Memory.readBytes s.buf 0 Config.bufBytes

end Sys2Proof.Machine
end

