-- ==== Sys2Proof/Machine/Bus.lean ====
section
/-!
DEFINITION. The register window and the host's two transactions (spec/20_memory.md R50 to R63, R68, R69;
spec/10_state.md R30 to R37).
-/

namespace Sys2Proof.Machine

/-- What stands at a word of the window (R56, R58, R59, R60, R63). -/
inductive Loc where
  | id
  | ctrl
  | status
  | cmd
  | len
  /-- word `w` of `BUF` -/
  | buf (w : Fin 25)
  /-- word `j` of `f[i]` -/
  | field (i : FReg) (j : Fin 12)
  /-- word `j` of `pt[k].x` -/
  | ptX (k : PReg) (j : Fin 12)
  /-- word `j` of `pt[k].y` -/
  | ptY (k : PReg) (j : Fin 12)
  /-- the word that holds `pt[k].inf` -/
  | ptInf (k : PReg)
  /-- word `j` of `CONST[c]` -/
  | const (c : Fin 9) (j : Fin 12)
  | reserved
  deriving DecidableEq, Repr

/-- The byte offset of a word address (R51, R53). -/
def offset (w : WordAddr) : Nat := 4 * w.toNat

/-- A field register slot of 0x40 bytes, from its offset `o` in the field register range (R58). -/
def locateField (o : Nat) : Loc :=
  if o % 0x40 / 4 < 12 then .field (Fin.ofNat 8 (o / 0x40)) (Fin.ofNat 12 (o % 0x40 / 4)) else .reserved

/-- A point register slot of 0x80 bytes, from its offset `o` in the point register range (R59). -/
def locatePoint (o : Nat) : Loc :=
  if o % 0x80 < 0x30 then .ptX (Fin.ofNat 4 (o / 0x80)) (Fin.ofNat 12 (o % 0x80 / 4))
  else if o % 0x80 < 0x40 then .reserved
  else if o % 0x80 < 0x70 then .ptY (Fin.ofNat 4 (o / 0x80)) (Fin.ofNat 12 ((o % 0x80 - 0x40) / 4))
  else if o % 0x80 = 0x70 then .ptInf (Fin.ofNat 4 (o / 0x80))
  else .reserved

/-- A constant slot of 0x40 bytes, from its offset `o` in the constant range (R60). -/
def locateConst (o : Nat) : Loc :=
  if o % 0x40 / 4 < 12 then .const (Fin.ofNat 9 (o / 0x40)) (Fin.ofNat 12 (o % 0x40 / 4)) else .reserved

/-- The address map of R56. -/
def locate (w : WordAddr) : Loc :=
  if offset w = 0x000 then .id
  else if offset w = 0x004 then .ctrl
  else if offset w = 0x008 then .status
  else if offset w = 0x00C then .cmd
  else if offset w = 0x010 then .len
  else if offset w < 0x100 then .reserved
  else if offset w ≤ 0x160 then .buf (Fin.ofNat 25 ((offset w - 0x100) / 4))
  else if offset w < 0x200 then .reserved
  else if offset w < 0x400 then locateField (offset w - 0x200)
  else if offset w < 0x600 then locatePoint (offset w - 0x400)
  else if offset w < 0x800 then .reserved
  else if offset w < 0xA40 then locateConst (offset w - 0x800)
  else .reserved

/-- The data windows: `BUF`, field registers, point registers, "reserved words inside them included" (R57). -/
def inDataWindow (w : WordAddr) : Bool :=
  decide (0x100 ≤ offset w ∧ offset w ≤ 0x160) || decide (0x200 ≤ offset w ∧ offset w < 0x600)

/-- One bit as the low bit of a word, the rest reserved and 0 (R31). -/
def bitWord (b : Bool) : Word := BitVec.setWidth 32 (BitVec.ofBool b)

/-- The word `STATUS` reads as, from bit 31 down (R34). -/
def State.statusWord (s : State) : Word :=
  0#13 ++ BitVec.ofBool s.flags.noinv ++ BitVec.ofBool s.flags.onc ++ BitVec.ofBool s.flags.inf ++ s.errcode ++ 0#4
    ++ BitVec.ofBool s.ovr ++ BitVec.ofBool s.err ++ BitVec.ofBool s.done ++ BitVec.ofBool s.busy

/-- Word `w` of `BUF`: the byte with the lower index in the less significant lane (R52 (b)); the bytes that do not
exist read as 0. -/
def bufWord (m : Memory) (w : Nat) : Word :=
  Memory.read m (4 * w + 3) ++ Memory.read m (4 * w + 2) ++ Memory.read m (4 * w + 1) ++ Memory.read m (4 * w)

/-- The four bytes of a word, lane 0 first (R52 (b)). -/
def wordBytes (v : Word) : List Byte :=
  [BitVec.extractLsb' 0 8 v, BitVec.extractLsb' 8 8 v, BitVec.extractLsb' 16 8 v, BitVec.extractLsb' 24 8 v]

/-- The value of `CONST[i]` of a record as the 384 bits the window shows (R38, R60). -/
def constFelt (c : CurveParameters) (i : Fin 9) : Felt := BitVec.ofNat 384 ((constVal c i).getD 0)

/-- What a location holds, not masked. -/
def State.peek (s : State) : Loc → Word
  | .id => Config.idWord
  | .ctrl => bitWord s.ie
  | .status => s.statusWord
  | .cmd => s.cur
  | .len => BitVec.setWidth 32 s.len
  | .buf w => bufWord s.buf w
  | .field i j => getWord (s.getF i) j
  | .ptX k j => getWord (s.getPt k).x j
  | .ptY k j => getWord (s.getPt k).y j
  | .ptInf k => bitWord (s.getPt k).inf
  | .const i j => getWord (constFelt s.curve i) j
  | .reserved => 0#32

/-- The word `HostRead` returns (R62): the data windows read as 0 while a command is pending. -/
def State.hostRead (s : State) (w : WordAddr) : Word :=
  if s.busy && inDataWindow w then 0#32 else s.peek (locate w)

/-- A write to `STATUS`: a written 1 clears `DONE` (bit 1) or `OVR` (bit 3), "all other written bits are ignored"
(R34). -/
def State.writeStatus (s : State) (v : Word) : State :=
  { s with done := s.done && !v.getLsbD 1, ovr := s.ovr && !v.getLsbD 3 }

/-- A write that is not dropped. Read-only and reserved words ignore it (R32, R60, R68). -/
def State.poke (s : State) (v : Word) : Loc → State
  | .id => s
  | .ctrl => { s with ie := v.getLsbD 0 }
  | .status => s.writeStatus v
  | .cmd => s.accept v
  | .len => { s with len := BitVec.extractLsb' 0 8 v }
  | .buf w => { s with buf := Memory.writeBytes s.buf (4 * w.val) (wordBytes v) }
  | .field i j => s.setF i (setWord (s.getF i) j v)
  | .ptX k j => s.setPt k { s.getPt k with x := setWord (s.getPt k).x j v }
  | .ptY k j => s.setPt k { s.getPt k with y := setWord (s.getPt k).y j v }
  | .ptInf k => s.setPt k { s.getPt k with inf := v.getLsbD 0 }
  | .const _ _ => s
  | .reserved => s

/-- The offsets whose writes act while a command is pending: `CTRL` and `STATUS` (R61). -/
def writableWhileBusy (w : WordAddr) : Bool := offset w == 0x004 || offset w == 0x008

/-- `HostWrite` (R61): while a command is pending a write is dropped and sets `OVR`, but for `CTRL` and `STATUS`. -/
def State.hostWrite (s : State) (w : WordAddr) (v : Word) : State :=
  if s.busy && !writableWhileBusy w then { s with ovr := true } else s.poke v (locate w)

end Sys2Proof.Machine
end

