-- ==== Sys2Proof/Machine/CodecMath.lean ====
section
/-!
DEFINITION. The SEC1 encoder and decoder (spec/43_codec.md R140 to R142) and the byte strings they work on
(spec/00_scope.md R15), for any record `c`.
-/

namespace Sys2Proof.Machine

/-- `be_bytes(v, L)`: byte `i` is `(v / 256^(L-1-i)) mod 256` (R15). -/
def beBytes (v len : Nat) : List Byte :=
  (List.range len).map fun i => BitVec.ofNat 8 (v / 256 ^ (len - 1 - i))

/-- `be_int(B)`: the sum of `B[i] * 256^(L-1-i)` (R15), most significant byte first. -/
def beInt (bs : List Byte) : Nat := bs.foldl (fun acc b => acc * 256 + b.toNat) 0

/-- `enc_point((x, y))` of a canonical pair: tag 0x04, `x`, `y` (R140). -/
def encPoint (x y : Nat) : List Byte :=
  0x04#8 :: (beBytes x Config.fieldBytes ++ beBytes y Config.fieldBytes)

/-- `enc_x((x, y)) = be_bytes(x, 48)` of a canonical `x` (R142). -/
def encX (x : Nat) : List Byte := beBytes x Config.fieldBytes

/-- What `dec_point` returns (R141): a pair, or the first error. -/
inductive DecResult where
  | err (e : ErrorKind)
  | pair (x y : Nat)
  deriving DecidableEq, Repr

/-- The coordinate bytes `B[1..48]` as an integer (R141). -/
def decX (bs : List Byte) : Nat := beInt ((bs.drop 1).take Config.fieldBytes)

/-- The coordinate bytes `B[49..96]` as an integer (R141). -/
def decY (bs : List Byte) : Nat := beInt ((bs.drop 49).take Config.fieldBytes)

/-- `dec_point(B, L)`: length, tag, range, curve equation, "the first that fails decides the error" (R141). -/
def decPoint (c : CurveParameters) (bs : List Byte) (len : Nat) : DecResult :=
  if len ≠ Config.bufBytes then .err .encLength
  else if bs.headD 0#8 ≠ 0x04#8 then .err .encTag
  else if decX bs ≥ c.p ∨ decY bs ≥ c.p then .err .encRange
  else if onCurve c (.aff (decX bs) (decY bs)) = false then .err .encNotOnCurve
  else .pair (decX bs) (decY bs)

end Sys2Proof.Machine
end

