-- ==== Sys2Proof/Machine/Flags.lean ====
section
/-!
DEFINITION. The flag values of spec/10_state.md R28, one function per shape of row of its table. `Flags.none` of
Sys2Proof/Machine/Ops.lean is the row of all zeros.
-/

namespace Sys2Proof.Machine

/-- Commands that write or test a point: `INF` alone (R28, R116). -/
def Flags.ofPoint (q : Point) : Flags := ⟨q.isInf, false, false⟩

/-- `MODINV`: `NOINV` "1 if `f[fs1] mod p = 0`, else 0" (R28). -/
def Flags.ofInverse (c : CurveParameters) (v : Nat) : Flags := ⟨false, false, !hasInv c v⟩

/-- `PCHK`: `INF` and `ONC` (R28, R121). -/
def Flags.ofCheck (c : CurveParameters) (q : Point) : Flags := ⟨q.isInf, onCurve c q, false⟩

end Sys2Proof.Machine
end

