-- ==== Sys2Proof/Machine/Point.lean ====
section
/-!
DEFINITION. The point unit's commands (spec/41_point.md R117 to R122), over the record `s.curve`.
-/

namespace Sys2Proof.Machine

/-- `wr(pd, P)` and success (R116, R172): the shared end of every command that writes a point. -/
def finishPoint (pd : PReg) (q : Point) (s : State) : Result :=
  .next ((s.writePoint pd q).succeed (Flags.ofPoint q))

/-- R117: `wr(pd, pt_dbl(P))`. -/
def execPdbl (pd ps1 : PReg) (s : State) : Result :=
  finishPoint pd (ptDbl s.curve (s.readPoint ps1)) s

/-- R118: `wr(pd, pt_add(P, Q))`. -/
def execPadd (pd ps1 ps2 : PReg) (s : State) : Result :=
  finishPoint pd (ptAdd s.curve (s.readPoint ps1) (s.readPoint ps2)) s

/-- R119: `wr(pd, pt_neg(P))`. -/
def execPneg (pd ps1 : PReg) (s : State) : Result :=
  finishPoint pd (ptNeg s.curve (s.readPoint ps1)) s

/-- R120: `INF <- pt[ps1].inf`; no register changes. -/
def execPisinf (ps1 : PReg) (s : State) : Result :=
  .next (s.succeed (Flags.ofPoint (s.readPoint ps1)))

/-- R121: `INF` and `ONC`; no register changes, and a point off the curve is no error. -/
def execPchk (ps1 : PReg) (s : State) : Result :=
  .next (s.succeed (Flags.ofCheck s.curve (s.readPoint ps1)))

/-- R122: `wr(pd, (Gx, Gy))`. -/
def execPldg (pd : PReg) (s : State) : Result :=
  finishPoint pd (gen s.curve) s

end Sys2Proof.Machine
end

