-- ==== Sys2Proof/Machine/Codec.lean ====
section
/-!
DEFINITION. The codec's commands (spec/43_codec.md R145 to R147), over the record `s.curve`.
-/

namespace Sys2Proof.Machine

/-- R145: `BUF[0..96] <- enc_point(pt_norm(P))`, `LEN <- 97`; `OperandInfinity` when `P` is `INF`. -/
def execPenc (ps1 : PReg) (s : State) : Result :=
  match ptNorm s.curve (s.readPoint ps1) with
  | .inf => .next (s.raise .operandInfinity)
  | .aff x y => .next ((s.putString (encPoint x y) 97#8).succeed Flags.none)

/-- R146: `wr(pd, dec_point(BUF, LEN))`, or the first failing check's error. -/
def execPdec (pd : PReg) (s : State) : Result :=
  match decPoint s.curve s.bufString s.len.toNat with
  | .err e => .next (s.raise e)
  | .pair x y => finishPoint pd (.aff x y) s

/-- R147: `BUF[0..47] <- enc_x(pt_norm(P))`, `LEN <- 48`, `BUF[48..96]` kept; `OperandInfinity` when `P` is `INF`. -/
def execXenc (ps1 : PReg) (s : State) : Result :=
  match ptNorm s.curve (s.readPoint ps1) with
  | .inf => .next (s.raise .operandInfinity)
  | .aff x _ => .next ((s.putString (encX x) 48#8).succeed Flags.none)

end Sys2Proof.Machine
end

