-- ==== Sys2Proof/Machine/Field.lean ====
section
/-!
DEFINITION. The field unit's commands (spec/40_field.md R97 to R100), over the record `s.curve`.
-/

namespace Sys2Proof.Machine

/-- R97: `f[fd] <- montmul(u, v)`. -/
def execMontmul (fd fs1 fs2 : FReg) (s : State) : Result :=
  .next ((s.writeField fd (montmul s.curve (s.readField fs1) (s.readField fs2))).succeed Flags.none)

/-- R98: `f[fd] <- fmul(u, v)`. -/
def execModmul (fd fs1 fs2 : FReg) (s : State) : Result :=
  .next ((s.writeField fd (fmul s.curve (s.readField fs1) (s.readField fs2))).succeed Flags.none)

/-- R99: `f[fd] <- finv(v)`, `NOINV` when `v mod p = 0`; a zero divisor is no error. -/
def execModinv (fd fs1 : FReg) (s : State) : Result :=
  .next ((s.writeField fd (finv s.curve (s.readField fs1))).succeed
    (Flags.ofInverse s.curve (s.readField fs1)))

/-- R100: `f[fd] <- CONST[c]`, not reduced. An index above 8 is no legal command (R100, R175; log entry 9). -/
def execFldc (fd : FReg) (ix : ConstIx) (s : State) : Result :=
  match constVal s.curve ix with
  | some v => .next ((s.writeField fd v).succeed Flags.none)
  | none => .next (s.raise .illegalCommand)

end Sys2Proof.Machine
end

