-- ==== Sys2Proof/Machine/ScalarMath.lean ====
section
/-!
DEFINITION. The double-and-add scalar multiplier (spec/42_scalar.md R130, R135), for any record `c`.
-/

namespace Sys2Proof.Machine

variable (c : CurveParameters)

/-- The rounds `i = n - 1` down to `0` of R130 from the accumulator `acc`: double, then "add P if the bit is 1",
accumulator first. -/
def smulLoop (k : Nat) (q : Point) : Nat → Point → Point
  | 0, acc => acc
  | i + 1, acc => smulLoop k q i (if k.testBit i then ptAdd c (ptDbl c acc) q else ptDbl c acc)

/-- `smul(k, P)` over all 384 bit positions (R130). -/
def smul (k : Nat) (q : Point) : Point := smulLoop c k q 384 .inf

end Sys2Proof.Machine
end

