-- ==== Sys2Proof/Machine/Scalar.lean ====
section
/-!
DEFINITION. The scalar multiplier's command (spec/42_scalar.md R132), over the record `s.curve`.
-/

namespace Sys2Proof.Machine

/-- R132: `wr(pd, smul(k, P))`, `k` all 384 bits of `f[fs2]`, unreduced (R131). -/
def execSmul (pd ps1 : PReg) (fs2 : FReg) (s : State) : Result :=
  finishPoint pd (smul s.curve (s.readField fs2) (s.readPoint ps1)) s

end Sys2Proof.Machine
end

