-- ==== Sys2Proof/Machine/Dispatch.lean ====
section
/-! DEFINITION. The meaning of a command: what `Complete` does when `decode(cur)` is that command (spec/60_exceptions.md
R171 to R173). -/

namespace Sys2Proof.Machine

def exec (i : Instr) (s : State) : Host.Outcome State Fault Refusal :=
  match i with
  | .montmul fd fs1 fs2 => Sys2Proof.Machine.execMontmul fd fs1 fs2 s
  | .modmul fd fs1 fs2 => Sys2Proof.Machine.execModmul fd fs1 fs2 s
  | .modinv fd fs1 => Sys2Proof.Machine.execModinv fd fs1 s
  | .fldc fd c => Sys2Proof.Machine.execFldc fd c s
  | .pdbl pd ps1 => Sys2Proof.Machine.execPdbl pd ps1 s
  | .padd pd ps1 ps2 => Sys2Proof.Machine.execPadd pd ps1 ps2 s
  | .pneg pd ps1 => Sys2Proof.Machine.execPneg pd ps1 s
  | .pisinf ps1 => Sys2Proof.Machine.execPisinf ps1 s
  | .pchk ps1 => Sys2Proof.Machine.execPchk ps1 s
  | .pldg pd => Sys2Proof.Machine.execPldg pd s
  | .smul pd ps1 fs2 => Sys2Proof.Machine.execSmul pd ps1 fs2 s
  | .penc ps1 => Sys2Proof.Machine.execPenc ps1 s
  | .pdec pd => Sys2Proof.Machine.execPdec pd s
  | .xenc ps1 => Sys2Proof.Machine.execXenc ps1 s

end Sys2Proof.Machine
end

