-- ==== Sys2Proof/Machine/Engine.lean ====
section
/-!
DEFINITION. What one event does (spec/20_memory.md R64, spec/60_exceptions.md R171): the engine's step `Complete`, a
transaction of the host, a reset; and which comes next.
-/

namespace Sys2Proof.Machine

/-- `Complete` on a pending command: `decode(cur)`, then the command's transition or the error report (R171, R78). -/
def complete (s : State) : Result :=
  match decode s.cur with
  | .legal i => exec i s
  | .illegal => .next (s.raise .illegalCommand)

/-- The engine's turn: "While `BUSY = 0` the engine has no enabled step: it changes nothing on its own" (R171). -/
def engineTurn (s : State) : Result := if s.busy then complete s else .next s

/-- One event. -/
def handle (e : Event) (s : State) : Result :=
  match e with
  | .read w => .next { s with rdata := some (s.hostRead w) }
  | .write w v => .next (s.hostWrite w v)
  | .engine => engineTurn s
  | .reset => .next s.resetEngine

/-- The next event of the schedule is handled; when the schedule is empty the engine has its turn (log entries 1
and 2). -/
def nextTurn (s : State) : Result :=
  match s.inputs with
  | [] => engineTurn s
  | e :: es => handle e { s with inputs := es }

/-- The schedule in which the engine's turn is next: its turn put first, unless the schedule is empty, when it is the
engine's turn as it stands. -/
def engineNext : List Event → List Event
  | [] => []
  | e :: es => .engine :: e :: es

/-- A command word placed as the pending command: its acceptance (R170), with the engine's turn next (log entry 10). -/
def State.pending (s : State) (w : Word) : State :=
  { s.accept w with inputs := engineNext s.inputs }

end Sys2Proof.Machine
end

