-- ==== Sys2Proof/Machine/Step.lean ====
section
/-!
DEFINITION. One step of the machine: the next event of the total order of spec/20_memory.md R64.
-/

namespace Sys2Proof.Machine

/-- One step. It calls Sys2Proof/Machine/Engine.lean and adds nothing. -/
def step (s : State) : Host.Outcome State Fault Refusal := nextTurn s

/-- `s` with the table word `w` as the pending command and the engine's turn next, so that the next step runs it (log
entry 10). -/
def State.withFetchWord (s : State) (nbits w : Nat) : State := s.pending (tableWord nbits w)

end Sys2Proof.Machine
end

