-- ==== Sys2Proof/Machine/HostProgram.lean ====
section
/-!
DEFINITION. Host programs: the assembler syntax and the program lines of spec/30_encoding.md R80, the
pseudo-instructions of R81, and how a program drives the engine (spec/44_host_sequences.md R160 to R166). Nothing
here adds behaviour to the engine; the events of a line go through `step`.
-/

namespace Sys2Proof.Machine

/-! ### Assembler text -/

/-- `f0` to `f7` (R80). -/
def fName (i : FReg) : String := ["f0", "f1", "f2", "f3", "f4", "f5", "f6", "f7"].getD i.val ""

/-- `p0` to `p3` (R80). -/
def pName (j : PReg) : String := ["p0", "p1", "p2", "p3"].getD j.val ""

/-- The names of the constants of R38; an index above 8 has none. -/
def constName (c : ConstIx) : String :=
  ["P", "A", "B", "N", "GX", "GY", "R2", "ONE", "RMODP"].getD c.val ""

/-- The operands of a command as text, in the order of R80. -/
def operandNames : Instr → List String
  | .montmul fd fs1 fs2 => [fName fd, fName fs1, fName fs2]
  | .modmul fd fs1 fs2 => [fName fd, fName fs1, fName fs2]
  | .modinv fd fs1 => [fName fd, fName fs1]
  | .fldc fd c => [fName fd, constName c]
  | .pdbl pd ps1 => [pName pd, pName ps1]
  | .padd pd ps1 ps2 => [pName pd, pName ps1, pName ps2]
  | .pneg pd ps1 => [pName pd, pName ps1]
  | .pisinf ps1 => [pName ps1]
  | .pchk ps1 => [pName ps1]
  | .pldg pd => [pName pd]
  | .smul pd ps1 fs2 => [pName pd, pName ps1, fName fs2]
  | .penc ps1 => [pName ps1]
  | .pdec pd => [pName pd]
  | .xenc ps1 => [pName ps1]

/-- `MNEMONIC op1, op2, op3` (R80), the constant of `FLDC` by its name. -/
def assemblerText (i : Instr) : String :=
  i.row.mnemonic ++ " " ++ String.intercalate ", " (operandNames i)

/-! ### Program lines -/

/-- A line of a host program (R80), with the two checks the pseudo-instruction `ECDHX` makes between commands (R81,
R164). -/
inductive HostLine where
  /-- `WR off, value` -/
  | wr (off : WordAddr) (v : Word)
  /-- `RD off` or `RD off -> name` -/
  | rd (off : WordAddr)
  /-- a command: `HostWrite(0x00C, encoding)` -/
  | cmd (i : Instr)
  /-- `WAIT`: read `STATUS` until `BUSY` is 0 -/
  | wait
  /-- `WR f<i>, <384-bit value>` -/
  | wrField (i : FReg) (v : Felt)
  /-- `WR p<k>.x, <384-bit value>` -/
  | wrX (k : PReg) (v : Felt)
  /-- `WR p<k>.y, <384-bit value>` -/
  | wrY (k : PReg) (v : Felt)
  /-- `WR p<k>.inf, value` -/
  | wrInf (k : PReg) (v : Word)
  /-- `WR BUF, <bytes>` -/
  | wrBuf (bs : List Byte)
  /-- stop if `ERR` is set in the `STATUS` word the last `WAIT` read -/
  | stopIfErr
  /-- stop if `INF` is set in the `STATUS` word the last `WAIT` read -/
  | stopIfInf
  deriving DecidableEq, Repr

/-- The word address of a byte offset. -/
def wordAddr (off : Nat) : WordAddr := BitVec.ofNat 10 (off / 4)

/-- The twelve writes of a 384-bit value, least significant word first (R58, R80). -/
def writeFelt (base : Nat) (v : Felt) : List Event :=
  (List.range 12).map fun j => .write (wordAddr (base + 4 * j)) (getWord v j)

/-- Four bytes as a bus word, the first in the least significant lane (R52 (b)); a lane without a byte is 0 (log entry
13). -/
def packLanes (bs : List Byte) : Word :=
  bs.getD 3 0#8 ++ bs.getD 2 0#8 ++ bs.getD 1 0#8 ++ bs.getD 0 0#8

/-- The word writes of a byte string from `BUF[0]` on (R63, R80), as many words as hold the string. A string longer than 97
bytes "cannot be stored" (R144) and R63 has no word above 24, but no rule says what such a line does: it writes words 0 to
24, and the bytes from the 98th on go nowhere (MODEL'S CHOICE, log entry 18). -/
def writeBuf (bs : List Byte) : List Event :=
  (List.range (min ((bs.length + 3) / 4) 25)).map fun w =>
    .write (wordAddr (0x100 + 4 * w)) (packLanes (bs.drop (4 * w)))

/-- A `WAIT` (R80: "repeat `RD 0x008` until the word read has bit 0 (`BUSY`) equal to 0"). An idle engine is read once; a
pending command is found pending by `polls` reads before it completes (MODEL'S CHOICE of how to write the freedom of R212
down: `polls` is any number, log entry 15). -/
def waitEvents (polls : Nat) (busy : Bool) : List Event :=
  if busy then List.replicate polls (.read (wordAddr 0x008)) ++ [.engine, .read (wordAddr 0x008)]
  else [.read (wordAddr 0x008)]

/-- The transactions of a line that is no `WAIT` (R80), in order. -/
def HostLine.transactions : HostLine → List Event
  | .wr off v => [.write off v]
  | .rd off => [.read off]
  | .cmd i => [.write (wordAddr 0x00C) (encode i)]
  | .wait => []
  | .wrField i v => writeFelt (0x200 + 0x40 * i.val) v
  | .wrX k v => writeFelt (0x400 + 0x80 * k.val) v
  | .wrY k v => writeFelt (0x400 + 0x80 * k.val + 0x40) v
  | .wrInf k v => [.write (wordAddr (0x400 + 0x80 * k.val + 0x70)) v]
  | .wrBuf bs => writeBuf bs
  | .stopIfErr => []
  | .stopIfInf => []

/-- The engine's turn put after the first `n` of the events `es`; no turn among them when they are fewer than `n`. -/
def insertTurn : Nat → List Event → List Event
  | 0, es => .engine :: es
  | _ + 1, [] => []
  | n + 1, e :: es => e :: insertTurn n es

/-- The events of a line. R212 lets a pending command complete "at any later point in the event order", so the number `turn`
says where in the line the engine has its turn: before its transactions (0), after the first `turn` of them, or, when there
are fewer, not in this line; in a `WAIT`, after `turn` polls. (MODEL'S CHOICE of how to write that freedom down, log entry
15; a claim holds for every number.) -/
def HostLine.events (l : HostLine) (turn : Nat) (busy : Bool) : List Event :=
  match l with
  | .wait => waitEvents turn busy
  | l => insertTurn turn l.transactions

/-- Perform a list of events, one step each; none is left to come after them. -/
def drive : List Event → State → Result
  | [], s => .next { s with inputs := [] }
  | e :: es, s =>
    match step { s with inputs := [e] } with
    | .next t => drive es t
    | .fault r => .fault r
    | .refused r => .refused r

/-- The end of a program: the state, whether a check stopped it, and the words its `RD` lines read, in order. -/
structure HostEnd where
  state   : State
  stopped : Bool
  reads   : List Word
  deriving DecidableEq, Repr

/-- Whether a line is a check that the word last read says to stop at: `ERR` is bit 2, `INF` bit 16 (R34). -/
def HostLine.stops (l : HostLine) (s : State) : Bool :=
  match l with
  | .stopIfErr => (s.rdata.getD 0#32).getLsbD 2
  | .stopIfInf => (s.rdata.getD 0#32).getLsbD 16
  | _ => false

/-- The result an `RD` line may name (R80), in the state after it; no other line has one. -/
def HostLine.result (l : HostLine) (s : State) : List Word :=
  match l with
  | .rd _ => [s.rdata.getD 0#32]
  | _ => []

/-- The end of a program (R214): its last line has been performed, and it "has not ended until the pending command
completes". -/
def finish (stopped : Bool) (s : State) : Host.Outcome HostEnd Fault Refusal :=
  match drive [.engine] s with
  | .next t => .next ⟨t, stopped, []⟩
  | .fault r => .fault r
  | .refused r => .refused r

/-- Run a program as the only host (R160, R214). The `n`-th line has the `n`-th number of `turns` (0 past their end), which
says where in it a pending command completes (R212; MODEL'S CHOICE, log entry 15). -/
def runLines : List HostLine → List Nat → State → Host.Outcome HostEnd Fault Refusal
  | [], _, s => finish false s
  | l :: ls, turns, s =>
    if l.stops s then finish true s
    else
      match drive (l.events (turns.headD 0) s.busy) s with
      | .next t =>
        match runLines ls turns.tail t with
        | .next e => .next { e with reads := l.result t ++ e.reads }
        | .fault r => .fault r
        | .refused r => .refused r
      | .fault r => .fault r
      | .refused r => .refused r

/-! ### Pseudo-instructions -/

/-- `TOMONT fd, fs, ft` (R81, R161). -/
def tomont (fd fs ft : FReg) : List HostLine :=
  [.cmd (.fldc ft 6), .wait, .cmd (.montmul fd fs ft), .wait]

/-- `FROMMONT fd, fs, ft` (R81, R161). -/
def frommont (fd fs ft : FReg) : List HostLine :=
  [.cmd (.fldc ft 7), .wait, .cmd (.montmul fd fs ft), .wait]

/-- `PMOV pd, ps` (R81, R162). -/
def pmov (pd ps : PReg) : List HostLine :=
  [.cmd (.pneg pd ps), .wait, .cmd (.pneg pd pd), .wait]

/-- `PUBKEY pd, fk` (R81, R163). -/
def pubkey (pd : PReg) (fk : FReg) : List HostLine :=
  [.cmd (.pldg pd), .wait, .cmd (.smul pd pd fk), .wait]

/-- `ECDHX pd, fk` (R81, R164). -/
def ecdhx (pd : PReg) (fk : FReg) : List HostLine :=
  [.cmd (.pdec pd), .wait, .stopIfErr, .cmd (.smul pd pd fk), .wait, .stopIfInf, .cmd (.xenc pd), .wait]

/-- Word `j` of the scalar serialized as the 48 bytes `S[0..47]`: `{S[44-4j], S[45-4j], S[46-4j], S[47-4j]}`, first named
byte most significant (R166). R166 speaks of 48 bytes only; of a list of another length, missing bytes are 0 and bytes past
the 48th are not used (MODEL'S CHOICE, log entry 18). -/
def scalarWord (bs : List Byte) (j : Nat) : Word :=
  bs.getD (44 - 4 * j) 0#8 ++ bs.getD (45 - 4 * j) 0#8 ++ bs.getD (46 - 4 * j) 0#8 ++ bs.getD (47 - 4 * j) 0#8

/-- The twelve writes that load a serialized scalar into `f[i]` (R166). -/
def loadScalar (i : FReg) (bs : List Byte) : List HostLine :=
  (List.range 12).map fun j => .wr (wordAddr (0x200 + 0x40 * i.val + 4 * j)) (scalarWord bs j)

/-- The twelve reads of `f[i]`, least significant word first (R58, R166). -/
def storeScalar (i : FReg) : List HostLine :=
  (List.range 12).map fun j => .rd (wordAddr (0x200 + 0x40 * i.val + 4 * j))

/-- "The same mapping, read backwards, turns a register into bytes" (R166): the bytes `S` of the words of a register, word 0
first; of word `j` the most significant byte is `S[44-4j]`. -/
def scalarBytes (ws : List Word) : List Byte := ws.reverse.flatMap fun v => (wordBytes v).reverse

end Sys2Proof.Machine
end

