-- ==== Sys2Proof/Safety.lean ====
section
/-!
DEFINITION. What counts as a safe state and a safe change, in the terms the statements use, and the constraints on the
curve record (spec/00_scope.md R8).
-/

namespace Sys2Proof.Machine

/-- The codes `ERRCODE` may hold (R174: "`ERRCODE` never holds any other value"). -/
def errorCodes : List Byte := [0x00#8, 0x01#8, 0x10#8, 0x11#8, 0x12#8, 0x13#8, 0x20#8]

/-- The invariants of R35 and R174, and the canonical form of `BUF`. -/
structure State.Inv (s : State) : Prop where
  /-- the byte buffer is in canonical form -/
  bufWf : s.buf.wf
  /-- "`BUSY = 1` implies `DONE = 0`, `ERR = 0`, `ERRCODE = 0` and `FLAGS = 0`" (R35) -/
  busyClear : s.busy = true → s.done = false ∧ s.err = false ∧ s.errcode = 0x00#8 ∧ s.flags = ⟨false, false, false⟩
  /-- "`ERR = 1` if and only if `ERRCODE != 0`" (R35) -/
  errIffCode : s.err = true ↔ s.errcode ≠ 0x00#8
  /-- "`ERR = 1` implies `FLAGS = 0`" (R35) -/
  errNoFlags : s.err = true → s.flags = ⟨false, false, false⟩
  /-- the complete list of R174 -/
  codeKnown : s.errcode ∈ errorCodes

/-- Two states hold the same data: field registers, point registers, `BUF` byte by byte, and `LEN` (what R173 says an
error keeps and R61 says the host cannot change while a command is pending). -/
structure SameData (s t : State) : Prop where
  f   : t.f = s.f
  pt  : t.pt = s.pt
  buf : ∀ a, Memory.read t.buf a = Memory.read s.buf a
  len : t.len = s.len

/-- What no completion of a command touches: `CTRL`, `OVR`, `cur`, the record, and the outside world (R7, R170, R172, R173,
R184). -/
structure SameControl (s t : State) : Prop where
  ie     : t.ie = s.ie
  ovr    : t.ovr = s.ovr
  cur    : t.cur = s.cur
  curve  : t.curve = s.curve
  inputs : t.inputs = s.inputs
  rdata  : t.rdata = s.rdata

/-- The report of a command that succeeded (R172) with the flags `fl` (R28). -/
structure Succeeded (t : State) (fl : Flags) : Prop where
  busy    : t.busy = false
  done    : t.done = true
  err     : t.err = false
  errcode : t.errcode = 0x00#8
  flags   : t.flags = fl

/-- The report of a command that ended in the error of code `code` (R173). -/
structure Failed (t : State) (code : Byte) : Prop where
  busy    : t.busy = false
  done    : t.done = true
  err     : t.err = true
  errcode : t.errcode = code
  flags   : t.flags = ⟨false, false, false⟩

/-- A point value whose coordinates are canonical (R19). -/
def Point.Canonical (c : CurveParameters) : Point → Prop
  | .inf => True
  | .aff x y => x < c.p ∧ y < c.p

/-- A point value of the group: `INF` or on the curve (R123). -/
def Point.InGroup (c : CurveParameters) (q : Point) : Prop := q = .inf ∨ onCurve c q = true

end Sys2Proof.Machine

namespace Sys2Proof

open Sys2Proof.Machine

/-- The constraints of R8 on a record. -/
structure CurveParameters.Valid (c : CurveParameters) : Prop where
  prime    : Nat.Prime c.p
  odd      : c.p % 2 = 1
  low      : 2 ^ 383 < c.p
  high     : c.p < 2 ^ 384
  a        : c.a < c.p
  b        : c.b < c.p
  gx       : c.gx < c.p
  gy       : c.gy < c.p
  gOnCurve : onCurve c (gen c) = true
  nPos     : 1 < c.n
  nBound   : c.n < 2 ^ 384
  order    : smul c c.n (gen c) = .inf
  /-- no smaller positive multiple of `G` is `INF`: `n` is the order -/
  minimal  : ∀ k, 0 < k → k < c.n → smul c k (gen c) ≠ .inf

end Sys2Proof
end

