-- ==== Sys2Proof/Certificates/Slice0/Obligations.lean ====
section
/-!
DEFINITION. The statements for the provers. Each says with numbers and integer arithmetic what a rule of the spec says; the
tables of the spec the statements use stand first, written out again from the spec and not taken from the model.
-/

namespace Sys2Proof.Spec

open Sys2Proof.Machine

/-! ### The spec's tables, for the statements -/

/-- The table of R76: mnemonic, match, mask, operand bits as (high, low). -/
def opcodeRows : List (String × Nat × Nat × List (Nat × Nat)) :=
  [("MONTMUL", 0x00000010, 0xFFF888FF, [(10, 8), (14, 12), (18, 16)]),
   ("MODMUL",  0x00000011, 0xFFF888FF, [(10, 8), (14, 12), (18, 16)]),
   ("MODINV",  0x00000012, 0xFFFF88FF, [(10, 8), (14, 12)]),
   ("FLDC",    0x00000013, 0xFFF0F8FF, [(10, 8), (19, 16)]),
   ("PDBL",    0x00000020, 0xFFFFCCFF, [(9, 8), (13, 12)]),
   ("PADD",    0x00000021, 0xFFFCCCFF, [(9, 8), (13, 12), (17, 16)]),
   ("PNEG",    0x00000022, 0xFFFFCCFF, [(9, 8), (13, 12)]),
   ("PISINF",  0x00000023, 0xFFFFCFFF, [(13, 12)]),
   ("PCHK",    0x00000024, 0xFFFFCFFF, [(13, 12)]),
   ("PLDG",    0x00000025, 0xFFFFFCFF, [(9, 8)]),
   ("SMUL",    0x00000030, 0xFFF8CCFF, [(9, 8), (13, 12), (18, 16)]),
   ("PENC",    0x00000040, 0xFFFFCFFF, [(13, 12)]),
   ("PDEC",    0x00000041, 0xFFFFFCFF, [(9, 8)]),
   ("XENC",    0x00000042, 0xFFFFCFFF, [(13, 12)])]

/-- `(w AND mask) = match` and, for `FLDC`, `w[19:16] <= 8` (R76). -/
def rowMatches (r : String × Nat × Nat × List (Nat × Nat)) (w : Word) : Prop :=
  w.toNat &&& r.2.2.1 = r.2.1 ∧ (r.1 = "FLDC" → w.toNat / 2 ^ 16 % 16 ≤ 8)

/-- `p` (R9). -/
def p : Nat :=
  0xFFFFFFFFFFFFFFFFFFFFFFFFFFFFFFFFFFFFFFFFFFFFFFFFFFFFFFFFFFFFFFFEFFFFFFFF0000000000000000FFFFFFFF

/-- `a = p - 3` (R9). -/
def a : Nat :=
  0xFFFFFFFFFFFFFFFFFFFFFFFFFFFFFFFFFFFFFFFFFFFFFFFFFFFFFFFFFFFFFFFEFFFFFFFF0000000000000000FFFFFFFC

/-- `b` (R9). -/
def b : Nat :=
  0xB3312FA7E23EE7E4988E056BE3F82D19181D9C6EFE8141120314088F5013875AC656398D8A2ED19D2A85C8EDD3EC2AEF

/-- `n` (R9). -/
def n : Nat :=
  0xFFFFFFFFFFFFFFFFFFFFFFFFFFFFFFFFFFFFFFFFFFFFFFFFC7634D81F4372DDF581A0DB248B0A77AECEC196ACCC52973

/-- `Gx` (R9). -/
def gx : Nat :=
  0xAA87CA22BE8B05378EB1C71EF320AD746E1D3B628BA79B9859F741E082542A385502F25DBF55296C3A545E3872760AB7

/-- `Gy` (R9). -/
def gy : Nat :=
  0x3617DE4A96262C6F5D9E98BF9292DC29F8F41DBD289A147CE9DA3113B5F0B8C00A60B1CE1D7E819D7A431D7C90EA0E5F

/-- `R2 = R^2 mod p` (R10). -/
def r2 : Nat := 0x000000010000000200000000FFFFFFFE000000000000000200000000FFFFFFFE00000001

/-- `R mod p` (R10). -/
def rModP : Nat := 0x100000000FFFFFFFFFFFFFFFF00000001

/-- `Rinv` (R10). -/
def rinv : Nat :=
  0x00000014000000140000000C00000002FFFFFFFCFFFFFFFAFFFFFFFBFFFFFFFDFFFFFFEBFFFFFFD8FFFFFFE100000006

/-- `pprime` (R10). -/
def pprime : Nat :=
  0x00000014000000140000000C00000002FFFFFFFCFFFFFFFAFFFFFFFBFFFFFFFE00000000000000010000000100000001

/-- `CONST[0..8]` of R38 for a record: its six numbers, `R^2 mod p`, 1, `R mod p` (R10). -/
def constTable (c : CurveParameters) : List Nat :=
  [c.p, c.a, c.b, c.n, c.gx, c.gy, 2 ^ 384 * 2 ^ 384 % c.p, 1, 2 ^ 384 % c.p]

/-- What of R8 the statements about the engine's record need (log entry 17): `p` an odd prime below `2^384`, the generator's
coordinates below `p`. -/
def fits (c : CurveParameters) : Prop :=
  Nat.Prime c.p ∧ c.p % 2 = 1 ∧ c.p < 2 ^ 384 ∧ c.gx < c.p ∧ c.gy < c.p

/-- The data windows of R57, by byte offset. -/
def dataWindow (o : Nat) : Prop := (0x100 ≤ o ∧ o ≤ 0x160) ∨ (0x200 ≤ o ∧ o ≤ 0x3FC) ∨ (0x400 ≤ o ∧ o ≤ 0x5FC)

/-- The reserved offsets: those the table of R56 marks, and the reserved words inside slots (R58, R59, R60). -/
def reservedOffset (o : Nat) : Prop :=
  (0x014 ≤ o ∧ o ≤ 0x0FC) ∨ (0x164 ≤ o ∧ o ≤ 0x1FC) ∨
  (0x200 ≤ o ∧ o ≤ 0x3FC ∧ 0x30 ≤ (o - 0x200) % 0x40) ∨
  (0x400 ≤ o ∧ o ≤ 0x5FC ∧
    ((0x30 ≤ (o - 0x400) % 0x80 ∧ (o - 0x400) % 0x80 ≤ 0x3C) ∨ 0x74 ≤ (o - 0x400) % 0x80)) ∨
  (0x600 ≤ o ∧ o ≤ 0x7FC) ∨
  (0x800 ≤ o ∧ o ≤ 0xA3C ∧ 0x30 ≤ (o - 0x800) % 0x40) ∨
  (0xA40 ≤ o ∧ o ≤ 0xFFC)

/-- The 48 bytes of `BUF` from index `k` as an integer, most significant first: the sum of R15. -/
def coordinate (m : Memory) (k : Nat) : Nat :=
  ∑ i ∈ Finset.range 48, (Memory.read m (k + i)).toNat * 256 ^ (47 - i)

/-- The curve equation `y^2 = x^3 + a*x + b (mod p)` of R112. -/
def onCurve (c : CurveParameters) (x y : Nat) : Prop := (y ^ 2) % c.p = (x ^ 3 + c.a * x + c.b) % c.p

/-- The four checks of R141 on `BUF` and `LEN`. -/
def decodable (s : State) : Prop :=
  s.len = 97#8 ∧ Memory.read s.buf 0 = 0x04#8 ∧ coordinate s.buf 1 < s.curve.p ∧ coordinate s.buf 49 < s.curve.p ∧
    onCurve s.curve (coordinate s.buf 1) (coordinate s.buf 49)

/-- The engine's turn comes next: an empty schedule, or the engine's turn at its head (log entries 1 and 2). -/
def enginesTurn (s : State) : Prop := s.inputs = [] ∨ s.inputs.head? = some .engine

/-- The error report `raise E(code)` of R173 on a state, with nothing else changed. -/
def report (s : State) (code : Byte) : State :=
  { s with flags := ⟨false, false, false⟩, err := true, errcode := code, busy := false, done := true }

/-- The success report of R172 on a state, with nothing else changed. -/
def success (s : State) (fl : Flags) : State :=
  { s with flags := fl, err := false, errcode := 0x00#8, busy := false, done := true }

/-- The value of a point register as R111 reads it. -/
def val (r : PointReg) : Point := if r.inf then .inf else .aff r.x.toNat r.y.toNat

/-- `f[fd] <- v` with success and the flags `fl`. -/
def wrField (s : State) (fd : FReg) (v : Nat) (fl : Flags) : State :=
  success { s with f := s.f.set fd.val (BitVec.ofNat 384 v) fd.isLt } fl

/-- `wr(pd, INF)` of R116, with success and the flag. -/
def wrInf (s : State) (pd : PReg) : State :=
  success { s with pt := s.pt.set pd.val ⟨0#384, 0#384, true⟩ pd.isLt } ⟨true, false, false⟩

/-- `wr(pd, (x, y))` of R116, with success and the flag. -/
def wrPair (s : State) (pd : PReg) (x y : Nat) : State :=
  success { s with pt := s.pt.set pd.val ⟨BitVec.ofNat 384 x, BitVec.ofNat 384 y, false⟩ pd.isLt } ⟨false, false, false⟩

/-- `(x', y')` is the double of `(x, y)`: the formulas of R113 with the slope as the solution of its equation. -/
def IsDouble (c : CurveParameters) (x y x' y' : Nat) : Prop :=
  x' < c.p ∧ y' < c.p ∧ ∃ lam : Int,
    lam * (2 * y) ≡ 3 * x ^ 2 + c.a [ZMOD c.p] ∧ (x' : Int) ≡ lam ^ 2 - 2 * x [ZMOD c.p] ∧
    (y' : Int) ≡ lam * (x - x') - y [ZMOD c.p]

/-- `(x3, y3)` is the sum of `(x1, y1)` and `(x2, y2)` on a chord: the formulas of R114 with the slope as the solution of
its equation. -/
def IsChordSum (c : CurveParameters) (x1 y1 x2 y2 x3 y3 : Nat) : Prop :=
  x3 < c.p ∧ y3 < c.p ∧ ∃ lam : Int,
    lam * (x2 - x1) ≡ (y2 : Int) - y1 [ZMOD c.p] ∧ (x3 : Int) ≡ lam ^ 2 - x1 - x2 [ZMOD c.p] ∧
    (y3 : Int) ≡ lam * (x1 - x3) - y1 [ZMOD c.p]

end Sys2Proof.Spec

open Sys2Proof Sys2Proof.Machine

/-! ### Encoding -/

/-- R76, R77: a word that matches a row is that command with the operands read from the row's bits; a word that matches no
row is illegal. -/
def Obligations.DecodeReadsTheOpcodeTable : Prop :=
  ∀ w : Word,
    (∀ r ∈ Spec.opcodeRows, Spec.rowMatches r w →
      ∃ i, decode w = .legal i ∧ i.row.mnemonic = r.1 ∧
        i.operands = r.2.2.2.map fun bits => w.toNat / 2 ^ bits.2 % 2 ^ (bits.1 - bits.2 + 1)) ∧
    ((∀ r ∈ Spec.opcodeRows, ¬ Spec.rowMatches r w) → decode w = .illegal)

/-- The encoder and the decoder are inverse to each other: every well-formed command is read back whole, and every legal
word is the encoding of the command it is read as (so a legal word has one meaning and a meaning has one word). -/
def Obligations.DecodeEncodeAgree : Prop :=
  (∀ i : Instr, i.WellFormed → decode (encode i) = .legal i) ∧
  (∀ (w : Word) (i : Instr), decode w = .legal i → i.WellFormed ∧ encode i = w)

/-- R74 with the formats of R71: bits 31:20, unused fields and the upper bits of register fields are zero in every legal
word. -/
def Obligations.MustBeZeroBitsAreChecked : Prop :=
  ∀ (w : Word) (i : Instr), decode w = .legal i →
    w.toNat / 2 ^ 20 = 0 ∧
    match i with
    | .montmul _ _ _ | .modmul _ _ _ =>
      w.toNat / 2 ^ 8 % 16 < 8 ∧ w.toNat / 2 ^ 12 % 16 < 8 ∧ w.toNat / 2 ^ 16 % 16 < 8
    | .modinv _ _ => w.toNat / 2 ^ 8 % 16 < 8 ∧ w.toNat / 2 ^ 12 % 16 < 8 ∧ w.toNat / 2 ^ 16 % 16 = 0
    | .fldc _ _ => w.toNat / 2 ^ 8 % 16 < 8 ∧ w.toNat / 2 ^ 12 % 16 = 0
    | .pdbl _ _ | .pneg _ _ => w.toNat / 2 ^ 8 % 16 < 4 ∧ w.toNat / 2 ^ 12 % 16 < 4 ∧ w.toNat / 2 ^ 16 % 16 = 0
    | .padd _ _ _ => w.toNat / 2 ^ 8 % 16 < 4 ∧ w.toNat / 2 ^ 12 % 16 < 4 ∧ w.toNat / 2 ^ 16 % 16 < 4
    | .pisinf _ | .pchk _ | .penc _ | .xenc _ =>
      w.toNat / 2 ^ 8 % 16 = 0 ∧ w.toNat / 2 ^ 12 % 16 < 4 ∧ w.toNat / 2 ^ 16 % 16 = 0
    | .pldg _ | .pdec _ => w.toNat / 2 ^ 8 % 16 < 4 ∧ w.toNat / 2 ^ 12 % 16 = 0 ∧ w.toNat / 2 ^ 16 % 16 = 0
    | .smul _ _ _ => w.toNat / 2 ^ 8 % 16 < 4 ∧ w.toNat / 2 ^ 12 % 16 < 4 ∧ w.toNat / 2 ^ 16 % 16 < 8

/-- Words of spec/95_test_vectors.md section 7, one legal word a family and some illegal ones. -/
def Obligations.SampleCommandWords : Prop :=
  decode 0x00010210#32 = .legal (.montmul 2 0 1) ∧ decode 0x00012311#32 = .legal (.modmul 3 2 1) ∧
  decode 0x00007612#32 = .legal (.modinv 6 7) ∧ decode 0x00080113#32 = .legal (.fldc 1 8) ∧
  decode 0x00003320#32 = .legal (.pdbl 3 3) ∧ decode 0x00001222#32 = .legal (.pneg 2 1) ∧
  decode 0x00003023#32 = .legal (.pisinf 3) ∧ decode 0x00000325#32 = .legal (.pldg 3) ∧
  decode 0x00030130#32 = .legal (.smul 1 0 3) ∧ decode 0x00003040#32 = .legal (.penc 3) ∧
  decode 0x00000341#32 = .legal (.pdec 3) ∧ decode 0x00003042#32 = .legal (.xenc 3) ∧
  decode 0x00010A10#32 = .illegal ∧ decode 0x00090113#32 = .illegal ∧ decode 0x00000420#32 = .illegal ∧
  decode 0x00000140#32 = .illegal ∧ decode 0x00000000#32 = .illegal ∧ decode 0xFFFFFFFF#32 = .illegal

/-! ### The life of a command -/

/-- When a command is pending and the engine's turn comes, the step is the meaning of the decoded command, on the state
with that turn taken off the schedule. A table word placed by withFetchWord runs as if just accepted (MODEL'S CHOICE, log
entries 1, 2 and 10). -/
def Obligations.StepRunsTheDecodedCommand : Prop :=
  (∀ (s : State) (i : Instr), s.busy = true → Spec.enginesTurn s → decode s.cur = .legal i →
    step s = exec i { s with inputs := s.inputs.tail }) ∧
  (∀ (s : State) (w : Nat) (i : Instr), decode (BitVec.ofNat 32 (w % 2 ^ 32)) = .legal i →
    step (s.withFetchWord 32 w) =
      exec i { s with cur := BitVec.ofNat 32 (w % 2 ^ 32), busy := true, done := false, err := false, errcode := 0x00#8,
                      flags := ⟨false, false, false⟩ })

/-- R78, R175: a pending word that matches no row ends in the report 0x01, and no other state changes (but the engine's turn
is taken off the model's schedule). -/
def Obligations.IllegalWordEndsInIllegalCommand : Prop :=
  ∀ s : State, s.busy = true → Spec.enginesTurn s → (∀ r ∈ Spec.opcodeRows, ¬ Spec.rowMatches r s.cur) →
    step s = .next (Spec.report { s with inputs := s.inputs.tail } 0x01#8)

/-- The last sentence of R171: "While `BUSY = 0` the engine has no enabled step: it changes nothing on its own." (That an
empty schedule gives the engine its turn is the MODEL'S CHOICE, log entry 2.) -/
def Obligations.IdleEngineDoesNothing : Prop :=
  ∀ s : State, s.busy = false → Spec.enginesTurn s → step s = .next { s with inputs := s.inputs.tail }

/-- R170: a write to 0x00C while `BUSY = 0` accepts any word; while `BUSY = 1` it is no acceptance. -/
def Obligations.AcceptanceLatchesTheWord : Prop :=
  ∀ (s : State) (w : WordAddr) (v : Word) (es : List Event), 4 * w.toNat = 0x00C → s.inputs = .write w v :: es →
    (s.busy = false →
      step s = .next { s with inputs := es, cur := v, busy := true, done := false, err := false, errcode := 0x00#8,
                              flags := ⟨false, false, false⟩ }) ∧
    (s.busy = true → step s = .next { s with inputs := es, ovr := true })

/-- R61: while `BUSY = 1` a write to any offset but 0x004 and 0x008 changes nothing and sets `OVR`; those two act as
always. -/
def Obligations.WritesWhileBusyAreDropped : Prop :=
  ∀ (s : State) (w : WordAddr) (v : Word) (es : List Event), s.busy = true → s.inputs = .write w v :: es →
    (4 * w.toNat ≠ 0x004 → 4 * w.toNat ≠ 0x008 → step s = .next { s with inputs := es, ovr := true }) ∧
    (4 * w.toNat = 0x004 → step s = .next { s with inputs := es, ie := v.getLsbD 0 }) ∧
    (4 * w.toNat = 0x008 →
      step s = .next { s with inputs := es, done := s.done && !v.getLsbD 1, ovr := s.ovr && !v.getLsbD 3 })

/-- R62: while `BUSY = 1` the data windows read as 0; `ID`, `CTRL`, `STATUS`, `CMD`, `LEN` and the constant table read as
they are. (What `STATUS` is as a word is StatusRegister.) -/
def Obligations.ReadsWhileBusy : Prop :=
  ∀ (s : State) (w : WordAddr) (es : List Event), s.busy = true → s.inputs = .read w :: es →
    (Spec.dataWindow (4 * w.toNat) → step s = .next { s with inputs := es, rdata := some 0#32 }) ∧
    (4 * w.toNat = 0x000 → step s = .next { s with inputs := es, rdata := some 0x50333834#32 }) ∧
    (4 * w.toNat = 0x004 → step s = .next { s with inputs := es, rdata := some (if s.ie then 1#32 else 0#32) }) ∧
    (4 * w.toNat = 0x008 → step s = .next { s with inputs := es, rdata := some s.statusWord }) ∧
    (4 * w.toNat = 0x00C → step s = .next { s with inputs := es, rdata := some s.cur }) ∧
    (4 * w.toNat = 0x010 → step s = .next { s with inputs := es, rdata := some (BitVec.ofNat 32 s.len.toNat) }) ∧
    (∀ (c : Fin 9) (j : Fin 12), 4 * w.toNat = 0x800 + 0x40 * c.val + 4 * j.val →
      step s = .next { s with inputs := es,
                              rdata := some (BitVec.ofNat 32 ((Spec.constTable s.curve).getD c.val 0 / 2 ^ (32 * j.val))) })

/-- The first two sentences of R69: no read changes the engine, and the same read at once again returns the same word. -/
def Obligations.ReadsHaveNoSideEffect : Prop :=
  ∀ (s : State) (w : WordAddr) (es : List Event), s.inputs = .read w :: es →
    ∃ v : Word, step s = .next { s with inputs := es, rdata := some v } ∧
      (es.head? = some (.read w) → Sys2Proof.core.run 2 s = .next { s with inputs := es.tail, rdata := some v })

/-! ### The register window -/

/-- R34: the fields of `STATUS` as it reads at any time, its write-one-to-clear bits, its reset value. -/
def Obligations.StatusRegister : Prop :=
  (∀ (s : State) (w : WordAddr) (es : List Event), 4 * w.toNat = 0x008 → s.inputs = .read w :: es →
    ∃ v : Word, step s = .next { s with inputs := es, rdata := some v } ∧
      v.toNat = s.busy.toNat + 2 * s.done.toNat + 4 * s.err.toNat + 8 * s.ovr.toNat + 2 ^ 8 * s.errcode.toNat +
        2 ^ 16 * s.flags.inf.toNat + 2 ^ 17 * s.flags.onc.toNat + 2 ^ 18 * s.flags.noinv.toNat) ∧
  (∀ (s : State) (w : WordAddr) (v : Word) (es : List Event), 4 * w.toNat = 0x008 → s.inputs = .write w v :: es →
    step s = .next { s with inputs := es,
                            done := if v.getLsbD 1 then false else s.done,
                            ovr := if v.getLsbD 3 then false else s.ovr }) ∧
  State.reset.statusWord = 0#32

/-- R32, R33, R36, R37: `ID`, `CTRL`, `CMD` and `LEN` as bus registers. -/
def Obligations.ControlRegisters : Prop :=
  (∀ (s : State) (w : WordAddr) (es : List Event), s.inputs = .read w :: es →
    (4 * w.toNat = 0x000 → step s = .next { s with inputs := es, rdata := some 0x50333834#32 }) ∧
    (4 * w.toNat = 0x004 → step s = .next { s with inputs := es, rdata := some (if s.ie then 1#32 else 0#32) }) ∧
    (4 * w.toNat = 0x00C → step s = .next { s with inputs := es, rdata := some s.cur }) ∧
    (4 * w.toNat = 0x010 → step s = .next { s with inputs := es, rdata := some (BitVec.ofNat 32 s.len.toNat) })) ∧
  (∀ (s : State) (w : WordAddr) (v : Word) (es : List Event), s.inputs = .write w v :: es →
    (4 * w.toNat = 0x000 → s.busy = false → step s = .next { s with inputs := es }) ∧
    (4 * w.toNat = 0x000 → s.busy = true → step s = .next { s with inputs := es, ovr := true }) ∧
    (4 * w.toNat = 0x004 → step s = .next { s with inputs := es, ie := v.getLsbD 0 }) ∧
    (4 * w.toNat = 0x00C → s.busy = false → ∃ t, step s = .next t ∧ t.cur = v ∧ t.busy = true) ∧
    (4 * w.toNat = 0x00C → s.busy = true → step s = .next { s with inputs := es, ovr := true }) ∧
    (4 * w.toNat = 0x010 → s.busy = false →
      step s = .next { s with inputs := es, len := BitVec.ofNat 8 (v.toNat % 256) }) ∧
    (4 * w.toNat = 0x010 → s.busy = true → step s = .next { s with inputs := es, ovr := true })) ∧
  State.reset.ie = false ∧ State.reset.cur = 0#32 ∧ State.reset.len = 0#8

/-- R58: word `j` of the slot of `f[i]`, read and written while `BUSY = 0`; words 12 to 15 of the slot are reserved. -/
def Obligations.FieldRegisterWindow : Prop :=
  ∀ (s : State) (w : WordAddr) (es : List Event) (i : FReg), s.busy = false →
    (∀ j : Fin 12, 4 * w.toNat = 0x200 + 0x40 * i.val + 4 * j.val →
      (s.inputs = .read w :: es →
        step s = .next { s with inputs := es,
                                rdata := some (BitVec.ofNat 32 ((s.f.get i).toNat / 2 ^ (32 * j.val))) }) ∧
      (∀ v : Word, s.inputs = .write w v :: es →
        ∃ x : Felt, step s = .next { s with inputs := es, f := s.f.set i.val x i.isLt } ∧
          x.toNat / 2 ^ (32 * j.val) % 2 ^ 32 = v.toNat ∧
          ∀ k : Fin 12, k ≠ j →
            x.toNat / 2 ^ (32 * k.val) % 2 ^ 32 = (s.f.get i).toNat / 2 ^ (32 * k.val) % 2 ^ 32)) ∧
    (∀ j : Fin 4, 4 * w.toNat = 0x200 + 0x40 * i.val + 0x30 + 4 * j.val →
      (s.inputs = .read w :: es → step s = .next { s with inputs := es, rdata := some 0#32 }) ∧
      (∀ v : Word, s.inputs = .write w v :: es → step s = .next { s with inputs := es }))

/-- R59: the words of the slot of `pt[k]`, read and written while `BUSY = 0`: `.x`, `.y`, the one bit of `.inf`, and the
reserved slot offsets. -/
def Obligations.PointRegisterWindow : Prop :=
  ∀ (s : State) (w : WordAddr) (es : List Event) (k : PReg), s.busy = false →
    (∀ j : Fin 12, 4 * w.toNat = 0x400 + 0x80 * k.val + 4 * j.val →
      (s.inputs = .read w :: es →
        step s = .next { s with inputs := es,
                                rdata := some (BitVec.ofNat 32 ((s.pt.get k).x.toNat / 2 ^ (32 * j.val))) }) ∧
      (∀ v : Word, s.inputs = .write w v :: es →
        ∃ x : Felt,
          step s = .next { s with inputs := es, pt := s.pt.set k.val { s.pt.get k with x := x } k.isLt } ∧
          x.toNat / 2 ^ (32 * j.val) % 2 ^ 32 = v.toNat ∧
          ∀ l : Fin 12, l ≠ j →
            x.toNat / 2 ^ (32 * l.val) % 2 ^ 32 = (s.pt.get k).x.toNat / 2 ^ (32 * l.val) % 2 ^ 32)) ∧
    (∀ j : Fin 12, 4 * w.toNat = 0x400 + 0x80 * k.val + 0x40 + 4 * j.val →
      (s.inputs = .read w :: es →
        step s = .next { s with inputs := es,
                                rdata := some (BitVec.ofNat 32 ((s.pt.get k).y.toNat / 2 ^ (32 * j.val))) }) ∧
      (∀ v : Word, s.inputs = .write w v :: es →
        ∃ y : Felt,
          step s = .next { s with inputs := es, pt := s.pt.set k.val { s.pt.get k with y := y } k.isLt } ∧
          y.toNat / 2 ^ (32 * j.val) % 2 ^ 32 = v.toNat ∧
          ∀ l : Fin 12, l ≠ j →
            y.toNat / 2 ^ (32 * l.val) % 2 ^ 32 = (s.pt.get k).y.toNat / 2 ^ (32 * l.val) % 2 ^ 32)) ∧
    (4 * w.toNat = 0x400 + 0x80 * k.val + 0x70 →
      (s.inputs = .read w :: es →
        step s = .next { s with inputs := es, rdata := some (if (s.pt.get k).inf then 1#32 else 0#32) }) ∧
      (∀ v : Word, s.inputs = .write w v :: es →
        step s = .next { s with inputs := es,
                                pt := s.pt.set k.val { s.pt.get k with inf := v.getLsbD 0 } k.isLt })) ∧
    (∀ o ∈ [0x30, 0x34, 0x38, 0x3C, 0x74, 0x78, 0x7C], 4 * w.toNat = 0x400 + 0x80 * k.val + o →
      (s.inputs = .read w :: es → step s = .next { s with inputs := es, rdata := some 0#32 }) ∧
      (∀ v : Word, s.inputs = .write w v :: es → step s = .next { s with inputs := es }))

/-- R63: word `k` of the `BUF` window, read and written while `BUSY = 0`; of word 24 only `BUF[96]` exists. -/
def Obligations.BufferWindow : Prop :=
  ∀ (s : State) (w : WordAddr) (es : List Event) (k : Fin 25), s.busy = false → s.buf.wf →
    4 * w.toNat = 0x100 + 4 * k.val →
    (s.inputs = .read w :: es →
      ∃ v : Word, step s = .next { s with inputs := es, rdata := some v } ∧
        (k.val < 24 → v.toNat = (Memory.read s.buf (4 * k.val)).toNat + 2 ^ 8 * (Memory.read s.buf (4 * k.val + 1)).toNat +
          2 ^ 16 * (Memory.read s.buf (4 * k.val + 2)).toNat + 2 ^ 24 * (Memory.read s.buf (4 * k.val + 3)).toNat) ∧
        (k.val = 24 → v.toNat = (Memory.read s.buf 96).toNat)) ∧
    (∀ v : Word, s.inputs = .write w v :: es →
      ∃ m : Memory, step s = .next { s with inputs := es, buf := m } ∧ m.wf ∧
        ∀ a : Nat, Memory.read m a =
          if 4 * k.val ≤ a ∧ a < 4 * k.val + 4 ∧ a ≤ 96 then BitVec.ofNat 8 (v.toNat / 2 ^ (8 * (a - 4 * k.val)))
          else Memory.read s.buf a)

/-- R60: the constant table of the engine's record reads as its values (R38, R10) at all times, and writes to it are ignored. -/
def Obligations.ConstantTableWindow : Prop :=
  ∀ (s : State) (w : WordAddr) (es : List Event) (c : Fin 9) (j : Fin 16),
    4 * w.toNat = 0x800 + 0x40 * c.val + 4 * j.val →
    (j.val < 12 → s.inputs = .read w :: es →
      step s = .next { s with inputs := es,
                              rdata := some (BitVec.ofNat 32 ((Spec.constTable s.curve).getD c.val 0 / 2 ^ (32 * j.val))) }) ∧
    (12 ≤ j.val → s.inputs = .read w :: es → step s = .next { s with inputs := es, rdata := some 0#32 }) ∧
    (∀ v : Word, s.inputs = .write w v :: es →
      step s = .next { s with inputs := es, ovr := s.ovr || s.busy })

/-- R68: reserved offsets read as 0 and ignore writes whatever `BUSY` is, but that a write while `BUSY = 1` sets `OVR`. -/
def Obligations.ReservedWords : Prop :=
  ∀ (s : State) (w : WordAddr) (es : List Event), Spec.reservedOffset (4 * w.toNat) →
    (s.inputs = .read w :: es → step s = .next { s with inputs := es, rdata := some 0#32 }) ∧
    (∀ v : Word, s.inputs = .write w v :: es →
      step s = .next { s with inputs := es, ovr := s.ovr || s.busy })

/-- R181 with R41: the interrupt output, that every completion sets the pending bit and nothing else does, and the four ways
it is cleared. -/
def Obligations.InterruptOutput : Prop :=
  (∀ s : State, s.irq = (s.ie && s.done)) ∧
  (∀ s : State, s.busy = true → Spec.enginesTurn s → ∃ t, step s = .next t ∧ t.done = true ∧ t.irq = s.ie) ∧
  (∀ s t : State, step s = .next t → s.done = false → t.done = true → s.busy = true ∧ Spec.enginesTurn s) ∧
  (∀ (s : State) (w : WordAddr) (v : Word) (es : List Event), s.inputs = .write w v :: es →
    (4 * w.toNat = 0x008 → v.getLsbD 1 = true → ∃ t, step s = .next t ∧ t.irq = false) ∧
    (4 * w.toNat = 0x00C → s.busy = false → ∃ t, step s = .next t ∧ t.irq = false) ∧
    (4 * w.toNat = 0x004 → v.getLsbD 0 = false → ∃ t, step s = .next t ∧ t.irq = false)) ∧
  (∀ (s : State) (es : List Event), s.inputs = .reset :: es → ∃ t, step s = .next t ∧ t.irq = false)

/-! ### Reset -/

/-- R201 with the values of R40; the constants are the same before and after. (That the schedule and the word last read stay
is the MODEL'S CHOICE, log entry 4; that the record is a field is log entry 17.) -/
def Obligations.ResetWritesEverything : Prop :=
  ∀ (s : State) (es : List Event), s.inputs = .reset :: es →
    ∃ t : State, step s = .next t ∧
      (∀ i : FReg, t.f.get i = 0#384) ∧ (∀ k : PReg, t.pt.get k = ⟨0#384, 0#384, true⟩) ∧
      (∀ a : Nat, Memory.read t.buf a = 0x00#8) ∧ t.len = 0#8 ∧ t.ie = false ∧ t.statusWord = 0#32 ∧ t.cur = 0#32 ∧
      t.hostRead (wordAddr 0x000) = 0x50333834#32 ∧
      (∀ (c : Fin 9) (j : Fin 12), t.hostRead (wordAddr (0x800 + 0x40 * c.val + 4 * j.val)) =
        BitVec.ofNat 32 ((Spec.constTable s.curve).getD c.val 0 / 2 ^ (32 * j.val))) ∧
      t.curve = s.curve ∧ t.inputs = es ∧ t.rdata = s.rdata

/-- R202: a reset while a command is pending abandons it; `DONE` and `irq` stay 0 and no `Complete` follows, however often
the engine has its turn; and nothing but a reset or its completion ends a pending command. -/
def Obligations.ResetAbandonsThePendingCommand : Prop :=
  (∀ (s : State) (es : List Event) (k : Nat), s.busy = true → s.inputs = .reset :: (List.replicate k .engine ++ es) →
    ∃ t : State, Sys2Proof.core.run (k + 1) s = .next t ∧ t.busy = false ∧ t.done = false ∧ t.irq = false ∧
      t.inputs = es ∧ (∀ i : FReg, t.f.get i = 0#384) ∧ (∀ j : PReg, t.pt.get j = ⟨0#384, 0#384, true⟩) ∧
      (∀ a : Nat, Memory.read t.buf a = 0x00#8) ∧ t.len = 0#8) ∧
  (∀ s t : State, s.busy = true → step s = .next t → t.busy = false →
    Spec.enginesTurn s ∨ s.inputs.head? = some .reset)

/-- "reset wins" of R200: whatever event is due with a reset, the state after it is the reset state. (That a coinciding event
is one just before the reset in the total order is the MODEL'S reading, log entry 4.) -/
def Obligations.ResetWins : Prop :=
  ∀ (s : State) (e : Event) (es : List Event), s.inputs = e :: .reset :: es →
    ∃ r : Option Word, Sys2Proof.core.run 2 s = .next { State.reset with curve := s.curve, inputs := es, rdata := r }

/-! ### Whole-machine rules -/

/-- R61, R65: however many transactions the host makes while a command is pending, the command stays pending and its
operands stay as they are. -/
def Obligations.PendingCommandIsFrozen : Prop :=
  ∀ (es rest : List Event) (s : State), s.busy = true →
    (∀ e ∈ es, (∃ w, e = .read w) ∨ (∃ w v, e = .write w v)) → s.inputs = es ++ rest →
    ∃ t : State, Sys2Proof.core.run es.length s = .next t ∧ t.busy = true ∧ t.cur = s.cur ∧ t.f = s.f ∧ t.pt = s.pt ∧
      t.buf = s.buf ∧ t.len = s.len ∧ t.inputs = rest

/-- The invariants of R35, the list of codes of R174 and the canonical form of `BUF` (State.Inv) are kept by every step from
every state that has them, and no step changes the curve record (R7: "No command and no bus write can change it"). -/
def Obligations.StepKeepsTheInvariant : Prop :=
  (∀ s t : State, s.Inv → step s = .next t → t.Inv) ∧ ∀ s t : State, step s = .next t → t.curve = s.curve

/-- The reset state has the invariant, for the default record and for any other (log entry 17). -/
def Obligations.ResetMeetsTheInvariant : Prop := State.reset.Inv ∧ ∀ c : CurveParameters, (State.resetWith c).Inv

/-- R171 "it fires once, after a finite … time" and R214: when every event of a schedule has been handled and the engine has
had its turn, no command is pending; and every host program, from every state, ends, with `BUSY = 0`, wherever in its lines
the engine has its turn. (The schedule and the numbers `turns` are the MODEL'S CHOICE, log entries 1, 2 and 15.) -/
def Obligations.NothingIsPendingAtTheEnd : Prop :=
  (∀ s : State, ∃ t : State, Sys2Proof.core.run (s.inputs.length + 1) s = .next t ∧ t.busy = false ∧ t.inputs = []) ∧
  (∀ (ls : List HostLine) (turns : List Nat) (s : State), ∃ e : HostEnd, runLines ls turns s = .next e ∧
    e.state.busy = false)

/-- R178 and R171: every command completes on every state, leaves `CTRL`, `OVR`, `cur` and the outside world alone, and ends
in an error exactly where R174 names a cause. (The arm of `FLDC` above 8, which no legal word gives, is log entry 9.) -/
def Obligations.CommandsEndInErrorsExactlyWhere : Prop :=
  ∀ (i : Instr) (s : State), ∃ t : State, exec i s = .next t ∧ t.busy = false ∧ t.done = true ∧ SameControl s t ∧
    (t.err = true ↔
      match i with
      | .fldc _ c => 8 < c.val
      | .penc ps1 | .xenc ps1 => (s.pt.get ps1).inf = true
      | .pdec _ => ¬ Spec.decodable s
      | .montmul _ _ _ | .modmul _ _ _ | .modinv _ _ | .pdbl _ _ | .padd _ _ _ | .pneg _ _ | .pisinf _ | .pchk _
      | .pldg _ | .smul _ _ _ => False)

/-- R173: a completion that ends in an error, of a legal command or of an illegal word, leaves all data and control as they
were and writes the report. -/
def Obligations.FailedCommandsChangeNoData : Prop :=
  ∀ s t : State, s.busy = true → Spec.enginesTurn s → step s = .next t → t.err = true →
    t = Spec.report { s with inputs := s.inputs.tail } t.errcode ∧ t.errcode ∈ [0x01#8, 0x10#8, 0x11#8, 0x12#8, 0x13#8, 0x20#8]

/-- R28: FLAGS after acceptance, after an error, and after each command that succeeds. -/
def Obligations.FlagsFollowTheTable : Prop :=
  (∀ (s : State) (w : WordAddr) (v : Word) (es : List Event), 4 * w.toNat = 0x00C → s.busy = false →
    s.inputs = .write w v :: es → ∃ t, step s = .next t ∧ t.flags = ⟨false, false, false⟩) ∧
  (∀ (i : Instr) (s : State), ∃ t, exec i s = .next t ∧
    (t.err = true → t.flags = ⟨false, false, false⟩) ∧
    (t.err = false →
      match i with
      | .montmul _ _ _ | .modmul _ _ _ | .fldc _ _ | .penc _ | .xenc _ => t.flags = ⟨false, false, false⟩
      | .modinv _ fs1 => t.flags = ⟨false, false, decide ((s.f.get fs1).toNat % s.curve.p = 0)⟩
      | .pdbl pd _ | .padd pd _ _ | .pneg pd _ | .smul pd _ _ => t.flags = ⟨(t.pt.get pd).inf, false, false⟩
      | .pldg pd | .pdec pd => t.flags = ⟨(t.pt.get pd).inf, false, false⟩ ∧ (t.pt.get pd).inf = false
      | .pisinf ps1 => t.flags = ⟨(s.pt.get ps1).inf, false, false⟩
      | .pchk ps1 => t.flags.inf = (s.pt.get ps1).inf ∧ t.flags.noinv = false ∧
        (t.flags.onc = true ↔
          (s.pt.get ps1).inf = false ∧ Spec.onCurve s.curve (s.pt.get ps1).x.toNat (s.pt.get ps1).y.toNat)))

/-! ### The commands: result, flags, report and frame in one equation each -/

/-- R97 with R96: `f[fd] <- (u * v * Rinv) mod p`, for the number `Rinv` with `(R * Rinv) mod p = 1`; nothing else but the
report changes. -/
def Obligations.MontmulResult : Prop :=
  ∀ (fd fs1 fs2 : FReg) (s : State) (r : Nat), Nat.Prime s.curve.p → 2 ^ 384 * r % s.curve.p = 1 →
    exec (.montmul fd fs1 fs2) s = .next
      (Spec.wrField s fd ((s.f.get fs1).toNat * (s.f.get fs2).toNat * r % s.curve.p) ⟨false, false, false⟩)

/-- R98: `f[fd] <- (u * v) mod p`; nothing else but the report changes. -/
def Obligations.ModmulResult : Prop :=
  ∀ (fd fs1 fs2 : FReg) (s : State),
    exec (.modmul fd fs1 fs2) s = .next
      (Spec.wrField s fd ((s.f.get fs1).toNat * (s.f.get fs2).toNat % s.curve.p) ⟨false, false, false⟩)

/-- R99: 0 with `NOINV = 1` when `v mod p = 0`, else the `w` below `p` with `(v * w) mod p = 1`, which is
`v^(p-2) mod p` (R95); nothing else but the report changes. -/
def Obligations.ModinvResult : Prop :=
  ∀ (fd fs1 : FReg) (s : State), Spec.fits s.curve →
    ((s.f.get fs1).toNat % s.curve.p = 0 →
      exec (.modinv fd fs1) s = .next (Spec.wrField s fd 0 ⟨false, false, true⟩)) ∧
    ((s.f.get fs1).toNat % s.curve.p ≠ 0 →
      ∃ w : Nat, w < s.curve.p ∧ (s.f.get fs1).toNat * w % s.curve.p = 1 ∧
        w = ((s.f.get fs1).toNat % s.curve.p) ^ (s.curve.p - 2) % s.curve.p ∧
        exec (.modinv fd fs1) s = .next (Spec.wrField s fd w ⟨false, false, false⟩))

/-- R100 with the table of R38: `f[fd] <- CONST[c]` for `c` from 0 to 8, nothing else but the report changing; a word of
this opcode with a higher index is illegal. -/
def Obligations.FldcResult : Prop :=
  (∀ (fd : FReg) (c : ConstIx) (s : State), c.val ≤ 8 →
    exec (.fldc fd c) s = .next (Spec.wrField s fd ((Spec.constTable s.curve).getD c.val 0) ⟨false, false, false⟩)) ∧
  (∀ w : Word, w.toNat % 2 ^ 8 = 0x13 → 8 < w.toNat / 2 ^ 16 % 16 → decode w = .illegal)

/-- R117 with R113: the doubler; nothing but `pt[pd]` and the report changes. -/
def Obligations.PdblResult : Prop :=
  ∀ (pd ps1 : PReg) (s : State), Spec.fits s.curve →
    ((s.pt.get ps1).inf = true → exec (.pdbl pd ps1) s = .next (Spec.wrInf s pd)) ∧
    ((s.pt.get ps1).inf = false → (s.pt.get ps1).y.toNat % s.curve.p = 0 →
      exec (.pdbl pd ps1) s = .next (Spec.wrInf s pd)) ∧
    ((s.pt.get ps1).inf = false → (s.pt.get ps1).y.toNat % s.curve.p ≠ 0 →
      ∃ x' y' : Nat, Spec.IsDouble s.curve (s.pt.get ps1).x.toNat (s.pt.get ps1).y.toNat x' y' ∧
        exec (.pdbl pd ps1) s = .next (Spec.wrPair s pd x' y'))

/-- R118 with R114: the adder, case by case; nothing but `pt[pd]` and the report changes. -/
def Obligations.PaddResult : Prop :=
  ∀ (pd ps1 ps2 : PReg) (s : State), Spec.fits s.curve →
    ((s.pt.get ps1).inf = true → (s.pt.get ps2).inf = true →
      exec (.padd pd ps1 ps2) s = .next (Spec.wrInf s pd)) ∧
    ((s.pt.get ps1).inf = true → (s.pt.get ps2).inf = false →
      exec (.padd pd ps1 ps2) s = .next
        (Spec.wrPair s pd ((s.pt.get ps2).x.toNat % s.curve.p) ((s.pt.get ps2).y.toNat % s.curve.p))) ∧
    ((s.pt.get ps1).inf = false → (s.pt.get ps2).inf = true →
      exec (.padd pd ps1 ps2) s = .next
        (Spec.wrPair s pd ((s.pt.get ps1).x.toNat % s.curve.p) ((s.pt.get ps1).y.toNat % s.curve.p))) ∧
    ((s.pt.get ps1).inf = false → (s.pt.get ps2).inf = false →
      ((s.pt.get ps1).x.toNat % s.curve.p = (s.pt.get ps2).x.toNat % s.curve.p →
        ((s.pt.get ps1).y.toNat % s.curve.p ≠ (s.pt.get ps2).y.toNat % s.curve.p →
          exec (.padd pd ps1 ps2) s = .next (Spec.wrInf s pd)) ∧
        ((s.pt.get ps1).y.toNat % s.curve.p = (s.pt.get ps2).y.toNat % s.curve.p →
          ((s.pt.get ps1).y.toNat % s.curve.p = 0 → exec (.padd pd ps1 ps2) s = .next (Spec.wrInf s pd)) ∧
          ((s.pt.get ps1).y.toNat % s.curve.p ≠ 0 →
            ∃ x' y' : Nat, Spec.IsDouble s.curve (s.pt.get ps1).x.toNat (s.pt.get ps1).y.toNat x' y' ∧
              exec (.padd pd ps1 ps2) s = .next (Spec.wrPair s pd x' y')))) ∧
      ((s.pt.get ps1).x.toNat % s.curve.p ≠ (s.pt.get ps2).x.toNat % s.curve.p →
        ∃ x3 y3 : Nat, Spec.IsChordSum s.curve (s.pt.get ps1).x.toNat (s.pt.get ps1).y.toNat (s.pt.get ps2).x.toNat
            (s.pt.get ps2).y.toNat x3 y3 ∧
          exec (.padd pd ps1 ps2) s = .next (Spec.wrPair s pd x3 y3)))

/-- R119 with R115: `(x mod p, (p - y) mod p)`, `INF` for `INF`; nothing but `pt[pd]` and the report changes. -/
def Obligations.PnegResult : Prop :=
  ∀ (pd ps1 : PReg) (s : State), 0 < s.curve.p →
    ((s.pt.get ps1).inf = true → exec (.pneg pd ps1) s = .next (Spec.wrInf s pd)) ∧
    ((s.pt.get ps1).inf = false →
      exec (.pneg pd ps1) s = .next (Spec.wrPair s pd ((s.pt.get ps1).x.toNat % s.curve.p)
        ((s.curve.p - (s.pt.get ps1).y.toNat % s.curve.p) % s.curve.p)))

/-- R120: the `.inf` bit, whatever the coordinates are; nothing but the report changes. -/
def Obligations.PisinfResult : Prop :=
  ∀ (ps1 : PReg) (s : State),
    exec (.pisinf ps1) s = .next (Spec.success s ⟨(s.pt.get ps1).inf, false, false⟩)

/-- R121 with R112: infinity, or on the curve or not after reduction; nothing but the report changes. -/
def Obligations.PchkResult : Prop :=
  ∀ (ps1 : PReg) (s : State),
    ((s.pt.get ps1).inf = true → exec (.pchk ps1) s = .next (Spec.success s ⟨true, false, false⟩)) ∧
    ((s.pt.get ps1).inf = false → Spec.onCurve s.curve (s.pt.get ps1).x.toNat (s.pt.get ps1).y.toNat →
      exec (.pchk ps1) s = .next (Spec.success s ⟨false, true, false⟩)) ∧
    ((s.pt.get ps1).inf = false → ¬ Spec.onCurve s.curve (s.pt.get ps1).x.toNat (s.pt.get ps1).y.toNat →
      exec (.pchk ps1) s = .next (Spec.success s ⟨false, false, false⟩))

/-- R122: `pt[pd] <- (Gx, Gy)`; nothing but `pt[pd]` and the report changes. -/
def Obligations.PldgResult : Prop :=
  ∀ (pd : PReg) (s : State), exec (.pldg pd) s = .next (Spec.wrPair s pd s.curve.gx s.curve.gy)

/-- R132 with the loop of R130 as a fold over the bit positions 383 down to 0, all bits of `f[fs2]` used (R131); nothing but
`pt[pd]` and the report changes. -/
def Obligations.SmulResult : Prop :=
  ∀ (pd ps1 : PReg) (fs2 : FReg) (s : State) (q : Point), 0 < s.curve.p →
    q = (List.range 384).reverse.foldl (fun acc i =>
      if (s.f.get fs2).getLsbD i then ptAdd s.curve (ptDbl s.curve acc) (Spec.val (s.pt.get ps1))
      else ptDbl s.curve acc) Point.inf →
    (q = .inf → exec (.smul pd ps1 fs2) s = .next (Spec.wrInf s pd)) ∧
    (∀ x y : Nat, q = .aff x y → x < s.curve.p ∧ y < s.curve.p ∧ exec (.smul pd ps1 fs2) s = .next (Spec.wrPair s pd x y))

/-- R145 with R140: the 97 bytes and `LEN`, or `OperandInfinity` with nothing written; every register and every other field is
as before. -/
def Obligations.PencResult : Prop :=
  ∀ (ps1 : PReg) (s : State), s.buf.wf →
    ((s.pt.get ps1).inf = true → exec (.penc ps1) s = .next (Spec.report s 0x20#8)) ∧
    ((s.pt.get ps1).inf = false →
      ∃ m : Memory, m.wf ∧ exec (.penc ps1) s = .next (Spec.success { s with buf := m, len := 97#8 } ⟨false, false, false⟩) ∧
        Memory.read m 0 = 0x04#8 ∧
        (∀ i < 48, Memory.read m (1 + i) = BitVec.ofNat 8 ((s.pt.get ps1).x.toNat % s.curve.p / 256 ^ (47 - i))) ∧
        (∀ i < 48, Memory.read m (49 + i) = BitVec.ofNat 8 ((s.pt.get ps1).y.toNat % s.curve.p / 256 ^ (47 - i))) ∧
        ∀ k, 97 ≤ k → Memory.read m k = Memory.read s.buf k)

/-- R147 with R142: the 48 bytes of `x` and `LEN`, `BUF[48..96]` as before, or `OperandInfinity` with nothing written. -/
def Obligations.XencResult : Prop :=
  ∀ (ps1 : PReg) (s : State), s.buf.wf →
    ((s.pt.get ps1).inf = true → exec (.xenc ps1) s = .next (Spec.report s 0x20#8)) ∧
    ((s.pt.get ps1).inf = false →
      ∃ m : Memory, m.wf ∧ exec (.xenc ps1) s = .next (Spec.success { s with buf := m, len := 48#8 } ⟨false, false, false⟩) ∧
        (∀ i < 48, Memory.read m i = BitVec.ofNat 8 ((s.pt.get ps1).x.toNat % s.curve.p / 256 ^ (47 - i))) ∧
        ∀ k, 48 ≤ k → Memory.read m k = Memory.read s.buf k)

/-- R146 with R141 and R176: the first failing check's code and nothing written, or the pair in `pt[pd]`; `BUF` and `LEN` are
as before either way. -/
def Obligations.PdecResult : Prop :=
  ∀ (pd : PReg) (s : State),
    (s.len ≠ 97#8 → exec (.pdec pd) s = .next (Spec.report s 0x10#8)) ∧
    (s.len = 97#8 → Memory.read s.buf 0 ≠ 0x04#8 → exec (.pdec pd) s = .next (Spec.report s 0x11#8)) ∧
    (s.len = 97#8 → Memory.read s.buf 0 = 0x04#8 →
      (s.curve.p ≤ Spec.coordinate s.buf 1 ∨ s.curve.p ≤ Spec.coordinate s.buf 49) →
      exec (.pdec pd) s = .next (Spec.report s 0x12#8)) ∧
    (s.len = 97#8 → Memory.read s.buf 0 = 0x04#8 → Spec.coordinate s.buf 1 < s.curve.p →
      Spec.coordinate s.buf 49 < s.curve.p → ¬ Spec.onCurve s.curve (Spec.coordinate s.buf 1) (Spec.coordinate s.buf 49) →
      exec (.pdec pd) s = .next (Spec.report s 0x13#8)) ∧
    (Spec.decodable s →
      exec (.pdec pd) s = .next (Spec.wrPair s pd (Spec.coordinate s.buf 1) (Spec.coordinate s.buf 49)))

/-! ### What the commands may depend on -/

/-- R21: with one record, the field commands give one result for register contents that are congruent modulo `p`, and that result is
canonical. -/
def Obligations.CongruentOperandsGiveOneResult : Prop :=
  ∀ (s s' : State) (fd fs1 fs2 : FReg) (i : Instr), 0 < s.curve.p → s'.curve = s.curve →
    (s.f.get fs1).toNat % s.curve.p = (s'.f.get fs1).toNat % s.curve.p →
    (s.f.get fs2).toNat % s.curve.p = (s'.f.get fs2).toNat % s.curve.p →
    i ∈ [Instr.montmul fd fs1 fs2, .modmul fd fs1 fs2, .modinv fd fs1] →
    ∃ t t' : State, exec i s = .next t ∧ exec i s' = .next t' ∧ t.f.get fd = t'.f.get fd ∧ t.flags = t'.flags ∧
      (t.f.get fd).toNat < s.curve.p

/-- R111, for every record with a positive `p`: the point functions do not see the difference between a value and its
reduction, and their finite results are canonical. -/
def Obligations.PointFunctionsNormalise : Prop :=
  ∀ (c : CurveParameters), 0 < c.p → ∀ q r : Point,
    ptNorm c (ptNorm c q) = ptNorm c q ∧ onCurve c (ptNorm c q) = onCurve c q ∧
    ptDbl c (ptNorm c q) = ptDbl c q ∧ ptNeg c (ptNorm c q) = ptNeg c q ∧
    ptAdd c (ptNorm c q) (ptNorm c r) = ptAdd c q r ∧
    (ptNorm c q).Canonical c ∧ (ptDbl c q).Canonical c ∧ (ptNeg c q).Canonical c ∧ (ptAdd c q r).Canonical c

/-- "No command reads `.x` or `.y` of a register whose `.inf = 1`" (R23): with other coordinates under `.inf = 1` every
command does the same, and those coordinates are all that differs afterwards. -/
def Obligations.InfinityCoordinatesAreNotRead : Prop :=
  ∀ (i : Instr) (s : State) (j : PReg) (x y : Felt), (s.pt.get j).inf = true →
    ∃ t : State, exec i s = .next t ∧
      (exec i { s with pt := s.pt.set j.val ⟨x, y, true⟩ j.isLt } = .next t ∨
        (t.pt.get j = s.pt.get j ∧
          exec i { s with pt := s.pt.set j.val ⟨x, y, true⟩ j.isLt } =
            .next { t with pt := t.pt.set j.val ⟨x, y, true⟩ j.isLt }))

/-! ### The arithmetic -/

/-- R95, for every record: `finv` is the power; with `p` a prime above 2 it is the one inverse below `p` of every number not
divisible by `p`, and 0 for the others. -/
def Obligations.FinvIsTheInverse : Prop :=
  ∀ (c : CurveParameters) (v : Int),
    finv c v = (v % (c.p : Int)).toNat ^ (c.p - 2) % c.p ∧
    (Nat.Prime c.p → 2 < c.p →
      (v % (c.p : Int) = 0 → finv c v = 0 ∧ hasInv c v = false) ∧
      (v % (c.p : Int) ≠ 0 → hasInv c v = true ∧ 1 ≤ finv c v ∧ finv c v < c.p ∧
        v * (finv c v : Int) % (c.p : Int) = 1 ∧
        ∀ w : Nat, w < c.p → v * (w : Int) % (c.p : Int) = 1 → w = finv c v))

/-- The identities of spec/40_field.md section 1 a host relies on, for every record with an odd prime `p`. -/
def Obligations.MontgomeryIdentities : Prop :=
  ∀ c : CurveParameters, Nat.Prime c.p → c.p % 2 = 1 → ∀ x y : Int,
    montmul c x (2 ^ 384 * 2 ^ 384 % c.p) = mont c x ∧
    (montmul c (mont c x) 1 : Int) = x % c.p ∧
    montmul c (mont c x) (mont c y) = mont c (x * y) ∧
    (montmul c (mont c x) y : Int) = x * y % c.p ∧
    (montmul c (montmul c x y) (2 ^ 384 * 2 ^ 384 % c.p) : Int) = x * y % c.p ∧
    montmul c x 0 = 0 ∧ montmul c 1 1 = rinv c ∧
    montmul c (2 ^ 384 * 2 ^ 384 % c.p) 1 = 2 ^ 384 % c.p

/-- R96, for every record with an odd prime `p` below `2^384`: the Montgomery product of any integers, always canonical, and
that the reference algorithm `REDC_mul` and its word-serial form compute it. -/
def Obligations.RedcComputesMontmul : Prop :=
  ∀ c : CurveParameters, Nat.Prime c.p → c.p % 2 = 1 → c.p < 2 ^ 384 →
    2 ^ 384 * rinv c % c.p = 1 ∧
    (∀ u v : Int, (montmul c u v : Int) = (u % c.p) * (v % c.p) * rinv c % c.p ∧ montmul c u v < c.p) ∧
    (∀ u v : Nat, redcMul c u v = montmul c u v ∧ redcSerial c u v = montmul c u v)

/-- R9 and R10: the record of the reset state, its constant table and its derived constants are the numbers the spec
gives (log entry 6: the numbers of R9 are PRESUMED). -/
def Obligations.DerivedConstants : Prop :=
  State.reset.curve = ⟨Spec.p, Spec.a, Spec.b, Spec.n, Spec.gx, Spec.gy⟩ ∧
  Spec.constTable State.reset.curve =
    [Spec.p, Spec.a, Spec.b, Spec.n, Spec.gx, Spec.gy, Spec.r2, 1, Spec.rModP] ∧
  rModP Config.curve = Spec.rModP ∧ r2 Config.curve = Spec.r2 ∧ rinv Config.curve = Spec.rinv ∧
  pprime Config.curve = Spec.pprime ∧ n0 Config.curve = 1 ∧ pprime Config.curve % 2 ^ 64 = 0x100000001 ∧
  Spec.p * Spec.pprime % 2 ^ 384 = 2 ^ 384 - 1 ∧ 2 ^ 384 * Spec.rinv % Spec.p = 1

/-- Closure (spec/41_point.md section 1), for every record with an odd prime `p`: doubling, adding, negating and multiplying
points of the group gives points of the group. -/
def Obligations.GroupClosure : Prop :=
  ∀ c : CurveParameters, Nat.Prime c.p → c.p % 2 = 1 → ∀ q r : Point, q.InGroup c → r.InGroup c →
    (ptDbl c q).InGroup c ∧ (ptAdd c q r).InGroup c ∧ (ptNeg c q).InGroup c ∧ ∀ k : Nat, (smul c k q).InGroup c

/-- Small scalars and infinity (spec/42_scalar.md sections 1 and 2), for every record with a positive `p`. -/
def Obligations.SmulOnSmallScalars : Prop :=
  ∀ (c : CurveParameters), 0 < c.p → ∀ (k : Nat) (q : Point),
    smul c 0 q = .inf ∧ smul c 1 q = ptNorm c q ∧ smul c 2 q = ptDbl c q ∧ smul c k .inf = .inf

/-- The source's "ECDH symmetry" (spec/42_scalar.md section 2): on a curve without a singular point over an odd prime field,
two scalar multiplications of a point of the group commute. -/
def Obligations.EcdhSymmetry : Prop :=
  ∀ c : CurveParameters, Nat.Prime c.p → c.p % 2 = 1 → (4 * c.a ^ 3 + 27 * c.b ^ 2) % c.p ≠ 0 →
    ∀ q : Point, q.InGroup c → ∀ j k : Nat, j < 2 ^ 384 → k < 2 ^ 384 →
      smul c j (smul c k q) = smul c k (smul c j q)

/-- `n * G = INF` and `(n - 1) * G = -G` for the default record (spec/95_test_vectors.md Z5, S5, S6). -/
def Obligations.GeneratorTimesItsOrder : Prop :=
  smul Config.curve Spec.n (.aff Spec.gx Spec.gy) = .inf ∧
  smul Config.curve (Spec.n - 1) (.aff Spec.gx Spec.gy) = .aff Spec.gx (Spec.p - Spec.gy)

/-- R8: the default record meets every constraint, `n` being the order of `G` among them. (The numbers of R9 are the spec's
"from general knowledge": log entry 6, PRESUMED.) -/
def Obligations.EngineCurveIsValid : Prop := Config.curve.Valid

/-- The round trip of spec/43_codec.md section 1, both ways, for every record with `p` at most `2^384`. -/
def Obligations.CodecRoundTrip : Prop :=
  ∀ c : CurveParameters, c.p ≤ 2 ^ 384 →
    (∀ x y : Nat, x < c.p → y < c.p → onCurve c (.aff x y) = true →
      (encPoint x y).length = 97 ∧ decPoint c (encPoint x y) 97 = .pair x y) ∧
    (∀ (bs : List Byte) (len x y : Nat), bs.length = 97 → decPoint c bs len = .pair x y →
      len = 97 ∧ x < c.p ∧ y < c.p ∧ onCurve c (.aff x y) = true ∧ encPoint x y = bs)

/-! ### Host sequences (spec/44_host_sequences.md), wherever in their lines a pending command completes -/

/-- `TOMONT` and `FROMMONT` from an idle engine: the Montgomery form, and back. -/
def Obligations.MontgomeryConversionSequences : Prop :=
  ∀ (fd fs ft : FReg) (s : State) (turns : List Nat), Spec.fits s.curve → s.busy = false → ft ≠ fs →
    (∃ t : State, runLines (tomont fd fs ft) turns s = .next ⟨t, false, []⟩ ∧ t.busy = false ∧ t.err = false ∧
      (t.f.get fd).toNat = (s.f.get fs).toNat * 2 ^ 384 % s.curve.p ∧
      (ft ≠ fd → (t.f.get ft).toNat = 2 ^ 384 * 2 ^ 384 % s.curve.p) ∧
      (∀ i : FReg, i ≠ fd → i ≠ ft → t.f.get i = s.f.get i) ∧ t.pt = s.pt ∧ t.buf = s.buf ∧ t.len = s.len) ∧
    (∃ t : State, runLines (frommont fd fs ft) turns s = .next ⟨t, false, []⟩ ∧ t.busy = false ∧ t.err = false ∧
      (t.f.get fd).toNat < s.curve.p ∧
      (t.f.get fd).toNat * 2 ^ 384 % s.curve.p = (s.f.get fs).toNat % s.curve.p ∧
      (ft ≠ fd → (t.f.get ft).toNat = 1) ∧
      (∀ i : FReg, i ≠ fd → i ≠ ft → t.f.get i = s.f.get i) ∧ t.pt = s.pt ∧ t.buf = s.buf ∧ t.len = s.len)

/-- `PMOV` and `PUBKEY` from an idle engine: the canonical copy, and the public key `f[fk] * G`. -/
def Obligations.PointSequences : Prop :=
  ∀ (pd : PReg) (s : State) (turns : List Nat), Spec.fits s.curve → s.busy = false →
    (∀ ps : PReg, ∃ t : State, runLines (pmov pd ps) turns s = .next ⟨t, false, []⟩ ∧ t.busy = false ∧ t.err = false ∧
      Spec.val (t.pt.get pd) = ptNorm s.curve (Spec.val (s.pt.get ps)) ∧ t.flags.inf = (s.pt.get ps).inf ∧
      (∀ j : PReg, j ≠ pd → t.pt.get j = s.pt.get j) ∧ t.f = s.f ∧ t.buf = s.buf ∧ t.len = s.len) ∧
    (∀ fk : FReg, ∃ t : State, runLines (pubkey pd fk) turns s = .next ⟨t, false, []⟩ ∧ t.busy = false ∧ t.err = false ∧
      Spec.val (t.pt.get pd) = smul s.curve (s.f.get fk).toNat (.aff s.curve.gx s.curve.gy) ∧
      (t.flags.inf = true ↔ smul s.curve (s.f.get fk).toNat (.aff s.curve.gx s.curve.gy) = .inf) ∧
      (∀ j : PReg, j ≠ pd → t.pt.get j = s.pt.get j) ∧ t.f = s.f ∧ t.buf = s.buf ∧ t.len = s.len)

/-- `ECDHX pd, fk` from an idle engine: stopped by a bad encoding with nothing but the report changed, stopped by a product
that is infinity with no secret written, or the 48 bytes of the product's `x`. -/
def Obligations.EcdhSequence : Prop :=
  ∀ (pd : PReg) (fk : FReg) (s : State) (turns : List Nat), Spec.fits s.curve → s.busy = false → s.buf.wf →
    (¬ Spec.decodable s →
      ∃ t : State, runLines (ecdhx pd fk) turns s = .next ⟨t, true, []⟩ ∧ t.err = true ∧
        t.errcode ∈ [0x10#8, 0x11#8, 0x12#8, 0x13#8] ∧ SameData s t) ∧
    (Spec.decodable s → ∀ q : Point,
      q = smul s.curve (s.f.get fk).toNat (.aff (Spec.coordinate s.buf 1) (Spec.coordinate s.buf 49)) →
      (q = .inf → ∃ t : State, runLines (ecdhx pd fk) turns s = .next ⟨t, true, []⟩ ∧ t.err = false ∧
        t.flags.inf = true ∧ t.f = s.f ∧ t.buf = s.buf ∧ t.len = s.len) ∧
      (∀ x y : Nat, q = .aff x y → ∃ t : State, runLines (ecdhx pd fk) turns s = .next ⟨t, false, []⟩ ∧ t.err = false ∧
        t.len = 48#8 ∧ (∀ i < 48, Memory.read t.buf i = BitVec.ofNat 8 (x / 256 ^ (47 - i))) ∧
        (∀ k, 48 ≤ k → Memory.read t.buf k = Memory.read s.buf k) ∧ Spec.val (t.pt.get pd) = q ∧
        (∀ j : PReg, j ≠ pd → t.pt.get j = s.pt.get j) ∧ t.f = s.f))

/-- A scalar serialized as 48 big-endian bytes, loaded by the twelve writes of spec/44_host_sequences.md section 3, is the
register's value; and the twelve words read back are the register's 48 bytes, most significant first. -/
def Obligations.ScalarSequences : Prop :=
  (∀ (i : FReg) (bs : List Byte) (s : State) (turns : List Nat), s.busy = false → bs.length = 48 →
    ∃ t : State, runLines (loadScalar i bs) turns s = .next ⟨t, false, []⟩ ∧
      (t.f.get i).toNat = ∑ k ∈ Finset.range 48, (bs.getD k 0#8).toNat * 256 ^ (47 - k) ∧
      (∀ j : FReg, j ≠ i → t.f.get j = s.f.get j) ∧ t.pt = s.pt ∧ t.buf = s.buf ∧ t.len = s.len ∧ t.busy = false) ∧
  (∀ (i : FReg) (s : State) (turns : List Nat), s.busy = false →
    ∃ (t : State) (ws : List Word), runLines (storeScalar i) turns s = .next ⟨t, false, ws⟩ ∧
      (scalarBytes ws).length = 48 ∧
      (∀ k < 48, (scalarBytes ws).getD k 0#8 = BitVec.ofNat 8 ((s.f.get i).toNat / 256 ^ (47 - k))) ∧
      SameData s t ∧ t.busy = false)
end

