-- ==== Sys2Proof/Laws/Memory.lean ====
section
/-!
SUPPORT. The laws of `BUF`: reading after writing, the canonical form is kept, and it is canonical (equal reads, equal
lists).
-/

namespace Sys2Proof.Laws

open Sys2Proof.Machine

@[simp] theorem read_nil (a : Nat) : Memory.read [] a = Memory.unlisted := rfl

/-- The empty buffer of `State.reset` is canonical. -/
theorem nil_wf : Memory.wf [] := ⟨List.Pairwise.nil, fun _ h => absurd h List.not_mem_nil⟩

theorem wf_tail {e : Host.Cell} {m : Memory} (h : Memory.wf (e :: m)) : Memory.wf m :=
  ⟨(List.pairwise_cons.1 h.1).2, fun x hx => h.2 x (List.mem_cons_of_mem _ hx)⟩

theorem wf_head_lt {e x : Host.Cell} {m : Memory} (h : Memory.wf (e :: m)) (hx : x ∈ m) : e.1 < x.1 :=
  (List.pairwise_cons.1 h.1).1 x hx

/-- Below every listed index a canonical buffer reads as unlisted. -/
theorem read_below (m : Memory) {a : Nat} (h : ∀ e ∈ m, a < e.1) : Memory.read m a = Memory.unlisted := by
  induction m with
  | nil => rfl
  | cons e m ih =>
    have he := h e (List.mem_cons_self ..)
    have : e.1 ≠ a := by omega
    simp [Memory.read, this, ih fun x hx => h x (List.mem_cons_of_mem _ hx)]

/-- At and above 97 a canonical buffer reads as unlisted. -/
theorem read_above (m : Memory) (hw : Memory.wf m) {a : Nat} (h : Config.bufBytes ≤ a) :
    Memory.read m a = Memory.unlisted := by
  induction m with
  | nil => rfl
  | cons e m ih =>
    have he := (hw.2 e (List.mem_cons_self ..)).1
    have : e.1 ≠ a := by omega
    simp [Memory.read, this, ih (wf_tail hw)]

/-- Read after `put`. -/
theorem read_put (m : Memory) (hw : Memory.wf m) (a : Nat) (b : Byte) (k : Nat) :
    Memory.read (Memory.put m a b) k = if k = a then b else Memory.read m k := by
  induction m with
  | nil =>
    by_cases hb : b = Memory.unlisted
    · simp [Memory.put, hb]
    · by_cases hk : k = a
      · simp [Memory.put, hb, Memory.read, hk]
      · have : a ≠ k := fun e => hk e.symm
        simp [Memory.put, hb, Memory.read, hk, this]
  | cons e m ih =>
    obtain ⟨i, v⟩ := e
    have below : ∀ x ∈ m, i < x.1 := fun x hx => wf_head_lt hw hx
    have ih := ih (wf_tail hw)
    rcases Nat.lt_trichotomy a i with h | h | h
    · have ha : Memory.read ((i, v) :: m) a = Memory.unlisted := by
        apply read_below
        intro x hx
        rcases List.mem_cons.1 hx with rfl | hx
        · exact h
        · exact Nat.lt_trans h (below x hx)
      by_cases hb : b = Memory.unlisted
      · simp only [Memory.put, h, if_true, hb]
        split
        · next hk => rw [hk, ha]
        · rfl
      · simp only [Memory.put, h, if_true, hb, if_false]
        rw [Memory.read]
        by_cases hk : k = a
        · simp [hk]
        · have : a ≠ k := fun e => hk e.symm
          simp [hk, this]
    · subst h
      by_cases hb : b = Memory.unlisted
      · simp only [Memory.put, Nat.lt_irrefl, if_false, if_true, hb]
        by_cases hk : k = a
        · simp [hk, read_below m below]
        · have : a ≠ k := fun e => hk e.symm
          simp [hk, this, Memory.read]
      · simp only [Memory.put, Nat.lt_irrefl, if_false, if_true, hb]
        by_cases hk : k = a
        · simp [hk, Memory.read]
        · have : a ≠ k := fun e => hk e.symm
          simp [hk, this, Memory.read]
    · have h1 : ¬ a < i := by omega
      have h2 : a ≠ i := by omega
      simp only [Memory.put, h1, h2, if_false, Memory.read, ih]
      by_cases hk : i = k
      · have : k ≠ a := by omega
        simp [hk, this]
      · simp [hk]

theorem mem_put {m : Memory} {a : Nat} {b : Byte} {x : Host.Cell} (h : x ∈ Memory.put m a b) :
    x ∈ m ∨ (x = (a, b) ∧ b ≠ Memory.unlisted) := by
  induction m with
  | nil =>
    by_cases hb : b = Memory.unlisted
    · simp [Memory.put, hb] at h
    · simp only [Memory.put, hb, if_false, List.mem_singleton] at h
      exact .inr ⟨h, hb⟩
  | cons e m ih =>
    obtain ⟨i, v⟩ := e
    simp only [Memory.put] at h
    split at h
    · split at h
      · exact .inl h
      · next hb =>
        rcases List.mem_cons.1 h with h | h
        · exact .inr ⟨h, hb⟩
        · exact .inl h
    · split at h
      · split at h
        · exact .inl (List.mem_cons_of_mem _ h)
        · next hb =>
          rcases List.mem_cons.1 h with h | h
          · exact .inr ⟨h, hb⟩
          · exact .inl (List.mem_cons_of_mem _ h)
      · rcases List.mem_cons.1 h with h | h
        · exact .inl (h ▸ List.mem_cons_self ..)
        · rcases ih h with h | h
          · exact .inl (List.mem_cons_of_mem _ h)
          · exact .inr h

/-- `put` below 97 keeps the canonical form. -/
theorem wf_put (m : Memory) (hw : Memory.wf m) {a : Nat} (ha : a < Config.bufBytes) (b : Byte) :
    Memory.wf (Memory.put m a b) := by
  refine ⟨?_, fun x hx => ?_⟩
  · induction m with
    | nil => by_cases hb : b = Memory.unlisted <;> simp [Memory.put, hb]
    | cons e m ih =>
      obtain ⟨i, v⟩ := e
      have below : ∀ x ∈ m, i < x.1 := fun x hx => wf_head_lt hw hx
      simp only [Memory.put]
      split
      · next h =>
        split
        · exact hw.1
        · refine List.pairwise_cons.2 ⟨fun x hx => ?_, hw.1⟩
          rcases List.mem_cons.1 hx with rfl | hx
          · exact h
          · exact Nat.lt_trans h (below x hx)
      · split
        · next h =>
          split
          · exact (wf_tail hw).1
          · exact List.pairwise_cons.2 ⟨fun x hx => h ▸ below x hx, (wf_tail hw).1⟩
        · refine List.pairwise_cons.2 ⟨fun x hx => ?_, ih (wf_tail hw)⟩
          rcases mem_put hx with hx | ⟨rfl, -⟩
          · exact below x hx
          · show i < a
            omega
  · rcases mem_put hx with hx | ⟨rfl, hb⟩
    · exact hw.2 x hx
    · exact ⟨ha, hb⟩

/-- Read after a write: `BUF[a]` is the byte written, every other byte is as before; a write at or above 97 does
nothing. -/
theorem read_write (m : Memory) (hw : Memory.wf m) (a : Nat) (b : Byte) (k : Nat) :
    Memory.read (Memory.write m a b) k =
      if k = a ∧ a < Config.bufBytes then b else Memory.read m k := by
  by_cases ha : a < Config.bufBytes
  · simp [Memory.write, ha, read_put m hw]
  · simp [Memory.write, ha]

theorem wf_write (m : Memory) (hw : Memory.wf m) (a : Nat) (b : Byte) : Memory.wf (Memory.write m a b) := by
  by_cases ha : a < Config.bufBytes
  · simpa [Memory.write, ha] using wf_put m hw ha b
  · simpa [Memory.write, ha] using hw

theorem wf_writeBytes (bs : List Byte) (m : Memory) (hw : Memory.wf m) (a : Nat) :
    Memory.wf (Memory.writeBytes m a bs) := by
  induction bs generalizing m a with
  | nil => exact hw
  | cons b bs ih => exact ih _ (wf_write m hw a b) _

/-- Read after writing a string at `a`: byte `k` of the string is at `a + k`, everything else is as before. -/
theorem read_writeBytes (bs : List Byte) (m : Memory) (hw : Memory.wf m) (a k : Nat) :
    Memory.read (Memory.writeBytes m a bs) k =
      if a ≤ k ∧ k < a + bs.length ∧ k < Config.bufBytes then bs.getD (k - a) 0#8 else Memory.read m k := by
  induction bs generalizing m a with
  | nil =>
    have : ¬ (a ≤ k ∧ k < a + ([] : List Byte).length ∧ k < Config.bufBytes) := by
      simp only [List.length_nil]; omega
    rw [if_neg this, Memory.writeBytes]
  | cons b bs ih =>
    rw [Memory.writeBytes, ih _ (wf_write m hw a b), read_write m hw]
    by_cases h1 : a + 1 ≤ k ∧ k < a + 1 + bs.length ∧ k < Config.bufBytes
    · have h2 : a ≤ k ∧ k < a + (b :: bs).length ∧ k < Config.bufBytes := by
        simp only [List.length_cons]; omega
      obtain ⟨n, hn⟩ : ∃ n, k - a = n + 1 := ⟨k - a - 1, by omega⟩
      have hn' : k - (a + 1) = n := by omega
      rw [if_pos h1, if_pos h2, hn, hn', List.getD_cons_succ]
    · rw [if_neg h1]
      by_cases h3 : k = a ∧ a < Config.bufBytes
      · have h2 : a ≤ k ∧ k < a + (b :: bs).length ∧ k < Config.bufBytes := by
          simp only [List.length_cons]; omega
        rw [if_pos h3, if_pos h2, h3.1, Nat.sub_self, List.getD_cons_zero]
      · have h2 : ¬ (a ≤ k ∧ k < a + (b :: bs).length ∧ k < Config.bufBytes) := by
          simp only [List.length_cons]; omega
        rw [if_neg h3, if_neg h2]

/-- The form is canonical: two canonical buffers that read alike are the same list. -/
theorem eq_of_read {m n : Memory} (hm : Memory.wf m) (hn : Memory.wf n)
    (h : ∀ a, Memory.read m a = Memory.read n a) : m = n := by
  induction m generalizing n with
  | nil =>
    cases n with
    | nil => rfl
    | cons e n =>
      have := h e.1
      simp only [Memory.read, if_true] at this
      exact absurd this.symm (hn.2 e (List.mem_cons_self ..)).2
  | cons e m ih =>
    cases n with
    | nil =>
      have := h e.1
      simp only [Memory.read, if_true] at this
      exact absurd this (hm.2 e (List.mem_cons_self ..)).2
    | cons e' n =>
      obtain ⟨i, v⟩ := e
      obtain ⟨i', v'⟩ := e'
      have hv := (hm.2 _ (List.mem_cons_self ..)).2
      have hv' := (hn.2 _ (List.mem_cons_self ..)).2
      have bm : ∀ x ∈ m, i < x.1 := fun x hx => wf_head_lt hm hx
      have bn : ∀ x ∈ n, i' < x.1 := fun x hx => wf_head_lt hn hx
      have hii : i = i' := by
        rcases Nat.lt_trichotomy i i' with hlt | heq | hlt
        · have h1 := h i
          have h2 : Memory.read ((i', v') :: n) i = Memory.unlisted := by
            apply read_below
            intro x hx
            rcases List.mem_cons.1 hx with rfl | hx
            · exact hlt
            · exact Nat.lt_trans hlt (bn x hx)
          rw [h2] at h1
          simp only [Memory.read, if_true] at h1
          exact absurd h1 hv
        · exact heq
        · have h1 := h i'
          have h2 : Memory.read ((i, v) :: m) i' = Memory.unlisted := by
            apply read_below
            intro x hx
            rcases List.mem_cons.1 hx with rfl | hx
            · exact hlt
            · exact Nat.lt_trans hlt (bm x hx)
          rw [h2] at h1
          simp only [Memory.read, if_true] at h1
          exact absurd h1.symm hv'
      subst hii
      have hvv : v = v' := by simpa [Memory.read] using h i
      subst hvv
      congr 1
      apply ih (wf_tail hm) (wf_tail hn)
      intro a
      by_cases ha : i = a
      · subst ha
        rw [read_below m bm, read_below n bn]
      · simpa [Memory.read, ha] using h a

@[simp] theorem readBytes_length (m : Memory) (a n : Nat) : (Memory.readBytes m a n).length = n := by
  simp [Memory.readBytes]

@[simp] theorem readBytes_getElem (m : Memory) (a n i : Nat) (h : i < (Memory.readBytes m a n).length) :
    (Memory.readBytes m a n)[i] = Memory.read m (a + i) := by
  simp [Memory.readBytes]

end Sys2Proof.Laws
end

