-- ==== Sys2Proof/Laws/Codec.lean ====
section
/-!
SUPPORT. The laws of the byte strings: big-endian bytes and integers, the lengths and bytes of the encoder's strings.
-/

namespace Sys2Proof.Laws

open Sys2Proof.Machine

@[simp] theorem beBytes_length (v len : Nat) : (beBytes v len).length = len := by simp [beBytes]

/-- Byte `i` of `be_bytes(v, L)` (R15). -/
theorem beBytes_getD (v : Nat) {len i : Nat} (h : i < len) :
    (beBytes v len).getD i 0#8 = BitVec.ofNat 8 (v / 256 ^ (len - 1 - i)) := by
  simp [beBytes, List.getD_eq_getElem?_getD, h]

@[simp] theorem encPoint_length (x y : Nat) : (encPoint x y).length = 97 := by
  simp [encPoint, Config.fieldBytes]

@[simp] theorem encX_length (x : Nat) : (encX x).length = 48 := by simp [encX, Config.fieldBytes]

@[simp] theorem encPoint_tag (x y : Nat) : (encPoint x y).getD 0 0#8 = 0x04#8 := rfl

theorem encPoint_x (x y : Nat) {i : Nat} (h : i < 48) :
    (encPoint x y).getD (1 + i) 0#8 = BitVec.ofNat 8 (x / 256 ^ (47 - i)) := by
  rw [encPoint, Nat.add_comm, List.getD_cons_succ, List.getD_append _ _ _ _ (by simpa [Config.fieldBytes] using h)]
  exact beBytes_getD x h

theorem encPoint_y (x y : Nat) {i : Nat} (h : i < 48) :
    (encPoint x y).getD (49 + i) 0#8 = BitVec.ofNat 8 (y / 256 ^ (47 - i)) := by
  rw [encPoint, show 49 + i = 48 + i + 1 by omega, List.getD_cons_succ,
    List.getD_append_right _ _ _ _ (by simp [Config.fieldBytes])]
  simp only [beBytes_length, Config.fieldBytes, Nat.add_sub_cancel_left]
  exact beBytes_getD y h

theorem encX_getD (x : Nat) {i : Nat} (h : i < 48) :
    (encX x).getD i 0#8 = BitVec.ofNat 8 (x / 256 ^ (47 - i)) := beBytes_getD x h

theorem foldl_bytes (bs : List Byte) (acc : Nat) :
    bs.foldl (fun acc b => acc * 256 + b.toNat) acc = acc * 256 ^ bs.length + beInt bs := by
  induction bs generalizing acc with
  | nil => simp [beInt]
  | cons b bs ih =>
    have h : beInt (b :: bs) = (0 * 256 + b.toNat) * 256 ^ bs.length + beInt bs := ih _
    rw [List.foldl_cons, ih, h, List.length_cons, pow_succ]
    ring

/-- The first byte is the most significant (R15). -/
theorem beInt_cons (b : Byte) (bs : List Byte) : beInt (b :: bs) = b.toNat * 256 ^ bs.length + beInt bs := by
  rw [beInt, List.foldl_cons, foldl_bytes]
  simp

/-- `be_int(B)` is below `256^L` (R15). -/
theorem beInt_lt (bs : List Byte) : beInt bs < 256 ^ bs.length := by
  induction bs with
  | nil => simp [beInt]
  | cons b bs ih =>
    rw [beInt_cons, List.length_cons, pow_succ]
    have := b.isLt
    nlinarith

/-- `be_int(B)` is the sum of R15. -/
theorem beInt_sum (bs : List Byte) :
    beInt bs = ∑ i ∈ Finset.range bs.length, (bs.getD i 0#8).toNat * 256 ^ (bs.length - 1 - i) := by
  induction bs with
  | nil => simp [beInt]
  | cons b bs ih =>
    rw [beInt_cons, List.length_cons, Finset.sum_range_succ', ih, Nat.add_comm]
    congr 1
    apply Finset.sum_congr rfl
    intro i _
    rw [List.getD_cons_succ]
    congr 2
    omega

/-- The digits of a number below `256^L` give it back (R15). -/
theorem beInt_beBytes {v len : Nat} (h : v < 256 ^ len) : beInt (beBytes v len) = v := by
  induction len generalizing v with
  | zero =>
    have : v = 0 := by simpa using h
    simp [this, beBytes, beInt]
  | succ n ih =>
    have split : beBytes v (n + 1) = BitVec.ofNat 8 (v / 256 ^ n) :: beBytes (v % 256 ^ n) n := by
      simp only [beBytes, List.range_succ_eq_map, List.map_cons, List.map_map]
      congr 1
      apply List.map_congr_left
      intro i hi
      have hi : i < n := List.mem_range.1 hi
      simp only [Function.comp, Nat.succ_eq_add_one]
      apply BitVec.eq_of_toNat_eq
      simp only [BitVec.toNat_ofNat]
      have e : 256 ^ n = 256 ^ (n - 1 - i) * (256 * 256 ^ i) := by
        rw [← pow_succ', ← pow_add]; congr 1; omega
      have d : n + 1 - 1 - (i + 1) = n - 1 - i := by omega
      rw [d, e, Nat.mod_mul_right_div_self]
      exact (Nat.mod_mod_of_dvd _ (Dvd.intro _ rfl)).symm
    have hq : v / 256 ^ n < 256 := by
      rw [Nat.div_lt_iff_lt_mul (by positivity), ← pow_succ']; exact h
    rw [split, beInt_cons, ih (Nat.mod_lt _ (by positivity)), beBytes_length, BitVec.toNat_ofNat,
      Nat.mod_eq_of_lt (by simpa using hq), Nat.mul_comm]
    exact Nat.div_add_mod _ _

end Sys2Proof.Laws
end

