-- ==== Sys2Proof/Laws/Field.lean ====
section
/-!
SUPPORT. The laws of the field functions: what the evaluating forms of Sys2Proof/Machine/FieldMath.lean compute, and
the facts about the default record that later proofs need.
-/

namespace Sys2Proof.Laws

open Sys2Proof.Machine

/-! ### The constants -/

/-- The numeric facts about the default record and the radix, evaluated once. -/
theorem curve_facts :
    Config.radix = 2 ^ 384 ∧ Config.curve.p = 2 ^ 384 - 2 ^ 128 - 2 ^ 96 + 2 ^ 32 - 1 ∧ 1 < Config.curve.p ∧
      Config.curve.p < 2 ^ 384 ∧ Config.curve.p % 2 = 1 ∧
      ∀ w ∈ [Config.curve.p, Config.curve.a, Config.curve.b, Config.curve.n, Config.curve.gx, Config.curve.gy,
        r2 Config.curve, 1, rModP Config.curve], w < 2 ^ 384 := by
  decide +kernel

theorem radix_eq : Config.radix = 2 ^ 384 := curve_facts.1

theorem curve_p_eq : Config.curve.p = 2 ^ 384 - 2 ^ 128 - 2 ^ 96 + 2 ^ 32 - 1 := curve_facts.2.1

theorem curve_p_gt_one : 1 < Config.curve.p := curve_facts.2.2.1

theorem curve_p_pos : 0 < Config.curve.p := Nat.lt_of_succ_lt curve_p_gt_one

theorem curve_p_lt : Config.curve.p < 2 ^ 384 := curve_facts.2.2.2.1

theorem curve_p_odd : Config.curve.p % 2 = 1 := curve_facts.2.2.2.2.1

/-- Every constant of the default record is below `2^384`, so a field register holds it whole (R38, R100). -/
theorem constVal_lt {i v : Nat} (h : constVal Config.curve i = some v) : v < 2 ^ 384 :=
  curve_facts.2.2.2.2.2 v (List.mem_of_getElem? h)

/-- The table has a value exactly at 0 to 8 (R38, R73). -/
theorem constVal_isSome (c : CurveParameters) (i : Nat) : (constVal c i).isSome = decide (i ≤ 8) := by
  by_cases h : i ≤ 8
  · interval_cases i <;> rfl
  · simp only [constVal, h, decide_false]
    rw [List.getElem?_eq_none (by simp only [List.length_cons, List.length_nil]; omega)]
    rfl

/-! ### Residues -/

variable {c : CurveParameters}

/-- `fred` of a natural number is the remainder. -/
@[simp] theorem fred_natCast (v : Nat) : fred c (v : Int) = v % c.p := by
  simp only [fred, ← Int.natCast_mod, Int.toNat_natCast]

/-- Every residue is canonical (R91). -/
theorem fred_lt (hp : 0 < c.p) (v : Int) : fred c v < c.p := by
  have h := Int.emod_lt_of_pos v (show (0 : Int) < (c.p : Int) by omega)
  have h' := Int.emod_nonneg v (show (c.p : Int) ≠ 0 by omega)
  unfold fred
  omega

/-- `fred` as an integer is the remainder. -/
theorem fred_cast (hp : 0 < c.p) (v : Int) : (fred c v : Int) = v % (c.p : Int) :=
  Int.toNat_of_nonneg (Int.emod_nonneg v (by omega))

/-- Congruent arguments have one residue. -/
theorem fred_congr {u v : Int} (h : u ≡ v [ZMOD c.p]) : fred c u = fred c v := by
  unfold fred
  rw [h]

/-- `fred` keeps the residue class. -/
theorem fred_modEq (hp : 0 < c.p) (v : Int) : (fred c v : Int) ≡ v [ZMOD c.p] := by
  rw [fred_cast hp]
  exact Int.mod_modEq v c.p

/-- Equal residues are congruence. -/
theorem fred_eq_iff (hp : 0 < c.p) {u v : Int} : fred c u = fred c v ↔ u ≡ v [ZMOD c.p] := by
  refine ⟨fun h => ?_, fred_congr⟩
  have : (fred c u : Int) = (fred c v : Int) := by rw [h]
  rwa [fred_cast hp, fred_cast hp] at this

/-- In `ZMod p` a residue is the number itself. -/
theorem fred_zmod (hp : 0 < c.p) (v : Int) : ((fred c v : Nat) : ZMod c.p) = (v : ZMod c.p) := by
  have h := (ZMod.intCast_eq_intCast_iff _ _ c.p).2 (fred_modEq hp v)
  simpa using h

theorem fadd_zmod (hp : 0 < c.p) (u v : Int) : ((fadd c u v : Nat) : ZMod c.p) = u + v := by
  simp [fadd, fred_zmod hp]

theorem fsub_zmod (hp : 0 < c.p) (u v : Int) : ((fsub c u v : Nat) : ZMod c.p) = u - v := by
  simp [fsub, fred_zmod hp]

theorem fmul_zmod (hp : 0 < c.p) (u v : Int) : ((fmul c u v : Nat) : ZMod c.p) = u * v := by
  simp [fmul, fred_zmod hp]

/-! ### The power -/

theorem powLoop_eq (m b e : Nat) (n acc : Nat) (hacc : acc % m = acc) :
    powLoop m b e n acc = acc ^ 2 ^ n * b ^ (e % 2 ^ n) % m := by
  induction n generalizing acc with
  | zero => simp [powLoop, Nat.mod_one, hacc]
  | succ n ih =>
    have split : e % 2 ^ (n + 1) = 2 ^ n * (e.testBit n).toNat + e % 2 ^ n := by
      rw [Nat.mod_pow_succ, Nat.toNat_testBit, Nat.add_comm]
    rw [powLoop]
    cases hb : e.testBit n with
    | true =>
      rw [if_pos rfl, ih _ (Nat.mod_mod _ _), split, hb]
      have : acc * acc % m * b % m ≡ acc * acc * b [MOD m] :=
        (Nat.mod_modEq _ _).trans ((Nat.mod_modEq _ _).mul_right _)
      refine ((this.pow _).mul_right _).trans ?_
      rw [Nat.ModEq]
      congr 1
      simp only [Bool.toNat_true]
      ring
    | false =>
      rw [if_neg (by simp), ih _ (Nat.mod_mod _ _), split, hb]
      have : acc * acc % m ≡ acc * acc [MOD m] := Nat.mod_modEq _ _
      refine ((this.pow _).mul_right _).trans ?_
      rw [Nat.ModEq]
      congr 1
      simp only [Bool.toNat_false]
      ring

/-- `powMod` is the power (R95). -/
theorem powMod_eq (m b e : Nat) : powMod m b e = b ^ e % m := by
  rw [powMod, powLoop_eq _ _ _ _ _ (Nat.mod_mod _ _)]
  have hlt : e < 2 ^ (e.log2 + 1) := Nat.lt_log2_self
  rw [Nat.mod_eq_of_lt hlt]
  have : 1 % m ≡ 1 [MOD m] := Nat.mod_modEq _ _
  have h := ((this.pow (2 ^ (e.log2 + 1))).mul_right (b ^ e))
  simpa [Nat.ModEq] using h

theorem finv_lt (hp : 0 < c.p) (v : Int) : finv c v < c.p := by
  rw [finv, powMod_eq]
  exact Nat.mod_lt _ hp

theorem montmul_lt (hp : 0 < c.p) (u v : Int) : montmul c u v < c.p := fred_lt hp _

/-- The Montgomery product of register values, on natural numbers (R96). -/
theorem montmul_nat (u v : Nat) : montmul c u v = u * v * rinv c % c.p := by
  unfold montmul
  rw [fred_natCast, fred_natCast]
  have : fred c (((u % c.p : Nat) : Int) * ((v % c.p : Nat) : Int) * (rinv c : Int)) =
      fred c (((u % c.p * (v % c.p) * rinv c : Nat)) : Int) := by push_cast; rfl
  rw [this, fred_natCast]
  exact ((Nat.mod_modEq u c.p).mul (Nat.mod_modEq v c.p)).mul_right _

/-! ### `pprime` -/

/-- Each doubling of the precision squares the error of the inverse of `p`. -/
theorem invPow2_dvd (p m : Nat) (hm : 0 < m) (k : Nat) :
    (m : Int) ∣ (1 - (p : Int) * invPow2 p m k) - (1 - (p : Int)) ^ 2 ^ k := by
  induction k with
  | zero => simp [invPow2]
  | succ k ih =>
    obtain ⟨d, hd⟩ := ih
    simp only [invPow2]
    generalize invPow2 p m k = x at hd
    have hsub : p % m * x % m ≤ 2 * m + 2 := by have := Nat.mod_lt (p % m * x) hm; omega
    have hx : ((x * (2 * m + 2 - p % m * x % m) % m : Nat) : Int) ≡ (x : Int) * (2 - (p : Int) * x) [ZMOD m] := by
      push_cast [Nat.cast_sub hsub]
      refine (Int.mod_modEq _ _).trans (Int.ModEq.mul_left _ (Int.ModEq.sub ?_ ?_))
      · exact (Int.modEq_iff_dvd.2 ⟨-2, by ring⟩)
      · exact (Int.mod_modEq _ _).trans ((Int.mod_modEq _ _).mul_right _)
    obtain ⟨g, hg⟩ := hx.dvd
    rw [pow_succ, pow_mul]
    generalize ((1 : Int) - p) ^ 2 ^ k = b at hd
    refine ⟨p * g + d * (1 - (p : Int) * x + b), ?_⟩
    linear_combination (p : Int) * hg + (1 - (p : Int) * x + b) * hd

/-- The inverse of an odd `p` modulo `R`. -/
theorem p_mul_invPow2 {p : Nat} (hodd : p % 2 = 1) : p * invPow2 p Config.radix 9 % Config.radix = 1 := by
  rw [radix_eq]
  have h := invPow2_dvd p (2 ^ 384) (by positivity) 9
  have h2 : ((2 ^ 384 : Nat) : Int) ∣ (1 - (p : Int)) ^ 2 ^ 9 := by
    obtain ⟨q, hq⟩ : (2 : Int) ∣ 1 - p := by omega
    rw [hq, mul_pow]
    exact Dvd.dvd.mul_right (by exact_mod_cast Nat.pow_dvd_pow 2 (by norm_num)) _
  have h3 := (Int.modEq_iff_dvd (n := ((2 ^ 384 : Nat) : Int))).2 ((dvd_sub_left h2).1 h)
  have h4 : p * invPow2 p (2 ^ 384) 9 ≡ 1 [MOD 2 ^ 384] := by
    rw [← Int.natCast_modEq_iff]; exact_mod_cast h3
  exact Eq.trans h4 (Nat.mod_eq_of_lt (Nat.one_lt_two_pow (by norm_num)))

/-- `(p * pprime) mod R = R - 1` for every odd `p` (R10). -/
theorem p_mul_pprime (hodd : c.p % 2 = 1) : c.p * pprime c % Config.radix = Config.radix - 1 := by
  have hR : 1 < Config.radix := by rw [radix_eq]; exact Nat.one_lt_two_pow (by norm_num)
  have h := p_mul_invPow2 hodd
  have hlt : invPow2 c.p Config.radix 9 < Config.radix := Nat.mod_lt _ (by omega)
  have hpos : 0 < invPow2 c.p Config.radix 9 :=
    Nat.pos_of_ne_zero fun h0 => by simp [h0] at h
  have e : (Config.radix - invPow2 c.p Config.radix 9) % Config.radix = Config.radix - invPow2 c.p Config.radix 9 :=
    Nat.mod_eq_of_lt (by omega)
  rw [pprime, e]
  have hsum : c.p * (Config.radix - invPow2 c.p Config.radix 9) + c.p * invPow2 c.p Config.radix 9 =
      c.p * Config.radix := by rw [← Nat.mul_add, Nat.sub_add_cancel hlt.le]
  generalize c.p * (Config.radix - invPow2 c.p Config.radix 9) = a at *
  have hmod : (a + c.p * invPow2 c.p Config.radix 9) % Config.radix = 0 := by rw [hsum]; exact Nat.mul_mod_left _ _
  have := Nat.mod_lt a (show 0 < Config.radix by omega)
  rw [Nat.add_mod, h] at hmod
  by_contra hne
  rw [Nat.mod_eq_of_lt (by omega)] at hmod
  omega

end Sys2Proof.Laws
end

