-- ==== Sys2Proof/Laws/State.lean ====
section
/-!
SUPPORT. One lemma per field of State and per named update, true by rfl, so that no later proof unfolds a record
update.
-/

namespace Sys2Proof.Laws

open Sys2Proof.Machine

variable (s : State)

/-! ### `State.setF` -/

@[simp] theorem setF_f (i : FReg) (v : Felt) : (s.setF i v).f = s.f.set i.val v i.isLt := rfl
@[simp] theorem setF_pt (i : FReg) (v : Felt) : (s.setF i v).pt = s.pt := rfl
@[simp] theorem setF_buf (i : FReg) (v : Felt) : (s.setF i v).buf = s.buf := rfl
@[simp] theorem setF_len (i : FReg) (v : Felt) : (s.setF i v).len = s.len := rfl
@[simp] theorem setF_ie (i : FReg) (v : Felt) : (s.setF i v).ie = s.ie := rfl
@[simp] theorem setF_busy (i : FReg) (v : Felt) : (s.setF i v).busy = s.busy := rfl
@[simp] theorem setF_done (i : FReg) (v : Felt) : (s.setF i v).done = s.done := rfl
@[simp] theorem setF_err (i : FReg) (v : Felt) : (s.setF i v).err = s.err := rfl
@[simp] theorem setF_ovr (i : FReg) (v : Felt) : (s.setF i v).ovr = s.ovr := rfl
@[simp] theorem setF_errcode (i : FReg) (v : Felt) : (s.setF i v).errcode = s.errcode := rfl
@[simp] theorem setF_flags (i : FReg) (v : Felt) : (s.setF i v).flags = s.flags := rfl
@[simp] theorem setF_cur (i : FReg) (v : Felt) : (s.setF i v).cur = s.cur := rfl
@[simp] theorem setF_inputs (i : FReg) (v : Felt) : (s.setF i v).inputs = s.inputs := rfl
@[simp] theorem setF_curve (i : FReg) (v : Felt) : (s.setF i v).curve = s.curve := rfl
@[simp] theorem setF_rdata (i : FReg) (v : Felt) : (s.setF i v).rdata = s.rdata := rfl

/-! ### `State.setPt` -/

@[simp] theorem setPt_f (j : PReg) (v : PointReg) : (s.setPt j v).f = s.f := rfl
@[simp] theorem setPt_pt (j : PReg) (v : PointReg) : (s.setPt j v).pt = s.pt.set j.val v j.isLt := rfl
@[simp] theorem setPt_buf (j : PReg) (v : PointReg) : (s.setPt j v).buf = s.buf := rfl
@[simp] theorem setPt_len (j : PReg) (v : PointReg) : (s.setPt j v).len = s.len := rfl
@[simp] theorem setPt_ie (j : PReg) (v : PointReg) : (s.setPt j v).ie = s.ie := rfl
@[simp] theorem setPt_busy (j : PReg) (v : PointReg) : (s.setPt j v).busy = s.busy := rfl
@[simp] theorem setPt_done (j : PReg) (v : PointReg) : (s.setPt j v).done = s.done := rfl
@[simp] theorem setPt_err (j : PReg) (v : PointReg) : (s.setPt j v).err = s.err := rfl
@[simp] theorem setPt_ovr (j : PReg) (v : PointReg) : (s.setPt j v).ovr = s.ovr := rfl
@[simp] theorem setPt_errcode (j : PReg) (v : PointReg) : (s.setPt j v).errcode = s.errcode := rfl
@[simp] theorem setPt_flags (j : PReg) (v : PointReg) : (s.setPt j v).flags = s.flags := rfl
@[simp] theorem setPt_cur (j : PReg) (v : PointReg) : (s.setPt j v).cur = s.cur := rfl
@[simp] theorem setPt_inputs (j : PReg) (v : PointReg) : (s.setPt j v).inputs = s.inputs := rfl
@[simp] theorem setPt_curve (j : PReg) (v : PointReg) : (s.setPt j v).curve = s.curve := rfl
@[simp] theorem setPt_rdata (j : PReg) (v : PointReg) : (s.setPt j v).rdata = s.rdata := rfl

/-! ### `State.putString` -/

@[simp] theorem putString_f (bs : List Byte) (n : Byte) : (s.putString bs n).f = s.f := rfl
@[simp] theorem putString_pt (bs : List Byte) (n : Byte) : (s.putString bs n).pt = s.pt := rfl
@[simp] theorem putString_buf (bs : List Byte) (n : Byte) : (s.putString bs n).buf = Memory.writeBytes s.buf 0 bs := rfl
@[simp] theorem putString_len (bs : List Byte) (n : Byte) : (s.putString bs n).len = n := rfl
@[simp] theorem putString_ie (bs : List Byte) (n : Byte) : (s.putString bs n).ie = s.ie := rfl
@[simp] theorem putString_busy (bs : List Byte) (n : Byte) : (s.putString bs n).busy = s.busy := rfl
@[simp] theorem putString_done (bs : List Byte) (n : Byte) : (s.putString bs n).done = s.done := rfl
@[simp] theorem putString_err (bs : List Byte) (n : Byte) : (s.putString bs n).err = s.err := rfl
@[simp] theorem putString_ovr (bs : List Byte) (n : Byte) : (s.putString bs n).ovr = s.ovr := rfl
@[simp] theorem putString_errcode (bs : List Byte) (n : Byte) : (s.putString bs n).errcode = s.errcode := rfl
@[simp] theorem putString_flags (bs : List Byte) (n : Byte) : (s.putString bs n).flags = s.flags := rfl
@[simp] theorem putString_cur (bs : List Byte) (n : Byte) : (s.putString bs n).cur = s.cur := rfl
@[simp] theorem putString_inputs (bs : List Byte) (n : Byte) : (s.putString bs n).inputs = s.inputs := rfl
@[simp] theorem putString_curve (bs : List Byte) (n : Byte) : (s.putString bs n).curve = s.curve := rfl
@[simp] theorem putString_rdata (bs : List Byte) (n : Byte) : (s.putString bs n).rdata = s.rdata := rfl

/-! ### `State.accept` -/

@[simp] theorem accept_f (w : Word) : (s.accept w).f = s.f := rfl
@[simp] theorem accept_pt (w : Word) : (s.accept w).pt = s.pt := rfl
@[simp] theorem accept_buf (w : Word) : (s.accept w).buf = s.buf := rfl
@[simp] theorem accept_len (w : Word) : (s.accept w).len = s.len := rfl
@[simp] theorem accept_ie (w : Word) : (s.accept w).ie = s.ie := rfl
@[simp] theorem accept_busy (w : Word) : (s.accept w).busy = true := rfl
@[simp] theorem accept_done (w : Word) : (s.accept w).done = false := rfl
@[simp] theorem accept_err (w : Word) : (s.accept w).err = false := rfl
@[simp] theorem accept_ovr (w : Word) : (s.accept w).ovr = s.ovr := rfl
@[simp] theorem accept_errcode (w : Word) : (s.accept w).errcode = 0x00#8 := rfl
@[simp] theorem accept_flags (w : Word) : (s.accept w).flags = Flags.none := rfl
@[simp] theorem accept_cur (w : Word) : (s.accept w).cur = w := rfl
@[simp] theorem accept_inputs (w : Word) : (s.accept w).inputs = s.inputs := rfl
@[simp] theorem accept_curve (w : Word) : (s.accept w).curve = s.curve := rfl
@[simp] theorem accept_rdata (w : Word) : (s.accept w).rdata = s.rdata := rfl

/-! ### `State.raise` -/

@[simp] theorem raise_f (e : ErrorKind) : (s.raise e).f = s.f := rfl
@[simp] theorem raise_pt (e : ErrorKind) : (s.raise e).pt = s.pt := rfl
@[simp] theorem raise_buf (e : ErrorKind) : (s.raise e).buf = s.buf := rfl
@[simp] theorem raise_len (e : ErrorKind) : (s.raise e).len = s.len := rfl
@[simp] theorem raise_ie (e : ErrorKind) : (s.raise e).ie = s.ie := rfl
@[simp] theorem raise_busy (e : ErrorKind) : (s.raise e).busy = false := rfl
@[simp] theorem raise_done (e : ErrorKind) : (s.raise e).done = true := rfl
@[simp] theorem raise_err (e : ErrorKind) : (s.raise e).err = true := rfl
@[simp] theorem raise_ovr (e : ErrorKind) : (s.raise e).ovr = s.ovr := rfl
@[simp] theorem raise_errcode (e : ErrorKind) : (s.raise e).errcode = e.code := rfl
@[simp] theorem raise_flags (e : ErrorKind) : (s.raise e).flags = Flags.none := rfl
@[simp] theorem raise_cur (e : ErrorKind) : (s.raise e).cur = s.cur := rfl
@[simp] theorem raise_inputs (e : ErrorKind) : (s.raise e).inputs = s.inputs := rfl
@[simp] theorem raise_curve (e : ErrorKind) : (s.raise e).curve = s.curve := rfl
@[simp] theorem raise_rdata (e : ErrorKind) : (s.raise e).rdata = s.rdata := rfl

/-! ### `State.succeed` -/

@[simp] theorem succeed_f (fl : Flags) : (s.succeed fl).f = s.f := rfl
@[simp] theorem succeed_pt (fl : Flags) : (s.succeed fl).pt = s.pt := rfl
@[simp] theorem succeed_buf (fl : Flags) : (s.succeed fl).buf = s.buf := rfl
@[simp] theorem succeed_len (fl : Flags) : (s.succeed fl).len = s.len := rfl
@[simp] theorem succeed_ie (fl : Flags) : (s.succeed fl).ie = s.ie := rfl
@[simp] theorem succeed_busy (fl : Flags) : (s.succeed fl).busy = false := rfl
@[simp] theorem succeed_done (fl : Flags) : (s.succeed fl).done = true := rfl
@[simp] theorem succeed_err (fl : Flags) : (s.succeed fl).err = false := rfl
@[simp] theorem succeed_ovr (fl : Flags) : (s.succeed fl).ovr = s.ovr := rfl
@[simp] theorem succeed_errcode (fl : Flags) : (s.succeed fl).errcode = 0x00#8 := rfl
@[simp] theorem succeed_flags (fl : Flags) : (s.succeed fl).flags = fl := rfl
@[simp] theorem succeed_cur (fl : Flags) : (s.succeed fl).cur = s.cur := rfl
@[simp] theorem succeed_inputs (fl : Flags) : (s.succeed fl).inputs = s.inputs := rfl
@[simp] theorem succeed_curve (fl : Flags) : (s.succeed fl).curve = s.curve := rfl
@[simp] theorem succeed_rdata (fl : Flags) : (s.succeed fl).rdata = s.rdata := rfl

/-! ### `State.writeStatus` -/

@[simp] theorem writeStatus_f (v : Word) : (s.writeStatus v).f = s.f := rfl
@[simp] theorem writeStatus_pt (v : Word) : (s.writeStatus v).pt = s.pt := rfl
@[simp] theorem writeStatus_buf (v : Word) : (s.writeStatus v).buf = s.buf := rfl
@[simp] theorem writeStatus_len (v : Word) : (s.writeStatus v).len = s.len := rfl
@[simp] theorem writeStatus_ie (v : Word) : (s.writeStatus v).ie = s.ie := rfl
@[simp] theorem writeStatus_busy (v : Word) : (s.writeStatus v).busy = s.busy := rfl
@[simp] theorem writeStatus_done (v : Word) : (s.writeStatus v).done = (s.done && !v.getLsbD 1) := rfl
@[simp] theorem writeStatus_err (v : Word) : (s.writeStatus v).err = s.err := rfl
@[simp] theorem writeStatus_ovr (v : Word) : (s.writeStatus v).ovr = (s.ovr && !v.getLsbD 3) := rfl
@[simp] theorem writeStatus_errcode (v : Word) : (s.writeStatus v).errcode = s.errcode := rfl
@[simp] theorem writeStatus_flags (v : Word) : (s.writeStatus v).flags = s.flags := rfl
@[simp] theorem writeStatus_cur (v : Word) : (s.writeStatus v).cur = s.cur := rfl
@[simp] theorem writeStatus_inputs (v : Word) : (s.writeStatus v).inputs = s.inputs := rfl
@[simp] theorem writeStatus_curve (v : Word) : (s.writeStatus v).curve = s.curve := rfl
@[simp] theorem writeStatus_rdata (v : Word) : (s.writeStatus v).rdata = s.rdata := rfl

/-! ### `State.resetWith` -/

@[simp] theorem resetWith_f (c : CurveParameters) : (State.resetWith c).f = State.reset.f := rfl
@[simp] theorem resetWith_pt (c : CurveParameters) : (State.resetWith c).pt = State.reset.pt := rfl
@[simp] theorem resetWith_buf (c : CurveParameters) : (State.resetWith c).buf = State.reset.buf := rfl
@[simp] theorem resetWith_len (c : CurveParameters) : (State.resetWith c).len = State.reset.len := rfl
@[simp] theorem resetWith_ie (c : CurveParameters) : (State.resetWith c).ie = State.reset.ie := rfl
@[simp] theorem resetWith_busy (c : CurveParameters) : (State.resetWith c).busy = State.reset.busy := rfl
@[simp] theorem resetWith_done (c : CurveParameters) : (State.resetWith c).done = State.reset.done := rfl
@[simp] theorem resetWith_err (c : CurveParameters) : (State.resetWith c).err = State.reset.err := rfl
@[simp] theorem resetWith_ovr (c : CurveParameters) : (State.resetWith c).ovr = State.reset.ovr := rfl
@[simp] theorem resetWith_errcode (c : CurveParameters) : (State.resetWith c).errcode = State.reset.errcode := rfl
@[simp] theorem resetWith_flags (c : CurveParameters) : (State.resetWith c).flags = State.reset.flags := rfl
@[simp] theorem resetWith_cur (c : CurveParameters) : (State.resetWith c).cur = State.reset.cur := rfl
@[simp] theorem resetWith_curve (c : CurveParameters) : (State.resetWith c).curve = c := rfl
@[simp] theorem resetWith_inputs (c : CurveParameters) : (State.resetWith c).inputs = State.reset.inputs := rfl
@[simp] theorem resetWith_rdata (c : CurveParameters) : (State.resetWith c).rdata = State.reset.rdata := rfl

/-! ### `State.resetEngine` -/

@[simp] theorem resetEngine_f : (s.resetEngine).f = State.reset.f := rfl
@[simp] theorem resetEngine_pt : (s.resetEngine).pt = State.reset.pt := rfl
@[simp] theorem resetEngine_buf : (s.resetEngine).buf = State.reset.buf := rfl
@[simp] theorem resetEngine_len : (s.resetEngine).len = State.reset.len := rfl
@[simp] theorem resetEngine_ie : (s.resetEngine).ie = State.reset.ie := rfl
@[simp] theorem resetEngine_busy : (s.resetEngine).busy = State.reset.busy := rfl
@[simp] theorem resetEngine_done : (s.resetEngine).done = State.reset.done := rfl
@[simp] theorem resetEngine_err : (s.resetEngine).err = State.reset.err := rfl
@[simp] theorem resetEngine_ovr : (s.resetEngine).ovr = State.reset.ovr := rfl
@[simp] theorem resetEngine_errcode : (s.resetEngine).errcode = State.reset.errcode := rfl
@[simp] theorem resetEngine_flags : (s.resetEngine).flags = State.reset.flags := rfl
@[simp] theorem resetEngine_cur : (s.resetEngine).cur = State.reset.cur := rfl
@[simp] theorem resetEngine_inputs : (s.resetEngine).inputs = s.inputs := rfl
@[simp] theorem resetEngine_curve : (s.resetEngine).curve = s.curve := rfl
@[simp] theorem resetEngine_rdata : (s.resetEngine).rdata = s.rdata := rfl

/-! ### `State.pending` -/

@[simp] theorem pending_f (w : Word) : (s.pending w).f = s.f := rfl
@[simp] theorem pending_pt (w : Word) : (s.pending w).pt = s.pt := rfl
@[simp] theorem pending_buf (w : Word) : (s.pending w).buf = s.buf := rfl
@[simp] theorem pending_len (w : Word) : (s.pending w).len = s.len := rfl
@[simp] theorem pending_ie (w : Word) : (s.pending w).ie = s.ie := rfl
@[simp] theorem pending_busy (w : Word) : (s.pending w).busy = true := rfl
@[simp] theorem pending_done (w : Word) : (s.pending w).done = false := rfl
@[simp] theorem pending_err (w : Word) : (s.pending w).err = false := rfl
@[simp] theorem pending_ovr (w : Word) : (s.pending w).ovr = s.ovr := rfl
@[simp] theorem pending_errcode (w : Word) : (s.pending w).errcode = 0x00#8 := rfl
@[simp] theorem pending_flags (w : Word) : (s.pending w).flags = Flags.none := rfl
@[simp] theorem pending_cur (w : Word) : (s.pending w).cur = w := rfl
@[simp] theorem pending_inputs (w : Word) : (s.pending w).inputs = engineNext s.inputs := rfl
@[simp] theorem pending_curve (w : Word) : (s.pending w).curve = s.curve := rfl
@[simp] theorem pending_rdata (w : Word) : (s.pending w).rdata = s.rdata := rfl

/-! ### The operand updates are the register updates -/

theorem writeField_eq (i : FReg) (v : Nat) : s.writeField i v = s.setF i (BitVec.ofNat 384 v) := rfl

theorem writePoint_eq (j : PReg) (q : Point) : s.writePoint j q = s.setPt j q.toReg := rfl

/-! ### Reading a register after a register write -/

@[simp] theorem getF_setF_self (i : FReg) (v : Felt) : (s.setF i v).getF i = v := by
  simp [State.getF, State.setF, Vector.get_eq_getElem]

theorem getF_setF_ne {i k : FReg} (v : Felt) (h : k ≠ i) : (s.setF i v).getF k = s.getF k := by
  have : i.val ≠ k.val := fun e => h (Fin.ext e.symm)
  simp [State.getF, State.setF, Vector.get_eq_getElem, this]

@[simp] theorem getPt_setPt_self (j : PReg) (v : PointReg) : (s.setPt j v).getPt j = v := by
  simp [State.getPt, State.setPt, Vector.get_eq_getElem]

theorem getPt_setPt_ne {j k : PReg} (v : PointReg) (h : k ≠ j) : (s.setPt j v).getPt k = s.getPt k := by
  have : j.val ≠ k.val := fun e => h (Fin.ext e.symm)
  simp [State.getPt, State.setPt, Vector.get_eq_getElem, this]

@[simp] theorem getF_setPt (j : PReg) (v : PointReg) (i : FReg) : (s.setPt j v).getF i = s.getF i := rfl

@[simp] theorem getPt_setF (i : FReg) (v : Felt) (j : PReg) : (s.setF i v).getPt j = s.getPt j := rfl

/-- Two field register files with equal registers are equal. -/
theorem f_ext {a b : Vector Felt 8} (h : ∀ i : FReg, a.get i = b.get i) : a = b := by
  ext i hi : 1
  simpa [Vector.get_eq_getElem] using h ⟨i, hi⟩

/-- Two point register files with equal registers are equal. -/
theorem pt_ext {a b : Vector PointReg 4} (h : ∀ j : PReg, a.get j = b.get j) : a = b := by
  ext i hi : 1
  simpa [Vector.get_eq_getElem] using h ⟨i, hi⟩

/-- A point register read as a value, by its `.inf` bit (R111). -/
theorem readPoint_of_inf {j : PReg} (h : (s.getPt j).inf = true) : s.readPoint j = .inf := by
  simp [State.readPoint, h]

theorem readPoint_of_finite {j : PReg} (h : (s.getPt j).inf = false) :
    s.readPoint j = .aff (s.getPt j).x.toNat (s.getPt j).y.toNat := by
  simp [State.readPoint, h]

/-- The detector on a register value is the `.inf` bit (R110). -/
@[simp] theorem readPoint_isInf (j : PReg) : (s.readPoint j).isInf = (s.getPt j).inf := by
  cases h : (s.getPt j).inf <;> simp [State.readPoint, Point.isInf, h]

end Sys2Proof.Laws
end

