-- ==== Sys2Proof/Laws/Engine.lean ====
section
/-!
SUPPORT. Once for each shared operation, everything it can do: the ends of the commands, a host write, one event, one step.
-/

namespace Sys2Proof.Laws

open Sys2Proof.Machine

/-! ### The ends of the commands -/

/-- A command that writes a point answers the state with the point stored and its `INF` flag (R116, R172). -/
theorem finishPoint_eq (pd : PReg) (q : Point) (s : State) :
    finishPoint pd q s = .next ((s.setPt pd q.toReg).succeed ⟨q.isInf, false, false⟩) := rfl

/-- Everything the end of a command can be, without an error: a field register, a point register, a string, or no data
at all is written; or the error report, in which none is. -/
inductive Ending (s : State) : State → Prop where
  | field (fd : FReg) (v : Nat) (fl : Flags) : Ending s ((s.setF fd (BitVec.ofNat 384 v)).succeed fl)
  | point (pd : PReg) (q : Point) (fl : Flags) : Ending s ((s.setPt pd q.toReg).succeed fl)
  | string (bs : List Byte) (n : Byte) (fl : Flags) : Ending s ((s.putString bs n).succeed fl)
  | flagsOnly (fl : Flags) : Ending s (s.succeed fl)
  | report (e : ErrorKind) : Ending s (s.raise e)

/-- Where `exec` answers a next state, it is one of the endings. -/
theorem exec_ending {i : Instr} {s t : State} (h : exec i s = .next t) : Ending s t := by
  cases i with
  | montmul fd fs1 fs2 => cases h; exact .field ..
  | modmul fd fs1 fs2 => cases h; exact .field ..
  | modinv fd fs1 => cases h; exact .field ..
  | fldc fd c =>
    simp only [exec, execFldc] at h
    split at h
    · cases h; exact .field ..
    · cases h; exact .report ..
  | pdbl pd ps1 => cases h; exact .point ..
  | padd pd ps1 ps2 => cases h; exact .point ..
  | pneg pd ps1 => cases h; exact .point ..
  | pisinf ps1 => cases h; exact .flagsOnly ..
  | pchk ps1 => cases h; exact .flagsOnly ..
  | pldg pd => cases h; exact .point ..
  | smul pd ps1 fs2 => cases h; exact .point ..
  | penc ps1 =>
    simp only [exec, execPenc] at h
    split at h
    · cases h; exact .report ..
    · cases h; exact .string ..
  | pdec pd =>
    simp only [exec, execPdec] at h
    split at h
    · cases h; exact .report ..
    · cases h; exact .point ..
  | xenc ps1 =>
    simp only [exec, execXenc] at h
    split at h
    · cases h; exact .report ..
    · cases h; exact .string ..

/-- Every command answers a next state, on every state (R171, R178). -/
theorem exec_answers (i : Instr) (s : State) : ∃ t, exec i s = .next t := by
  cases i with
  | montmul fd fs1 fs2 => exact ⟨_, rfl⟩
  | modmul fd fs1 fs2 => exact ⟨_, rfl⟩
  | modinv fd fs1 => exact ⟨_, rfl⟩
  | fldc fd c => simp only [exec, execFldc]; split <;> exact ⟨_, rfl⟩
  | pdbl pd ps1 => exact ⟨_, rfl⟩
  | padd pd ps1 ps2 => exact ⟨_, rfl⟩
  | pneg pd ps1 => exact ⟨_, rfl⟩
  | pisinf ps1 => exact ⟨_, rfl⟩
  | pchk ps1 => exact ⟨_, rfl⟩
  | pldg pd => exact ⟨_, rfl⟩
  | smul pd ps1 fs2 => exact ⟨_, rfl⟩
  | penc ps1 => simp only [exec, execPenc]; split <;> exact ⟨_, rfl⟩
  | pdec pd => simp only [exec, execPdec]; split <;> exact ⟨_, rfl⟩
  | xenc ps1 => simp only [exec, execXenc]; split <;> exact ⟨_, rfl⟩

/-- An ending is idle and done, and leaves the control state and the outside world alone. -/
theorem ending_control {s t : State} (h : Ending s t) : t.busy = false ∧ t.done = true ∧ SameControl s t := by
  cases h <;> exact ⟨rfl, rfl, rfl, rfl, rfl, rfl, rfl, rfl⟩

/-! ### One event -/

/-- A host write that is dropped (R61). -/
theorem hostWrite_dropped {s : State} {w : WordAddr} (hb : s.busy = true) (hw : writableWhileBusy w = false)
    (v : Word) : s.hostWrite w v = { s with ovr := true } := by
  simp [State.hostWrite, hb, hw]

/-- A host write while no command is pending (R56). -/
theorem hostWrite_idle {s : State} (hb : s.busy = false) (w : WordAddr) (v : Word) :
    s.hostWrite w v = s.poke v (locate w) := by
  simp [State.hostWrite, hb]

/-- A host write to `CTRL` or `STATUS` (R61). -/
theorem hostWrite_control {w : WordAddr} (hw : writableWhileBusy w = true) (s : State) (v : Word) :
    s.hostWrite w v = s.poke v (locate w) := by
  simp [State.hostWrite, hw]

/-- While a command is pending a host write can do three things: set `OVR`, write `CTRL`, write `STATUS` (R61). -/
theorem hostWrite_busy {s : State} (hb : s.busy = true) (w : WordAddr) (v : Word) :
    s.hostWrite w v = { s with ovr := true } ∨ s.hostWrite w v = { s with ie := v.getLsbD 0 } ∨
      s.hostWrite w v = s.writeStatus v := by
  cases hw : writableWhileBusy w with
  | false => exact .inl (hostWrite_dropped hb hw v)
  | true =>
    rw [hostWrite_control hw]
    simp only [writableWhileBusy, Bool.or_eq_true, beq_iff_eq] at hw
    rcases hw with hw | hw
    · exact .inr (.inl (by simp [locate, hw, State.poke]))
    · exact .inr (.inr (by simp [locate, hw, State.poke]))

/-- Every event is handled, and the rest of the schedule stays (R64). -/
theorem handle_answers (e : Event) (s : State) : ∃ t, handle e s = .next t ∧ t.inputs = s.inputs := by
  cases e with
  | read w => exact ⟨_, rfl, rfl⟩
  | write w v =>
    refine ⟨_, rfl, ?_⟩
    rw [State.hostWrite]
    split
    · rfl
    · cases locate w <;> rfl
  | engine =>
    simp only [handle, engineTurn]
    split
    · simp only [complete]
      split
      · obtain ⟨t, ht⟩ := exec_answers ‹_› s
        exact ⟨t, ht, (ending_control (exec_ending ht)).2.2.inputs⟩
      · exact ⟨_, rfl, rfl⟩
    · exact ⟨_, rfl, rfl⟩
  | reset => exact ⟨_, rfl, rfl⟩

/-- One step is the next event of the schedule, or the engine's turn when the schedule is empty. -/
theorem step_empty {s : State} (h : s.inputs = []) : step s = engineTurn s := by
  simp [step, nextTurn, h]

theorem step_event {s : State} {e : Event} {es : List Event} (h : s.inputs = e :: es) :
    step s = handle e { s with inputs := es } := by
  simp [step, nextTurn, h]

/-- A host read: the word is returned and nothing else happens (R62, R69). -/
theorem step_read {s : State} {w : WordAddr} {es : List Event} (h : s.inputs = .read w :: es) :
    step s = .next { s with inputs := es, rdata := some (s.hostRead w) } := by
  rw [step_event h]; rfl

/-- A host write (R61). -/
theorem step_write {s : State} {w : WordAddr} {v : Word} {es : List Event} (h : s.inputs = .write w v :: es) :
    step s = .next ({ s with inputs := es }.hostWrite w v) := by
  rw [step_event h]; rfl

/-- The engine's turn, from an empty schedule or from the schedule. -/
theorem step_turn {s : State} (h : s.inputs = [] ∨ s.inputs.head? = some .engine) :
    step s = engineTurn { s with inputs := s.inputs.tail } := by
  cases hi : s.inputs with
  | nil => rw [step_empty hi]; cases s; cases hi; rfl
  | cons e es =>
    rw [hi] at h
    obtain rfl : e = .engine := by simpa using h
    rw [step_event hi]; rfl

theorem engineTurn_idle {s : State} (h : s.busy = false) : engineTurn s = .next s := by
  simp [engineTurn, h]

theorem engineTurn_busy {s : State} (h : s.busy = true) : engineTurn s = complete s := by
  simp [engineTurn, h]

/-- Where the engine's turn answers a next state, nothing was pending and nothing changed, or the pending command
ended. -/
theorem engineTurn_cases {s t : State} (h : engineTurn s = .next t) :
    (s.busy = false ∧ t = s) ∨ (s.busy = true ∧ Ending s t) := by
  cases hb : s.busy with
  | false =>
    rw [engineTurn_idle hb] at h
    cases h
    exact .inl ⟨rfl, rfl⟩
  | true =>
    rw [engineTurn_busy hb, complete] at h
    split at h
    · exact .inr ⟨rfl, exec_ending h⟩
    · cases h
      exact .inr ⟨rfl, .report _⟩

/-- Everything one step can do. -/
theorem step_cases {s t : State} (h : step s = .next t) :
    (∃ es, es = s.inputs.tail ∧ (s.inputs = [] ∨ s.inputs.head? = some .engine) ∧
      engineTurn { s with inputs := es } = .next t) ∨
    (∃ w es, s.inputs = .read w :: es ∧ t = { s with inputs := es, rdata := some (s.hostRead w) }) ∨
    (∃ w v es, s.inputs = .write w v :: es ∧ t = { s with inputs := es }.hostWrite w v) ∨
    (∃ es, s.inputs = .reset :: es ∧ t = { s with inputs := es }.resetEngine) := by
  cases hi : s.inputs with
  | nil =>
    rw [step_empty hi] at h
    refine .inl ⟨[], rfl, .inl rfl, ?_⟩
    rwa [← hi]
  | cons e es =>
    rw [step_event hi] at h
    cases e with
    | read w =>
      cases h
      exact .inr (.inl ⟨w, es, rfl, rfl⟩)
    | write w v =>
      cases h
      exact .inr (.inr (.inl ⟨w, v, es, rfl, rfl⟩))
    | engine => exact .inl ⟨es, rfl, .inr rfl, h⟩
    | reset =>
      cases h
      exact .inr (.inr (.inr ⟨es, rfl, rfl⟩))

end Sys2Proof.Laws
end

