-- ==== Sys2Proof/Laws/HostProgram.lean ====
section
/-!
SUPPORT. What a list of events and a host program do: each kind of event, that the engine's turn does not matter while
nothing is pending, and a command with its `WAIT`, wherever it completes.
-/

namespace Sys2Proof.Laws

open Sys2Proof.Machine

/-! ### A list of events -/

theorem drive_nil (s : State) : drive [] s = .next { s with inputs := [] } := rfl

theorem drive_read (w : WordAddr) (es : List Event) (s : State) :
    drive (.read w :: es) s = drive es { s with inputs := [], rdata := some (s.hostRead w) } := rfl

theorem drive_write (w : WordAddr) (v : Word) (es : List Event) (s : State) :
    drive (.write w v :: es) s = drive es ({ s with inputs := [] }.hostWrite w v) := rfl

/-- The events that were still to come play no part. -/
theorem drive_inputs (es es' : List Event) (s : State) : drive es { s with inputs := es' } = drive es s := by
  cases es <;> rfl

/-- An event that answers a next state. -/
theorem drive_cons {e : Event} {s t : State} (h : handle e { s with inputs := [] } = .next t) (es : List Event) :
    drive (e :: es) s = drive es t := by
  have hs : step { s with inputs := [e] } = .next t := h
  rw [drive, hs]

theorem drive_idle_turn {s : State} (h : s.busy = false) (es : List Event) : drive (.engine :: es) s = drive es s :=
  (drive_cons (e := .engine) (s := s) (engineTurn_idle (s := { s with inputs := [] }) h) es).trans (drive_inputs es [] s)

/-- The turn that completes the pending command. -/
theorem drive_busy_turn {s t : State} (h : s.busy = true) (hc : complete { s with inputs := [] } = .next t)
    (es : List Event) : drive (.engine :: es) s = drive es t :=
  drive_cons (e := .engine) (s := s) ((engineTurn_busy (s := { s with inputs := [] }) h).trans hc) es

theorem drive_answers (es : List Event) (s : State) : ∃ t, drive es s = .next t ∧ t.inputs = [] := by
  induction es generalizing s with
  | nil => exact ⟨_, rfl, rfl⟩
  | cons e es ih =>
    obtain ⟨t, ht, -⟩ := handle_answers e { s with inputs := [] }
    obtain ⟨u, hu⟩ := ih t
    exact ⟨u, (drive_cons ht es).trans hu.1, hu.2⟩

/-- An event that can make no idle engine busy: a read, the engine's turn, a write that is no acceptance. -/
def keepsIdle : Event → Bool
  | .read _ => true
  | .write w _ => offset w != 0x00C
  | .engine => true
  | .reset => true

theorem hostWrite_keepsIdle {s : State} (h : s.busy = false) {w : WordAddr} (hw : offset w ≠ 0x00C) (v : Word) :
    (s.hostWrite w v).busy = false := by
  rw [hostWrite_idle h]
  have hcmd : locate w ≠ .cmd := by
    have key : ∀ x : WordAddr, locate x = .cmd → offset x = 0x00C := by decide +kernel
    exact fun hl => hw (key w hl)
  cases hl : locate w <;> first | exact absurd hl hcmd | exact h

/-- Where nothing is pending and nothing is accepted, it does not matter where the engine has its turn. -/
theorem drive_insertTurn {es : List Event} (hes : ∀ e ∈ es, keepsIdle e = true) (n : Nat) {s : State}
    (h : s.busy = false) : drive (insertTurn n es) s = drive es s := by
  induction n generalizing es s with
  | zero => exact drive_idle_turn h es
  | succ n ih =>
    cases es with
    | nil => rfl
    | cons e es =>
      have hes' := fun x hx => hes x (List.mem_cons_of_mem _ hx)
      cases e with
      | read w => exact ih hes' h
      | write w v =>
        have hw : offset w ≠ 0x00C := by simpa [keepsIdle] using hes _ List.mem_cons_self
        exact ih hes' (hostWrite_keepsIdle (s := { s with inputs := [] }) h hw v)
      | engine => rw [insertTurn, drive_idle_turn h, drive_idle_turn h]; exact ih hes' h
      | reset => exact ih hes' rfl

/-! ### One command and its `WAIT` -/

theorem complete_legal {s : State} {i : Instr} (h : decode s.cur = .legal i) : complete s = exec i s := by
  simp only [complete, h]

theorem complete_illegal {s : State} (h : decode s.cur = .illegal) : complete s = .next (s.raise .illegalCommand) := by
  simp only [complete, h]

theorem putString_with_rdata (s : State) (bs : List Byte) (n : Byte) (fl : Flags) (r : Option Word) :
    (({ s with rdata := r } : State).putString bs n).succeed fl = { (s.putString bs n).succeed fl with rdata := r } := rfl

/-- What the host has read plays no part in a command. -/
theorem exec_rdata {i : Instr} {s t : State} (h : exec i s = .next t) (r : Option Word) :
    exec i { s with rdata := r } = .next { t with rdata := r } := by
  cases i with
  | montmul fd fs1 fs2 => cases h; rfl
  | modmul fd fs1 fs2 => cases h; rfl
  | modinv fd fs1 => cases h; rfl
  | fldc fd c =>
    simp only [exec, execFldc] at h ⊢
    split at h <;> cases h <;> rfl
  | pdbl pd ps1 => cases h; rfl
  | padd pd ps1 ps2 => cases h; rfl
  | pneg pd ps1 => cases h; rfl
  | pisinf ps1 => cases h; rfl
  | pchk ps1 => cases h; rfl
  | pldg pd => cases h; rfl
  | smul pd ps1 fs2 => cases h; rfl
  | penc ps1 =>
    cases hv : ptNorm s.curve (s.readPoint ps1) with
    | inf =>
      have e (u : State) (hu : ptNorm u.curve (u.readPoint ps1) = .inf) :
        exec (.penc ps1) u = .next (u.raise .operandInfinity) := by simp only [exec, execPenc, hu]
      rw [e s hv] at h
      cases h
      exact e _ hv
    | aff x y =>
      have e (u : State) (hu : ptNorm u.curve (u.readPoint ps1) = .aff x y) :
        exec (.penc ps1) u = .next ((u.putString (encPoint x y) 97#8).succeed Flags.none) := by
          simp only [exec, execPenc, hu]
      rw [e s hv] at h
      cases h
      exact (e { s with rdata := r } hv).trans (congrArg Host.Outcome.next (putString_with_rdata s _ _ _ r))
  | pdec pd =>
    cases hv : decPoint s.curve s.bufString s.len.toNat with
    | err k =>
      have e (u : State) (hu : decPoint u.curve u.bufString u.len.toNat = .err k) :
        exec (.pdec pd) u = .next (u.raise k) := by simp only [exec, execPdec, hu]
      rw [e s hv] at h
      cases h
      exact e _ hv
    | pair x y =>
      have e (u : State) (hu : decPoint u.curve u.bufString u.len.toNat = .pair x y) :
        exec (.pdec pd) u = finishPoint pd (.aff x y) u := by simp only [exec, execPdec, hu]
      rw [e s hv] at h
      cases h
      exact e _ hv
  | xenc ps1 =>
    cases hv : ptNorm s.curve (s.readPoint ps1) with
    | inf =>
      have e (u : State) (hu : ptNorm u.curve (u.readPoint ps1) = .inf) :
        exec (.xenc ps1) u = .next (u.raise .operandInfinity) := by simp only [exec, execXenc, hu]
      rw [e s hv] at h
      cases h
      exact e _ hv
    | aff x y =>
      have e (u : State) (hu : ptNorm u.curve (u.readPoint ps1) = .aff x y) :
        exec (.xenc ps1) u = .next ((u.putString (encX x) 48#8).succeed Flags.none) := by
          simp only [exec, execXenc, hu]
      rw [e s hv] at h
      cases h
      exact (e { s with rdata := r } hv).trans (congrArg Host.Outcome.next (putString_with_rdata s _ _ _ r))

theorem complete_rdata {s t : State} (h : complete s = .next t) (r : Option Word) :
    complete { s with rdata := r } = .next { t with rdata := r } := by
  cases hd : decode s.cur with
  | legal i =>
    rw [complete_legal hd] at h
    exact (complete_legal (s := { s with rdata := r }) hd).trans (exec_rdata h r)
  | illegal =>
    rw [complete_illegal hd] at h
    cases h
    exact complete_illegal (s := { s with rdata := r }) hd

/-- The word a read of `STATUS` returns, at any time (R62). -/
theorem hostRead_status (s : State) : s.hostRead (wordAddr 0x008) = s.statusWord := by
  have h1 : inDataWindow (wordAddr 0x008) = false := by decide
  have h2 : locate (wordAddr 0x008) = .status := by decide
  simp [State.hostRead, h1, h2, State.peek]

/-- Polls of `STATUS` change nothing but the word last read. -/
theorem drive_polls (n : Nat) (s : State) (es : List Event) :
    ∃ r, drive (List.replicate n (.read (wordAddr 0x008)) ++ es) s = drive es { s with rdata := r } := by
  induction n generalizing s with
  | zero => exact ⟨s.rdata, rfl⟩
  | succ n ih =>
    obtain ⟨r, hr⟩ := ih { s with inputs := [], rdata := some (s.hostRead (wordAddr 0x008)) }
    refine ⟨r, ?_⟩
    rw [List.replicate_succ, List.cons_append, drive_read, hr]
    exact drive_inputs es [] { s with rdata := r }

/-- The acceptance of a command word by an idle engine. -/
theorem drive_command {s : State} (h : s.busy = false) (v : Word) (es : List Event) :
    drive (.write (wordAddr 0x00C) v :: es) s = drive es (s.accept v) := by
  have h2 : locate (wordAddr 0x00C) = .cmd := by decide
  rw [drive_write, hostWrite_idle (s := { s with inputs := [] }) h, h2]
  exact drive_inputs es [] (s.accept v)

/-- A `WAIT` while nothing is pending. -/
theorem drive_wait_idle {s : State} (h : s.busy = false) (n : Nat) :
    drive (HostLine.wait.events n s.busy) s = .next { s with inputs := [], rdata := some s.statusWord } := by
  rw [HostLine.events, waitEvents, if_neg (by simp [h]), drive_read, hostRead_status, drive_nil]

/-- A `WAIT` while a command is pending: the command has completed, and the word last read is the `STATUS` after it. -/
theorem drive_wait_busy {s t : State} (h : s.busy = true) (hi : s.inputs = []) (hc : complete s = .next t) (n : Nat) :
    drive (HostLine.wait.events n s.busy) s = .next { t with inputs := [], rdata := some t.statusWord } := by
  obtain ⟨r, hr⟩ := drive_polls n s [.engine, .read (wordAddr 0x008)]
  have hc' : complete { s with inputs := [], rdata := r } = .next { t with rdata := r } := by
    rw [show ({ s with inputs := [], rdata := r } : State) = { s with rdata := r } by rw [← hi]]
    exact complete_rdata hc r
  rw [HostLine.events, waitEvents, if_pos h, hr, drive_busy_turn (s := { s with rdata := r }) h hc', drive_read,
    hostRead_status]
  rfl

/-- A command given to an idle engine, with its `WAIT`: wherever it completes, the program goes on from the state the
command answers, with the `STATUS` word after it as the word last read. -/
theorem runLines_cmd_wait {i : Instr} {s t : State} (hidle : s.busy = false) (hd : decode (encode i) = .legal i)
    (hx : exec i { s.accept (encode i) with inputs := [] } = .next t) (ls : List HostLine) (turns : List Nat) :
    runLines (.cmd i :: .wait :: ls) turns s =
      runLines ls (turns.drop 2) { t with inputs := [], rdata := some t.statusWord } := by
  have hc : complete { s.accept (encode i) with inputs := [] } = .next t :=
    (complete_legal (s := { s.accept (encode i) with inputs := [] }) hd).trans hx
  obtain ⟨hbusy, -, -⟩ := ending_control (exec_ending hx)
  have key : ∃ u, drive ((HostLine.cmd i).events (turns.headD 0) s.busy) s = .next u ∧
      drive (HostLine.wait.events (turns.tail.headD 0) u.busy) u =
        .next { t with inputs := [], rdata := some t.statusWord } := by
    rcases hn : turns.headD 0 with _ | _ | n
    · refine ⟨_, (drive_idle_turn hidle _).trans (drive_command hidle _ _), ?_⟩
      exact drive_wait_busy rfl rfl hc _
    · refine ⟨_, (drive_command hidle _ _).trans (drive_busy_turn rfl hc _), ?_⟩
      exact drive_wait_idle (s := { t with inputs := [] }) hbusy _
    · refine ⟨_, drive_command hidle _ _, ?_⟩
      exact drive_wait_busy rfl rfl hc _
  obtain ⟨u, h1, h2⟩ := key
  rw [runLines, if_neg (by simp [HostLine.stops]), h1]
  simp only [HostLine.result, List.nil_append]
  rw [runLines, if_neg (by simp [HostLine.stops]), h2]
  simp only [HostLine.result, List.nil_append]
  have htail : turns.tail.tail = turns.drop 2 := by rcases turns with _ | ⟨_, _ | _⟩ <;> rfl
  rw [htail]
  cases runLines ls (turns.drop 2) { t with inputs := [], rdata := some t.statusWord } <;> rfl

end Sys2Proof.Laws
end

