-- ==== Sys2Proof/Laws/PerInstr.lean ====
section
/-!
SUPPORT. Statements made of every command as syntax. `EncodingFits`: the encoded word of a legal command matches its own
row of the opcode table of R76 and no other row.
-/

namespace Sys2Proof.Laws.EncodingFits

open Sys2Proof

/-- Of the rows of the opcode table, the encoded word of a legal command matches its own row only. -/
def Statement (i : Instr) : Prop :=
  i.WellFormed → ∀ r ∈ opcodeTable, r.hits (encode i) = true ↔ r = i.row

/-- The commands with three field registers and the one with two, evaluated once. -/
theorem field_rows :
    (∀ a b c : FReg, Statement (.montmul a b c) ∧ Statement (.modmul a b c)) ∧ (∀ a b : FReg, Statement (.modinv a b)) ∧
    (∀ (a : FReg) (c : ConstIx), Statement (.fldc a c)) := by
  unfold Statement
  decide +kernel

/-- The commands on point registers, evaluated once. -/
theorem point_rows :
    (∀ a b c : PReg, Statement (.padd a b c)) ∧ (∀ a b : PReg, Statement (.pdbl a b) ∧ Statement (.pneg a b)) ∧
    (∀ (a b : PReg) (c : FReg), Statement (.smul a b c)) ∧
    (∀ a : PReg, Statement (.pisinf a) ∧ Statement (.pchk a) ∧ Statement (.pldg a) ∧ Statement (.penc a) ∧
      Statement (.pdec a) ∧ Statement (.xenc a)) := by
  unfold Statement
  decide +kernel

theorem montmul (fd fs1 fs2 : FReg) : Statement (.montmul fd fs1 fs2) := (field_rows.1 fd fs1 fs2).1
theorem modmul (fd fs1 fs2 : FReg) : Statement (.modmul fd fs1 fs2) := (field_rows.1 fd fs1 fs2).2
theorem modinv (fd fs1 : FReg) : Statement (.modinv fd fs1) := field_rows.2.1 fd fs1
theorem fldc (fd : FReg) (c : ConstIx) : Statement (.fldc fd c) := field_rows.2.2 fd c
theorem pdbl (pd ps1 : PReg) : Statement (.pdbl pd ps1) := (point_rows.2.1 pd ps1).1
theorem padd (pd ps1 ps2 : PReg) : Statement (.padd pd ps1 ps2) := point_rows.1 pd ps1 ps2
theorem pneg (pd ps1 : PReg) : Statement (.pneg pd ps1) := (point_rows.2.1 pd ps1).2
theorem pisinf (ps1 : PReg) : Statement (.pisinf ps1) := (point_rows.2.2.2 ps1).1
theorem pchk (ps1 : PReg) : Statement (.pchk ps1) := (point_rows.2.2.2 ps1).2.1
theorem pldg (pd : PReg) : Statement (.pldg pd) := (point_rows.2.2.2 pd).2.2.1
theorem smul (pd ps1 : PReg) (fs2 : FReg) : Statement (.smul pd ps1 fs2) := point_rows.2.2.1 pd ps1 fs2
theorem penc (ps1 : PReg) : Statement (.penc ps1) := (point_rows.2.2.2 ps1).2.2.2.1
theorem pdec (pd : PReg) : Statement (.pdec pd) := (point_rows.2.2.2 pd).2.2.2.2.1
theorem xenc (ps1 : PReg) : Statement (.xenc ps1) := (point_rows.2.2.2 ps1).2.2.2.2.2

end Sys2Proof.Laws.EncodingFits
end

