-- ==== Sys2Proof/Laws/Prime.lean ====
section
/-!
SUPPORT. `p` and `n` of the default record are prime (spec/00_scope.md R8; spec/93_implementation_defined.md G1), by Lucas's
test down a chain of prime factors. The factors were found outside Lean; only the test is trusted, and it is proved.
-/

namespace Sys2Proof.Laws

open Sys2Proof.Machine

/-- A number, a base for Lucas's test, and the prime factors of the number less 1, with repeats. -/
structure LucasEntry where
  p  : Nat
  a  : Nat
  fs : List Nat
  deriving DecidableEq, Repr

/-- The conditions of Lucas's test on an entry whose factors are all in `known`. -/
def LucasEntry.passes (e : LucasEntry) (known : List Nat) : Bool :=
  decide (1 < e.p) && e.fs.prod == e.p - 1 && powMod e.p e.a (e.p - 1) == 1 &&
    e.fs.all fun q => known.contains q && powMod e.p e.a ((e.p - 1) / q) != 1

/-- Every entry of a chain passes, its factors found among `known` and the entries before it. -/
def chainPasses : List LucasEntry → List Nat → Bool
  | [], _ => true
  | e :: es, known => e.passes known && chainPasses es (e.p :: known)

/-- A number that passes Lucas's test on prime factors is prime. -/
theorem prime_of_passes {e : LucasEntry} {known : List Nat} (hknown : ∀ q ∈ known, q.Prime)
    (htest : e.passes known = true) : e.p.Prime := by
  simp only [LucasEntry.passes, Bool.and_eq_true, decide_eq_true_eq, beq_iff_eq] at htest
  obtain ⟨⟨⟨hp, hprod⟩, hone⟩, hall⟩ := htest
  have cast : ∀ k, powMod e.p e.a k = 1 ↔ (e.a : ZMod e.p) ^ k = 1 := by
    intro k
    rw [powMod_eq]
    have h1 : 1 % e.p = 1 := Nat.mod_eq_of_lt hp
    constructor
    · intro h
      have := (ZMod.natCast_eq_natCast_iff' (e.a ^ k) 1 e.p).2 (by rw [h, h1])
      simpa using this
    · intro h
      have : ((e.a ^ k : Nat) : ZMod e.p) = ((1 : Nat) : ZMod e.p) := by simpa using h
      rw [ZMod.natCast_eq_natCast_iff', h1] at this
      exact this
  have each : ∀ q ∈ e.fs, q ∈ known ∧ powMod e.p e.a ((e.p - 1) / q) ≠ 1 := by
    intro q hq
    have := List.all_eq_true.1 hall q hq
    simpa using this
  refine lucas_primality e.p (e.a : ZMod e.p) ((cast _).1 hone) fun q hq hdvd => ?_
  have hmem : q ∈ e.fs := by
    rw [← hprod] at hdvd
    obtain ⟨r, hr, hqr⟩ := (Nat.Prime.prime hq).dvd_prod_iff.1 hdvd
    rwa [(Nat.prime_dvd_prime_iff_eq hq (hknown r (each r hr).1)).1 hqr]
  exact fun h => (each q hmem).2 ((cast _).2 h)

/-- Every number of a chain that passes is prime. -/
theorem prime_of_chainPasses (es : List LucasEntry) (known : List Nat) (hknown : ∀ q ∈ known, q.Prime)
    (h : chainPasses es known = true) : ∀ e ∈ es, e.p.Prime := by
  induction es generalizing known with
  | nil => exact fun _ he => absurd he List.not_mem_nil
  | cons e es ih =>
    simp only [chainPasses, Bool.and_eq_true] at h
    have he := prime_of_passes hknown h.1
    refine List.forall_mem_cons.2 ⟨he, ih (e.p :: known) ?_ h.2⟩
    exact List.forall_mem_cons.2 ⟨he, hknown⟩

/-- Piece 0 of the chain. -/
def chainPiece0 : List LucasEntry :=
  [
   ⟨3, 2, [2]⟩,
   ⟨5, 2, [2, 2]⟩,
   ⟨7, 3, [2, 3]⟩,
   ⟨11, 2, [2, 5]⟩,
   ⟨13, 2, [2, 2, 3]⟩,
   ⟨17, 3, [2, 2, 2, 2]⟩,
   ⟨19, 2, [2, 3, 3]⟩,
   ⟨29, 2, [2, 2, 7]⟩,
   ⟨41, 6, [2, 2, 2, 5]⟩,
   ⟨23, 5, [2, 11]⟩,
   ⟨47, 5, [2, 23]⟩,
   ⟨59, 2, [2, 29]⟩,
   ⟨61, 2, [2, 2, 3, 5]⟩,
   ⟨67, 2, [2, 3, 11]⟩,
   ⟨73, 5, [2, 2, 2, 3, 3]⟩,
   ⟨79, 3, [2, 3, 13]⟩,
   ⟨89, 3, [2, 2, 2, 11]⟩,
   ⟨97, 5, [2, 2, 2, 2, 2, 3]⟩,
   ⟨53, 2, [2, 2, 13]⟩,
   ⟨107, 2, [2, 53]⟩]

/-- Piece 1 of the chain. -/
def chainPiece1 : List LucasEntry :=
  [
   ⟨113, 3, [2, 2, 2, 2, 7]⟩,
   ⟨37, 2, [2, 2, 3, 3]⟩,
   ⟨149, 2, [2, 2, 37]⟩,
   ⟨151, 6, [2, 3, 5, 5]⟩,
   ⟨157, 5, [2, 2, 3, 13]⟩,
   ⟨179, 2, [2, 89]⟩,
   ⟨181, 2, [2, 2, 3, 3, 5]⟩,
   ⟨211, 2, [2, 3, 5, 7]⟩,
   ⟨233, 3, [2, 2, 2, 29]⟩,
   ⟨251, 6, [2, 5, 5, 5]⟩,
   ⟨131, 2, [2, 5, 13]⟩,
   ⟨263, 5, [2, 131]⟩,
   ⟨31, 3, [2, 3, 5]⟩,
   ⟨311, 17, [2, 5, 31]⟩,
   ⟨43, 3, [2, 3, 7]⟩,
   ⟨173, 2, [2, 2, 43]⟩,
   ⟨347, 2, [2, 173]⟩,
   ⟨421, 2, [2, 2, 3, 5, 7]⟩,
   ⟨491, 2, [2, 5, 7, 7]⟩,
   ⟨599, 7, [2, 13, 23]⟩]

/-- Piece 2 of the chain. -/
def chainPiece2 : List LucasEntry :=
  [
   ⟨659, 2, [2, 7, 47]⟩,
   ⟨661, 2, [2, 2, 3, 5, 11]⟩,
   ⟨881, 3, [2, 2, 2, 2, 5, 11]⟩,
   ⟨937, 5, [2, 2, 2, 3, 3, 13]⟩,
   ⟨1033, 5, [2, 2, 2, 3, 43]⟩,
   ⟨1117, 2, [2, 2, 3, 3, 31]⟩,
   ⟨1373, 2, [2, 2, 7, 7, 7]⟩,
   ⟨1553, 3, [2, 2, 2, 2, 97]⟩,
   ⟨2213, 2, [2, 2, 7, 79]⟩,
   ⟨271, 6, [2, 3, 3, 3, 5]⟩,
   ⟨3253, 2, [2, 2, 3, 271]⟩,
   ⟨293, 2, [2, 2, 73]⟩,
   ⟨3517, 2, [2, 2, 3, 293]⟩,
   ⟨3739, 7, [2, 3, 7, 89]⟩,
   ⟨1579, 3, [2, 3, 263]⟩,
   ⟨6317, 2, [2, 2, 1579]⟩,
   ⟨8389, 6, [2, 2, 3, 3, 233]⟩,
   ⟨1087, 3, [2, 3, 181]⟩,
   ⟨4349, 2, [2, 2, 1087]⟩,
   ⟨8699, 2, [2, 4349]⟩]

/-- Piece 3 of the chain. -/
def chainPiece3 : List LucasEntry :=
  [
   ⟨163, 2, [2, 3, 3, 3, 3]⟩,
   ⟨653, 2, [2, 2, 163]⟩,
   ⟨16979, 2, [2, 13, 653]⟩,
   ⟨139, 2, [2, 3, 23]⟩,
   ⟨21407, 5, [2, 7, 11, 139]⟩,
   ⟨34429, 2, [2, 2, 3, 19, 151]⟩,
   ⟨37447, 3, [2, 3, 79, 79]⟩,
   ⟨38557, 2, [2, 2, 3, 3, 3, 3, 7, 17]⟩,
   ⟨64901, 2, [2, 2, 5, 5, 11, 59]⟩,
   ⟨2862218959, 3, [2, 3, 157, 1373, 2213]⟩,
   ⟨807145746439, 3, [2, 3, 47, 2862218959]⟩,
   ⟨312289, 14, [2, 2, 2, 2, 2, 3, 3253]⟩,
   ⟨336757, 2, [2, 2, 3, 7, 19, 211]⟩,
   ⟨568151, 17, [2, 5, 5, 11, 1033]⟩,
   ⟨363557, 2, [2, 2, 97, 937]⟩,
   ⟨532247449, 7, [2, 2, 2, 3, 61, 363557]⟩,
   ⟨44925942675193, 5, [2, 2, 2, 3, 3517, 532247449]⟩,
   ⟨35581458644053887931343, 5, [2, 17, 41, 568151, 44925942675193]⟩,
   ⟨23964610537191310276190549303, 5, [2, 336757, 35581458644053887931343]⟩,
   ⟨862725979338887169942859774909, 2, [2, 2, 3, 3, 23964610537191310276190549303]⟩]

/-- Piece 4 of the chain. -/
def chainPiece4 : List LucasEntry :=
  [
   ⟨20705423504133292078628634597817, 5, [2, 2, 2, 3, 862725979338887169942859774909]⟩,
   ⟨6051631, 6, [2, 3, 5, 13, 59, 263]⟩,
   ⟨413244619895455989650825325680172591660047, 5, [2, 17, 97, 6051631, 20705423504133292078628634597817]⟩,
   ⟨12397338596863679689524759770405177749801411, 2, [2, 3, 5, 413244619895455989650825325680172591660047]⟩,
   ⟨513928823, 5, [2, 11, 59, 599, 661]⟩,
   ⟨53448597593, 3, [2, 2, 2, 13, 513928823]⟩,
   ⟨1357291859799823621, 2, [2, 2, 3, 5, 67, 6317, 53448597593]⟩,
   ⟨246608641, 19, [2, 2, 2, 2, 2, 2, 2, 2, 3, 3, 5, 21407]⟩,
   ⟨105957871, 3, [2, 3, 5, 19, 211, 881]⟩,
   ⟨529709925838459440593, 3, [2, 2, 2, 2, 7, 181, 105957871, 246608641]⟩,
   ⟨19173790298027098165721053155794528970226934547887232785722672956982046098136719667167519737147526097, 3, [
      2, 2, 2, 2, 11, 11, 11, 8389, 38557, 312289, 1357291859799823621, 529709925838459440593,
      12397338596863679689524759770405177749801411]⟩,
   ⟨39402006196394479212279040100143613805079739270465446667948293404245721771496870329047266088258938001861606973112319, 19, [
      2, 19, 67, 807145746439,
      19173790298027098165721053155794528970226934547887232785722672956982046098136719667167519737147526097]⟩,
   ⟨330563, 2, [2, 19, 8699]⟩,
   ⟨1436833069313, 3, [2, 2, 2, 2, 2, 2, 2, 2, 16979, 330563]⟩,
   ⟨1276987, 2, [2, 3, 29, 41, 179]⟩,
   ⟨8463023, 5, [2, 113, 37447]⟩,
   ⟨9863677, 5, [2, 2, 3, 3, 311, 881]⟩,
   ⟨37344768852931, 3, [2, 3, 5, 7, 11, 11, 149, 9863677]⟩,
   ⟨55942463741690639, 7, [2, 7, 107, 37344768852931]⟩,
   ⟨248431, 3, [2, 3, 5, 7, 7, 13, 13]⟩]

/-- Piece 5 of the chain. -/
def chainPiece5 : List LucasEntry :=
  [
   ⟨272109983, 5, [2, 19, 73, 233, 421]⟩,
   ⟨228572385721, 23, [2, 2, 2, 3, 5, 7, 272109983]⟩,
   ⟨23314383343543, 3, [2, 3, 17, 228572385721]⟩,
   ⟨426632512014427833817, 11, [2, 2, 2, 3, 13, 89, 659, 23314383343543]⟩,
   ⟨1495199339761412565498084319, 6, [2, 3, 3, 3, 64901, 426632512014427833817]⟩,
   ⟨17942392077136950785977011829, 6, [2, 2, 3, 1495199339761412565498084319]⟩,
   ⟨1059392654943455286185473617842338478315215895509773412096307, 2, [2, 251, 248431, 8463023,
      55942463741690639, 17942392077136950785977011829]⟩,
   ⟨3055465788140352002733946906144561090641249606160407884365391979704929268480326390471, 12, [2, 3, 5, 151,
      347, 1276987, 1436833069313, 1059392654943455286185473617842338478315215895509773412096307]⟩,
   ⟨290064143, 5, [2, 79, 491, 3739]⟩,
   ⟨455737, 11, [2, 2, 2, 3, 17, 1117]⟩,
   ⟨154950581, 2, [2, 2, 5, 17, 455737]⟩,
   ⟨120699720968197491947347, 3, [2, 3, 13, 34429, 154950581, 290064143]⟩,
   ⟨1124679999981664229965379347, 2, [2, 3, 1553, 120699720968197491947347]⟩,
   ⟨39402006196394479212279040100143613805079739270465446667946905279627659399113263569398956308152294913554433653942643, 2, [
      2, 3, 3, 7, 7, 13, 1124679999981664229965379347,
      3055465788140352002733946906144561090641249606160407884365391979704929268480326390471]⟩]

/-- The chain, which starts from the prime 2 and holds `p` and `n`. -/
def chain : List LucasEntry :=
  chainPiece0 ++ chainPiece1 ++ chainPiece2 ++ chainPiece3 ++ chainPiece4 ++ chainPiece5

theorem chain_passes : chainPasses chain [2] = true := by decide +kernel

theorem prime_of_mem_chain {q : Nat} (h : (chain.map LucasEntry.p).contains q = true) : q.Prime := by
  obtain ⟨e, he, rfl⟩ := List.mem_map.1 (List.contains_iff_mem.1 h)
  exact prime_of_chainPasses chain [2] (by simp [Nat.prime_two]) chain_passes e he

/-- `p` of the default record is prime (R8). -/
theorem curve_p_prime : Nat.Prime Config.curve.p := prime_of_mem_chain (by decide +kernel)

/-- `n` of the default record is prime (spec/95_test_vectors.md Z2). -/
theorem curve_n_prime : Nat.Prime Config.curve.n := prime_of_mem_chain (by decide +kernel)

end Sys2Proof.Laws
end

