-- ==== Sys2Proof/Laws/Point.lean ====
section
/-!
SUPPORT. The laws of the inverse, the curve equation, the point functions and the point operands.
-/

namespace Sys2Proof.Laws

open Sys2Proof.Machine

/-! ### Operands -/

theorem readField_eq (s : State) (i : FReg) : s.readField i = (s.f.get i).toNat := rfl

/-- A register with `.inf = 1` reads as `INF` (R111). -/
theorem readPoint_inf {s : State} {j : PReg} (h : (s.pt.get j).inf = true) : s.readPoint j = .inf := by
  simp [State.readPoint, State.getPt, h]

/-- A register with `.inf = 0` reads as its pair (R111). -/
theorem readPoint_aff {s : State} {j : PReg} (h : (s.pt.get j).inf = false) :
    s.readPoint j = .aff (s.pt.get j).x.toNat (s.pt.get j).y.toNat := by
  simp [State.readPoint, State.getPt, h]

variable {c : CurveParameters}

/-! ### Zero and the inverse -/

theorem fred_eq_zero_iff (hp : 0 < c.p) (v : Int) : fred c v = 0 ↔ (v : ZMod c.p) = 0 := by
  rw [ZMod.intCast_zmod_eq_zero_iff_dvd, Int.dvd_iff_emod_eq_zero, fred]
  have := Int.emod_nonneg v (show (c.p : Int) ≠ 0 by omega)
  omega

theorem fsub_eq_zero_iff (hp : 0 < c.p) (u v : Int) : fsub c u v = 0 ↔ (u : ZMod c.p) = v := by
  rw [fsub, fred_eq_zero_iff hp]
  push_cast
  exact sub_eq_zero

/-- The function `finv` is the power (R95). -/
theorem finv_eq (v : Int) : finv c v = fred c v ^ (c.p - 2) % c.p := by rw [finv, powMod_eq]

/-- Over a prime field above 2 the power is the inverse, 0 for 0 (R95). -/
theorem finv_zmod (hp : Nat.Prime c.p) (h2 : 2 < c.p) (v : Int) :
    ((finv c v : Nat) : ZMod c.p) = (v : ZMod c.p)⁻¹ := by
  have : Fact (Nat.Prime c.p) := ⟨hp⟩
  rw [finv_eq, ZMod.natCast_mod, Nat.cast_pow, fred_zmod hp.pos]
  by_cases hv : (v : ZMod c.p) = 0
  · rw [hv, inv_zero, zero_pow (by omega)]
  · have fermat := ZMod.pow_card_sub_one_eq_one hv
    refine eq_inv_of_mul_eq_one_left ?_
    rw [← pow_succ, show c.p - 2 + 1 = c.p - 1 by omega, fermat]

/-- The power of a number divisible by `p` is 0 (R95). -/
theorem finv_of_zero (h2 : 2 < c.p) {v : Int} (h : fred c v = 0) : finv c v = 0 := by
  rw [finv_eq, h, zero_pow (by omega), Nat.zero_mod]

/-- `(R * Rinv) mod p = 1` for every odd prime `p` (R10). -/
theorem radix_mul_rinv (hp : Nat.Prime c.p) (hodd : c.p % 2 = 1) : Config.radix * rinv c % c.p = 1 := by
  have : Fact (Nat.Prime c.p) := ⟨hp⟩
  have h2 : 2 < c.p := by have := hp.two_le; omega
  have hne : ((Config.radix : Nat) : ZMod c.p) ≠ 0 := by
    rw [Ne, ZMod.natCast_eq_zero_iff, radix_eq]
    exact fun h => absurd ((Nat.prime_dvd_prime_iff_eq hp Nat.prime_two).1 (hp.dvd_of_dvd_pow h)) (by omega)
  have h : ((Config.radix * rinv c : Nat) : ZMod c.p) = (1 : Nat) := by
    rw [Nat.cast_mul, rinv, finv_zmod hp h2, Int.cast_natCast, mul_inv_cancel₀ hne, Nat.cast_one]
  rw [(ZMod.natCast_eq_natCast_iff _ _ _).1 h, Nat.mod_eq_of_lt hp.one_lt]

/-- The default record's `p` is above 2. -/
theorem curve_p_gt_two : 2 < Config.curve.p := by
  have h := curve_p_odd
  have h' := curve_p_gt_one
  omega

/-! ### The curve -/

/-- The curve equation in the field (R112). -/
theorem onCurve_iff (hp : 0 < c.p) (x y : Nat) :
    onCurve c (.aff x y) = true ↔ (y : ZMod c.p) ^ 2 = (x : ZMod c.p) ^ 3 + c.a * x + c.b := by
  have key : onCurve c (.aff x y) = true ↔
      fmul c y y = fadd c (fadd c (fmul c (fmul c x x) x) (fmul c c.a x)) c.b := by
    simp [onCurve]
  have l : (fmul c y y : ZMod c.p) = (y : ZMod c.p) ^ 2 := by
    rw [fmul_zmod hp]; push_cast; ring
  have r : (fadd c (fadd c (fmul c (fmul c x x) x) (fmul c c.a x)) c.b : ZMod c.p) =
      (x : ZMod c.p) ^ 3 + c.a * x + c.b := by
    simp only [fadd_zmod hp, fmul_zmod hp, Int.cast_natCast]; ring
  have l' : fmul c y y < c.p := fred_lt hp _
  have r' : fadd c (fadd c (fmul c (fmul c x x) x) (fmul c c.a x)) c.b < c.p := fred_lt hp _
  rw [key, ← l, ← r, ZMod.natCast_eq_natCast_iff, Nat.ModEq, Nat.mod_eq_of_lt l', Nat.mod_eq_of_lt r']

/-- The doubler's slope solves `lam * 2y = 3x^2 + a` (R113). -/
theorem dblSlope_zmod (hp : Nat.Prime c.p) (h2 : 2 < c.p) (x : Nat) {y : Nat} (hy : (y : ZMod c.p) ≠ 0) :
    (dblSlope c x y : ZMod c.p) * (2 * y) = 3 * x ^ 2 + c.a := by
  have : Fact (Nat.Prime c.p) := ⟨hp⟩
  have two : (2 : ZMod c.p) ≠ 0 := by
    intro h
    have : ((2 : Nat) : ZMod c.p) = 0 := by exact_mod_cast h
    rw [ZMod.natCast_eq_zero_iff] at this
    have := Nat.le_of_dvd (by omega) this
    omega
  simp only [dblSlope, fmul_zmod hp.pos, fadd_zmod hp.pos, finv_zmod hp h2, Int.cast_natCast, Int.cast_ofNat]
  field_simp

/-! ### The point functions -/

theorem ptNorm_canonical (hp : 0 < c.p) (q : Point) : (ptNorm c q).Canonical c := by
  cases q with
  | inf => trivial
  | aff x y => exact ⟨fred_lt hp _, fred_lt hp _⟩

theorem ptDbl_canonical (hp : 0 < c.p) (q : Point) : (ptDbl c q).Canonical c := by
  cases q with
  | inf => trivial
  | aff x y =>
    rw [ptDbl]
    split
    · trivial
    · exact ⟨fred_lt hp _, fred_lt hp _⟩

theorem ptAdd_canonical (hp : 0 < c.p) (q r : Point) : (ptAdd c q r).Canonical c := by
  cases q with
  | inf =>
    cases r with
    | inf => trivial
    | aff x y => exact ptNorm_canonical hp (.aff x y)
  | aff x1 y1 =>
    cases r with
    | inf => exact ptNorm_canonical hp (.aff x1 y1)
    | aff x2 y2 =>
      rw [ptAdd]
      split
      · split
        · exact ptDbl_canonical hp _
        · trivial
      · exact ⟨fred_lt hp _, fred_lt hp _⟩

theorem smulLoop_canonical (hp : 0 < c.p) (k : Nat) (q : Point) (i : Nat) (acc : Point) (h : acc.Canonical c) :
    (smulLoop c k q i acc).Canonical c := by
  induction i generalizing acc with
  | zero => exact h
  | succ i ih =>
    apply ih
    split
    · exact ptAdd_canonical hp _ _
    · exact ptDbl_canonical hp _

/-- A scalar multiple is canonical (R130). -/
theorem smul_canonical (hp : 0 < c.p) (k : Nat) (q : Point) : (smul c k q).Canonical c :=
  smulLoop_canonical hp k q 384 .inf trivial

end Sys2Proof.Laws
end

