-- ==== Sys2Proof/Laws/Words.lean ====
section
/-!
SUPPORT. The words of a 384-bit value, the address map and the locations of the window.
-/

namespace Sys2Proof.Laws

open Sys2Proof.Machine

/-! ### Words of a 384-bit value (R52 (a), R58) -/

theorem getLsbD_getWord (v : Felt) (j i : Nat) :
    (getWord v j).getLsbD i = (decide (i < 32) && v.getLsbD (32 * j + i)) := by
  simp [getWord, BitVec.getLsbD_extractLsb']

theorem getLsbD_setWord (v : Felt) (j : Nat) (x : Word) (i : Nat) (hi : i < 384) :
    (setWord v j x).getLsbD i =
      if 32 * j ≤ i ∧ i < 32 * j + 32 then x.getLsbD (i - 32 * j) else v.getLsbD i := by
  have ones : (0xFFFFFFFF#32 : Word) = BitVec.allOnes 32 := by decide
  simp only [setWord, BitVec.getLsbD_or, BitVec.getLsbD_and, BitVec.getLsbD_not, BitVec.getLsbD_shiftLeft,
    BitVec.getLsbD_setWidth, ones, BitVec.getLsbD_allOnes, hi, decide_true, Bool.true_and]
  by_cases h1 : i < 32 * j
  · have h2 : ¬ (32 * j ≤ i ∧ i < 32 * j + 32) := by omega
    simp [h1, h2]
  · by_cases h3 : i - 32 * j < 32
    · have h2 : 32 * j ≤ i ∧ i < 32 * j + 32 := by omega
      have h4 : i - 32 * j < 384 := by omega
      simp [h1, h2, h3, h4]
    · have h2 : ¬ (32 * j ≤ i ∧ i < 32 * j + 32) := by omega
      have h5 : x.getLsbD (i - 32 * j) = false := BitVec.getLsbD_of_ge _ _ (by omega)
      simp [h1, h2, h3, h5]

/-- The word written is the word read. -/
theorem getWord_setWord_self (v : Felt) (j : Fin 12) (x : Word) : getWord (setWord v j x) j = x := by
  apply BitVec.eq_of_getLsbD_eq
  intro i hi
  have hj := j.isLt
  have h : 32 * j.val ≤ 32 * j.val + i ∧ 32 * j.val + i < 32 * j.val + 32 := by omega
  rw [getLsbD_getWord, getLsbD_setWord _ _ _ _ (by omega), if_pos h]
  simp [hi]

/-- Every other word is as before. -/
theorem getWord_setWord_ne (v : Felt) {j k : Fin 12} (h : k ≠ j) (x : Word) :
    getWord (setWord v j x) k = getWord v k := by
  apply BitVec.eq_of_getLsbD_eq
  intro i hi
  have hk := k.isLt
  have hne : k.val ≠ j.val := fun e => h (Fin.ext e)
  have h' : ¬ (32 * j.val ≤ 32 * k.val + i ∧ 32 * k.val + i < 32 * j.val + 32) := by omega
  rw [getLsbD_getWord, getLsbD_getWord, getLsbD_setWord _ _ _ _ (by omega), if_neg h']

/-- A 384-bit value is its twelve words. -/
theorem felt_ext {a b : Felt} (h : ∀ j : Fin 12, getWord a j = getWord b j) : a = b := by
  apply BitVec.eq_of_getLsbD_eq
  intro i hi
  have := congrArg (fun w => w.getLsbD (i % 32)) (h ⟨i / 32, by omega⟩)
  simp only [getLsbD_getWord] at this
  have e : 32 * (i / 32) + i % 32 = i := by omega
  have l : i % 32 < 32 := Nat.mod_lt _ (by omega)
  simpa [e, l] using this

/-! ### The address map (R56), by the byte offset of a word -/

/-- A word address is determined by its byte offset. -/
theorem wordAddr_unique {w : WordAddr} {o : Nat} (h : 4 * w.toNat = o) : w = wordAddr o := by
  apply BitVec.eq_of_toNat_eq
  have := w.isLt
  simp only [wordAddr, BitVec.toNat_ofNat]
  omega

/-- The address map on every word that holds state or a constant, evaluated once. -/
theorem locate_map :
    (∀ (i : FReg) (j : Fin 12), locate (wordAddr (0x200 + 0x40 * i.val + 4 * j.val)) = .field i j) ∧
    (∀ (k : PReg) (j : Fin 12), locate (wordAddr (0x400 + 0x80 * k.val + 4 * j.val)) = .ptX k j) ∧
    (∀ (k : PReg) (j : Fin 12), locate (wordAddr (0x400 + 0x80 * k.val + 0x40 + 4 * j.val)) = .ptY k j) ∧
    (∀ k : PReg, locate (wordAddr (0x400 + 0x80 * k.val + 0x70)) = .ptInf k) ∧
    (∀ w : Fin 25, locate (wordAddr (0x100 + 4 * w.val)) = .buf w) ∧
    (∀ (i : Fin 9) (j : Fin 12), locate (wordAddr (0x800 + 0x40 * i.val + 4 * j.val)) = .const i j) := by
  decide +kernel

theorem locate_field (i : FReg) (j : Fin 12) : locate (wordAddr (0x200 + 0x40 * i.val + 4 * j.val)) = .field i j :=
  locate_map.1 i j

theorem locate_ptX (k : PReg) (j : Fin 12) : locate (wordAddr (0x400 + 0x80 * k.val + 4 * j.val)) = .ptX k j :=
  locate_map.2.1 k j

theorem locate_ptY (k : PReg) (j : Fin 12) :
    locate (wordAddr (0x400 + 0x80 * k.val + 0x40 + 4 * j.val)) = .ptY k j :=
  locate_map.2.2.1 k j

theorem locate_ptInf (k : PReg) : locate (wordAddr (0x400 + 0x80 * k.val + 0x70)) = .ptInf k := locate_map.2.2.2.1 k

theorem locate_buf (w : Fin 25) : locate (wordAddr (0x100 + 4 * w.val)) = .buf w := locate_map.2.2.2.2.1 w

theorem locate_const (i : Fin 9) (j : Fin 12) : locate (wordAddr (0x800 + 0x40 * i.val + 4 * j.val)) = .const i j :=
  locate_map.2.2.2.2.2 i j

end Sys2Proof.Laws
end

