-- ==== Sys2Proof/Machine/Instance.lean ====
section
/-!
DEFINITION. The machine for any curve record, with the record as its configuration argument (spec/00_scope.md R7, R11).
-/

namespace Sys2Proof.Machine

/-- The engine configured with the record `c`, which is to meet R8 (`CurveParameters.Valid`); with the default record of R9
it is `Sys2Proof.core`. -/
def coreWith (c : CurveParameters) : Host.Core :=
  { State := State, Fault := Fault, Refusal := Refusal, step := step, reset := State.resetWith c }

end Sys2Proof.Machine
end

