-- ==== Sys2Proof/Tests/Slice0.lean ====
section
/-!
SUPPORT. The model's own tests. Expected values are the spec's: the words of spec/95_test_vectors.md section 7, its
vectors F, P, S, K (named in each test), and the tables of R9, R38, R56. Then, for every obligation with hypotheses, a
concrete state and operands that meet them (`witness_<name>`), each clause at a boundary value of its range.
-/

namespace Sys2Proof.Tests

open Sys2Proof Sys2Proof.Machine Sys2Proof.Laws

/-! ### The check refuses ill-formed terms -/

/-- R73: constant indices 9 and 15 are refused, 0 and 8 are not. -/
theorem test_wellFormed_fldc :
    (Instr.fldc 0 9).wellFormed = false ∧ (Instr.fldc 7 15).wellFormed = false ∧ (Instr.fldc 0 0).wellFormed = true ∧
      (Instr.fldc 7 8).wellFormed = true := by decide

/-! ### Decoding: one word for every command, and the illegal words beside them -/

/-- E2, E9, E10, E12: the field family. -/
theorem test_decode_field :
    decode 0x00077710#32 = .legal (.montmul 7 7 7) ∧ decode 0x00012311#32 = .legal (.modmul 3 2 1) ∧
    decode 0x00007612#32 = .legal (.modinv 6 7) ∧ decode 0x00080113#32 = .legal (.fldc 1 8) := by decide

/-- E16, E20, E22, E23, E25, E26: the point family. -/
theorem test_decode_point :
    decode 0x00003320#32 = .legal (.pdbl 3 3) ∧ decode 0x00010221#32 = .legal (.padd 2 0 1) ∧
    decode 0x00033321#32 = .legal (.padd 3 3 3) ∧ decode 0x00001222#32 = .legal (.pneg 2 1) ∧
    decode 0x00003023#32 = .legal (.pisinf 3) ∧ decode 0x00002024#32 = .legal (.pchk 2) ∧
    decode 0x00000325#32 = .legal (.pldg 3) := by decide

/-- E28, E30, E31, E33, E35: the scalar and codec families. -/
theorem test_decode_scalar_codec :
    decode 0x00073330#32 = .legal (.smul 3 3 7) ∧ decode 0x00030130#32 = .legal (.smul 1 0 3) ∧
    decode 0x00003040#32 = .legal (.penc 3) ∧ decode 0x00000341#32 = .legal (.pdec 3) ∧
    decode 0x00003042#32 = .legal (.xenc 3) := by decide

/-- The illegal words of E4 to E43. -/
theorem test_decode_illegal :
    ([0x00010A10#32, 0x00018210#32, 0x00080210#32, 0x00100010#32, 0x80000010#32, 0x00010112#32, 0x00090113#32,
      0x000F0113#32, 0x00001113#32, 0x00000420#32, 0x00004020#32, 0x00010020#32, 0x00040021#32, 0x00000123#32,
      0x00001025#32, 0x00080030#32, 0x00000140#32, 0x00001041#32, 0x00000000#32, 0xFFFFFFFF#32, 0x00000001#32,
      0x00000014#32, 0x00000026#32, 0x00000031#32, 0x00000043#32, 0x000000FF#32] : List Word).all
        (fun w => decode w == .illegal) = true := by decide

/-- The encoder, on words written out from R71 and R76. -/
theorem test_encode :
    encode (.montmul 2 0 1) = 0x00010210#32 ∧ encode (.fldc 1 8) = 0x00080113#32 ∧ encode (.padd 2 0 1) = 0x00010221#32 ∧
    encode (.smul 1 0 3) = 0x00030130#32 ∧ encode (.penc 3) = 0x00003040#32 ∧ encode (.pdec 3) = 0x00000341#32 := by
  decide

/-! ### One step per command -/

/-- The step that runs the word `w` on `s` answers a state with the property. -/
def runs (s : State) (w : Nat) (q : State → Bool) : Bool :=
  match step (s.withFetchWord 32 w) with
  | .next t => q t
  | .fault _ => false
  | .refused _ => false

/-- `G` as a register. -/
def regG : PointReg := ⟨BitVec.ofNat 384 Spec.gx, BitVec.ofNat 384 Spec.gy, false⟩

/-- The state after reset with `f[0]` set. -/
def withF (v : Felt) : State := State.reset.setF 0 v

/-- The state after reset with `pt[0]` and `pt[1]` set. -/
def withPts (q r : PointReg) : State := (State.reset.setPt 0 q).setPt 1 r

/-- `INF` as a register is stored (R23). -/
def regInf : PointReg := ⟨0#384, 0#384, true⟩

/-- F5: the operand `2^384 - 1` is reduced first; destination equals both sources. -/
theorem test_montmul_unreduced :
    runs (withF 0xFFFFFFFFFFFFFFFFFFFFFFFFFFFFFFFFFFFFFFFFFFFFFFFFFFFFFFFFFFFFFFFFFFFFFFFFFFFFFFFFFFFFFFFFFFFFFFFF#384) 0x00000010 (fun t =>
      t.f.get 0 == 0x00000014000000140000000C00000002FFFFFFFCFFFFFFFAFFFFFFFBFFFFFFFEFFFFFFECFFFFFFD8FFFFFFE000000005#384 &&
        t.statusWord == 0x00000002#32) = true := by
  decide +kernel

/-- F9: a full-size product. -/
theorem test_modmul_product :
    runs ((withF 0xAA87CA22BE8B05378EB1C71EF320AD746E1D3B628BA79B9859F741E082542A385502F25DBF55296C3A545E3872760AB7#384).setF 1
      0x3617DE4A96262C6F5D9E98BF9292DC29F8F41DBD289A147CE9DA3113B5F0B8C00A60B1CE1D7E819D7A431D7C90EA0E5F#384) 0x00010211 (fun t =>
      t.f.get 2 == 0x332E559389C970313CB29C4B55AF5783821971A99C250DAF84DC5D3CC441CB0A482E90DE9D3CCD96B3C8C48B2AD3F025#384 &&
        t.statusWord == 0x00000002#32) = true := by
  decide +kernel

/-- F11: the inverse of 2. -/
theorem test_modinv_half :
    runs (withF 2#384) 0x00000112 (fun t =>
      t.f.get 1 == 0x7FFFFFFFFFFFFFFFFFFFFFFFFFFFFFFFFFFFFFFFFFFFFFFFFFFFFFFFFFFFFFFF7FFFFFFF800000000000000080000000#384 &&
        t.statusWord == 0x00000002#32) = true := by
  decide +kernel

/-- F16: `p` is congruent to 0, so the result is 0 with `NOINV`. -/
theorem test_modinv_zero :
    runs ((withF 0xFFFFFFFFFFFFFFFFFFFFFFFFFFFFFFFFFFFFFFFFFFFFFFFFFFFFFFFFFFFFFFFEFFFFFFFF0000000000000000FFFFFFFF#384).setF 1 0x1234#384) 0x00000112 (fun t =>
      t.f.get 1 == 0#384 && t.statusWord == 0x00040002#32) = true := by
  decide +kernel

/-- F18: the constants 6 and 1. -/
theorem test_fldc_r2 :
    runs State.reset 0x00060113 (fun t =>
      t.f.get 1 == 0x000000000000000000000000000000010000000200000000FFFFFFFE000000000000000200000000FFFFFFFE00000001#384 &&
        t.statusWord == 0x00000002#32) = true := by
  decide +kernel

/-- P1: `2G`. -/
theorem test_pdbl_g :
    runs (withPts regG regInf) 0x00000120 (fun t =>
      t.pt.get 1 == ⟨0x08D999057BA3D2D969260045C55B97F089025959A6F434D651D207D19FB96E9E4FE0E86EBE0E64F85B96A9C75295DF61#384,
    0x8E80F1FA5B1B3CEDB7BFE8DFFD6DBA74B275D875BC6CC43E904E505F256AB4255FFD43E94D39E22D61501E700A940E80#384, false⟩ &&
        t.statusWord == 0x00000002#32) = true := by
  decide +kernel

/-- P9b: `y = p` is congruent to 0, so the double is `INF`. -/
theorem test_pdbl_zero :
    runs (withPts ⟨5#384, 0xFFFFFFFFFFFFFFFFFFFFFFFFFFFFFFFFFFFFFFFFFFFFFFFFFFFFFFFFFFFFFFFEFFFFFFFF0000000000000000FFFFFFFF#384, false⟩
      regG) 0x00000120 (fun t =>
      t.pt.get 1 == regInf && t.statusWord == 0x00010002#32) = true := by
  decide +kernel

/-- P2b: `2G + G = 3G`. -/
theorem test_padd_chord :
    runs (withPts regG ⟨0x08D999057BA3D2D969260045C55B97F089025959A6F434D651D207D19FB96E9E4FE0E86EBE0E64F85B96A9C75295DF61#384,
    0x8E80F1FA5B1B3CEDB7BFE8DFFD6DBA74B275D875BC6CC43E904E505F256AB4255FFD43E94D39E22D61501E700A940E80#384, false⟩) 0x00001221 (fun t =>
      t.pt.get 2 == ⟨0x077A41D4606FFA1464793C7E5FDC7D98CB9D3910202DCD06BEA4F240D3566DA6B408BBAE5026580D02D7E5C70500C831#384,
    0xC995F7CA0B0C42837D0BBE9602A9FC998520B41C85115AA5F7684C0EDC111EACC24ABD6BE4B5D298B65F28600A2F1DF1#384, false⟩ &&
        t.statusWord == 0x00000002#32) = true := by
  decide +kernel

/-- P4: `G + (-G)` is `INF`. -/
theorem test_padd_opposite :
    runs (withPts regG ⟨BitVec.ofNat 384 Spec.gx,
      0xC9E821B569D9D390A26167406D6D23D6070BE242D765EB831625CEEC4A0F473EF59F4E30E2817E6285BCE2846F15F1A0#384, false⟩) 0x00010221 (fun t =>
      t.pt.get 2 == regInf && t.statusWord == 0x00010002#32) = true := by
  decide +kernel

/-- P13: `x = p` becomes 0; destination equals source. -/
theorem test_pneg_reduces :
    runs (withPts ⟨0xFFFFFFFFFFFFFFFFFFFFFFFFFFFFFFFFFFFFFFFFFFFFFFFFFFFFFFFFFFFFFFFEFFFFFFFF0000000000000000FFFFFFFF#384,
    0xC306610FB0AE5A159CF45C06069F22A6C5EB3641C602D42DEA2C4B4F75550793406D80D2B91AD54F9048BD487AF1ADE1#384, false⟩ regInf) 0x00000022 (fun t =>
      t.pt.get 0 == ⟨0#384,
        0x3CF99EF04F51A5EA630BA3F9F960DD593A14C9BE39FD2BD215D3B4B08AAAF86BBF927F2C46E52AB06FB742B8850E521E#384, false⟩ && t.statusWord == 0x00000002#32) = true := by
  decide +kernel

/-- P17c: `.inf = 1` decides, whatever the coordinates. -/
theorem test_pisinf_flag :
    runs (State.reset.setPt 3 ⟨5#384, 7#384, true⟩) 0x00003023 (fun t =>
      t.pt == (State.reset.setPt 3 ⟨5#384, 7#384, true⟩).pt && t.statusWord == 0x00010002#32) = true := by
  decide

/-- P18d: not canonical, but congruent to a point of the curve. -/
theorem test_pchk_on :
    runs (withPts ⟨0xFFFFFFFFFFFFFFFFFFFFFFFFFFFFFFFFFFFFFFFFFFFFFFFFFFFFFFFFFFFFFFFEFFFFFFFF0000000000000000FFFFFFFF#384,
    0xC306610FB0AE5A159CF45C06069F22A6C5EB3641C602D42DEA2C4B4F75550793406D80D2B91AD54F9048BD487AF1ADE1#384, false⟩ regInf) 0x00000024 (fun t =>
      t.statusWord == 0x00020002#32) = true := by
  decide +kernel

/-- P18b: `y` off by one is no error. -/
theorem test_pchk_off :
    runs (withPts ⟨BitVec.ofNat 384 Spec.gx,
      0x3617DE4A96262C6F5D9E98BF9292DC29F8F41DBD289A147CE9DA3113B5F0B8C00A60B1CE1D7E819D7A431D7C90EA0E60#384, false⟩ regInf) 0x00000024 (fun t =>
      t.statusWord == 0x00000002#32) = true := by
  decide +kernel

/-- P19: the generator. -/
theorem test_pldg_g :
    runs State.reset 0x00000325 (fun t =>
      t.pt.get 3 == ⟨0xAA87CA22BE8B05378EB1C71EF320AD746E1D3B628BA79B9859F741E082542A385502F25DBF55296C3A545E3872760AB7#384,
    0x3617DE4A96262C6F5D9E98BF9292DC29F8F41DBD289A147CE9DA3113B5F0B8C00A60B1CE1D7E819D7A431D7C90EA0E5F#384, false⟩ &&
        t.statusWord == 0x00000002#32) = true := by
  decide

/-- S4: `6G`. -/
theorem test_smul_six :
    runs ((withPts regG regInf).setF 3 6#384) 0x00030130 (fun t =>
      t.pt.get 1 == ⟨0x627BE1ACD064D2B2226FE0D26F2D15D3C33EBCBB7F0F5DA51CBD41F26257383021317D7202FF30E50937F0854E35C5DF#384,
    0x09766A4CB3F8B1C21BE6DDA6C14F1575B2C95352644F774C99864F613715441604C45B8D84E165311733A408D3F0F934#384, false⟩ &&
        t.statusWord == 0x00000002#32) = true := by
  decide +kernel

/-- `BUF` holding the encoding of `G`, byte by byte as K1 lists it. -/
@[irreducible] def bufG : Memory := Memory.writeBytes [] 0
  ([0x04, 0xAA, 0x87, 0xCA, 0x22, 0xBE, 0x8B, 0x05, 0x37, 0x8E, 0xB1, 0xC7, 0x1E, 0xF3, 0x20, 0xAD] ++
   [0x74, 0x6E, 0x1D, 0x3B, 0x62, 0x8B, 0xA7, 0x9B, 0x98, 0x59, 0xF7, 0x41, 0xE0, 0x82, 0x54, 0x2A] ++
   [0x38, 0x55, 0x02, 0xF2, 0x5D, 0xBF, 0x55, 0x29, 0x6C, 0x3A, 0x54, 0x5E, 0x38, 0x72, 0x76, 0x0A] ++
   [0xB7, 0x36, 0x17, 0xDE, 0x4A, 0x96, 0x26, 0x2C, 0x6F, 0x5D, 0x9E, 0x98, 0xBF, 0x92, 0x92, 0xDC] ++
   [0x29, 0xF8, 0xF4, 0x1D, 0xBD, 0x28, 0x9A, 0x14, 0x7C, 0xE9, 0xDA, 0x31, 0x13, 0xB5, 0xF0, 0xB8] ++
   [0xC0, 0x0A, 0x60, 0xB1, 0xCE, 0x1D, 0x7E, 0x81, 0x9D, 0x7A, 0x43, 0x1D, 0x7C, 0x90, 0xEA, 0x0E] ++ [0x5F])

theorem bufG_wf : Memory.wf bufG := by
  unfold bufG
  exact wf_writeBytes _ _ nil_wf _

/-- The state after reset with a string in `BUF` and a length. -/
def withBuf (m : Memory) (n : Byte) : State := { State.reset with buf := m, len := n }

/-- K1: the 97 bytes of `G`. -/
theorem test_penc_g :
    runs (withPts regG regInf) 0x00000040 (fun t =>
      t.buf == bufG && t.len == 97#8 && t.statusWord == 0x00000002#32) = true := by
  decide +kernel

/-- R177: `OperandInfinity`, nothing written. -/
theorem test_penc_inf :
    runs State.reset 0x00000040 (fun t =>
      t.buf == [] && t.len == 0#8 && t.statusWord == 0x00002006#32) = true := by
  decide

/-- K2: the round trip. -/
theorem test_pdec_g :
    runs (withBuf bufG 97#8) 0x00000141 (fun t =>
      t.pt.get 1 == regG && t.buf == bufG && t.len == 97#8 && t.statusWord == 0x00000002#32) = true := by
  decide +kernel

/-- K6: `y = Gy + 1` is not on the curve, nothing written. -/
theorem test_pdec_off :
    runs (withBuf (Memory.write bufG 96 0x60#8) 97#8) 0x00000141 (fun t =>
      t.pt == State.reset.pt && t.buf == Memory.write bufG 96 0x60#8 && t.statusWord == 0x00001306#32) = true := by
  decide +kernel

/-- R147: the 48 bytes of `Gx`, the rest of `BUF` kept. -/
theorem test_xenc_g :
    runs ((withPts regG regInf).putString (List.replicate 97 0x5A#8) 97#8) 0x00000042 (fun t =>
      Memory.read t.buf 0 == 0xAA#8 && Memory.read t.buf 47 == 0xB7#8 && Memory.read t.buf 48 == 0x5A#8 &&
        Memory.read t.buf 96 == 0x5A#8 && t.len == 48#8 && t.statusWord == 0x00000002#32) = true := by
  decide +kernel

/-- E13 with R175: `FLDC` with `c = 9` ends in `IllegalCommand`. -/
theorem test_illegal_word :
    runs State.reset 0x00090113 (fun t =>
      t.f == State.reset.f && t.statusWord == 0x00000106#32) = true := by
  decide

/-! ### The bus -/

/-- K1: the bus words of `BUF`, and the reads of `BUF` and the constant table while a command is pending (R62). -/
theorem test_bus_reads :
    (withBuf bufG 97#8).hostRead (wordAddr 0x100) = 0xCA87AA04#32 ∧
    (withBuf bufG 97#8).hostRead (wordAddr 0x160) = 0x0000005F#32 ∧
    State.hostRead { withBuf bufG 97#8 with busy := true } (wordAddr 0x100) = 0#32 ∧
    State.hostRead { withBuf bufG 97#8 with busy := true } (wordAddr 0x800) = 0xFFFFFFFF#32 ∧
    State.reset.hostRead (wordAddr 0x000) = 0x50333834#32 := by decide +kernel

/-- R58, R61: word 11 of `f[7]` is its top word; while a command is pending the same write only sets `OVR`. -/
theorem test_bus_writes :
    (State.reset.hostWrite (wordAddr 0x3EC) 0x80000001#32).f.get 7 = BitVec.ofNat 384 (0x80000001 * 2 ^ 352) ∧
    (State.hostWrite { State.reset with busy := true } (wordAddr 0x3EC) 0x80000001#32) =
      { State.reset with busy := true, ovr := true } := by decide +kernel

/-! ### Another record, and host programs -/

/-- A small record: `y^2 = x^3 + x + 1` modulo 7, with the point `(0, 1)`. -/
def small : CurveParameters := ⟨7, 1, 1, 5, 0, 1⟩

/-- R7: the machine of another record loads that record's generator and shows its constants; the machine of the default
record is the core. -/
theorem test_other_record :
    runs (State.resetWith small) 0x00000125 (fun t => t.pt.get 1 == ⟨0#384, 1#384, false⟩ && t.curve == small) = true ∧
    (State.resetWith small).hostRead (wordAddr 0x800) = 7#32 ∧ coreWith Config.curve = Sys2Proof.core :=
  ⟨by decide +kernel, by decide +kernel, rfl⟩

/-- R212, R214: `STATUS` read after a command and before its `WAIT` is `BUSY` or `DONE`, as the command has completed or not;
the program ends with `BUSY = 0`. -/
theorem test_program_order :
    (∀ n ∈ [[2, 1], [1, 0], [0, 0]], ∃ t : State, runLines [.cmd (.pldg 3), .rd (wordAddr 0x008)] n State.reset =
      .next ⟨t, false, [if n = [2, 1] then 0x00000001#32 else 0x00000002#32]⟩ ∧ t.busy = false) := by
  intro n hn
  simp only [List.mem_cons, List.not_mem_nil, or_false] at hn
  rcases hn with rfl | rfl | rfl <;> exact ⟨_, rfl, rfl⟩

/-- R166: the words of the bytes 0x00 to 0x2F, word 0 from the last four, and back. -/
theorem test_scalar_bytes :
    let bs : List Byte := (List.range 48).map (BitVec.ofNat 8)
    scalarWord bs 0 = 0x2C2D2E2F#32 ∧ scalarWord bs 11 = 0x00010203#32 ∧
    scalarBytes ((List.range 12).map (scalarWord bs)) = bs := by decide +kernel

/-- R63: a 97-byte string is 25 word writes, the last at 0x160. Of a longer one log entry 18 keeps those 25. -/
theorem test_write_buf :
    (writeBuf (List.replicate 97 0x11#8)).length = 25 ∧
    (writeBuf (List.replicate 97 0x11#8)).getLast? = some (.write (wordAddr 0x160) 0x00000011#32) ∧
    (writeBuf (List.replicate 300 0x11#8)).length = 25 := by decide +kernel

/-! ### Witnesses for the hypotheses of the obligations -/

/-- An idle engine with a schedule. -/
def idle (es : List Event) : State := { State.reset with inputs := es }

/-- A pending command with a schedule. -/
def pend (w : Word) (es : List Event) : State := { State.reset with busy := true, cur := w, inputs := es }

/-- The row of `FLDC` at its highest index, and two words no row matches: one index above, and the reset value of `CMD`. -/
theorem witness_DecodeReadsTheOpcodeTable :
    (∃ r ∈ Spec.opcodeRows, Spec.rowMatches r 0x00080113#32) ∧
    (∀ r ∈ Spec.opcodeRows, ¬ Spec.rowMatches r 0x00090113#32) ∧
    (∀ r ∈ Spec.opcodeRows, ¬ Spec.rowMatches r 0x00000000#32) := by
  unfold Spec.rowMatches
  decide

theorem witness_DecodeEncodeAgree :
    (Instr.fldc 7 8).WellFormed ∧ (Instr.smul 3 3 7).WellFormed ∧ decode 0x00073330#32 = .legal (.smul 3 3 7) := by decide

/-- Each shape of the statement's match at its highest operands. -/
theorem witness_MustBeZeroBitsAreChecked :
    decode 0x00077710#32 = .legal (.montmul 7 7 7) ∧ decode 0x00007712#32 = .legal (.modinv 7 7) ∧
    decode 0x00080713#32 = .legal (.fldc 7 8) ∧ decode 0x00003320#32 = .legal (.pdbl 3 3) ∧
    decode 0x00033321#32 = .legal (.padd 3 3 3) ∧ decode 0x00003023#32 = .legal (.pisinf 3) ∧
    decode 0x00000325#32 = .legal (.pldg 3) ∧ decode 0x00073330#32 = .legal (.smul 3 3 7) := by decide

theorem witness_StepRunsTheDecodedCommand :
    (pend 0x00000325#32 []).busy = true ∧ Spec.enginesTurn (pend 0x00000325#32 []) ∧
    Spec.enginesTurn (pend 0x00000325#32 [.engine, .reset]) ∧
    decode (pend 0x00000325#32 [.engine, .reset]).cur = .legal (.pldg 3) ∧
    decode (BitVec.ofNat 32 (0x00000325 % 2 ^ 32)) = .legal (.pldg 3) :=
  ⟨rfl, .inl rfl, .inr rfl, by decide, by decide⟩

theorem witness_IllegalWordEndsInIllegalCommand :
    (pend 0x00090113#32 []).busy = true ∧ Spec.enginesTurn (pend 0x00090113#32 []) ∧
    (∀ r ∈ Spec.opcodeRows, ¬ Spec.rowMatches r (pend 0x00090113#32 []).cur) :=
  ⟨rfl, .inl rfl, witness_DecodeReadsTheOpcodeTable.2.1⟩

theorem witness_IdleEngineDoesNothing :
    (idle []).busy = false ∧ Spec.enginesTurn (idle []) ∧ Spec.enginesTurn (idle [.engine, .read 0]) :=
  ⟨rfl, .inl rfl, .inr rfl⟩

theorem witness_AcceptanceLatchesTheWord :
    4 * (3#10 : WordAddr).toNat = 0x00C ∧ (idle [.write 3 5]).inputs = .write 3 5 :: [] ∧ (idle [.write 3 5]).busy = false ∧
    (pend 7 [.write 3 5]).inputs = .write 3 5 :: [] ∧ (pend 7 [.write 3 5]).busy = true := by decide

/-- The first offset, the last, the one below and the one above the two control registers, and those two. -/
theorem witness_WritesWhileBusyAreDropped :
    (pend 7 [.write 0 5]).busy = true ∧ (pend 7 [.write 0 5]).inputs = .write 0 5 :: [] ∧
    (∀ w ∈ ([0, 3, 0x3FF] : List WordAddr), 4 * w.toNat ≠ 0x004 ∧ 4 * w.toNat ≠ 0x008) ∧
    4 * (1#10 : WordAddr).toNat = 0x004 ∧ 4 * (2#10 : WordAddr).toNat = 0x008 := by decide

/-- Both ends of every data window, the readable registers, the first and last word of the constant table. -/
theorem witness_ReadsWhileBusy :
    (pend 7 [.read 0]).busy = true ∧ (pend 7 [.read 0]).inputs = .read 0 :: [] ∧
    (∀ o ∈ [0x100, 0x160, 0x200, 0x3FC, 0x400, 0x5FC], Spec.dataWindow (4 * (wordAddr o).toNat)) ∧
    (∀ o ∈ [0x000, 0x004, 0x008, 0x00C, 0x010], 4 * (wordAddr o).toNat = o) ∧
    4 * (wordAddr 0x800).toNat = 0x800 + 0x40 * (0 : Fin 9).val + 4 * (0 : Fin 12).val ∧
    4 * (wordAddr 0xA2C).toNat = 0x800 + 0x40 * (8 : Fin 9).val + 4 * (11 : Fin 12).val := by
  unfold Spec.dataWindow
  decide

theorem witness_ReadsHaveNoSideEffect :
    (idle [.read 0x3FF, .read 0x3FF]).inputs = .read 0x3FF :: [.read 0x3FF] ∧
    ([.read 0x3FF] : List Event).head? = some (.read 0x3FF) := by decide

theorem witness_StatusRegister :
    4 * (2#10 : WordAddr).toNat = 0x008 ∧ (pend 7 [.read 2]).inputs = .read 2 :: [] ∧
    (idle [.write 2 0xA]).inputs = .write 2 0xA :: [] := by decide

theorem witness_ControlRegisters :
    (∀ o ∈ [0x000, 0x004, 0x00C, 0x010], 4 * (wordAddr o).toNat = o) ∧ (idle [.read 4]).inputs = .read 4 :: [] ∧
    (idle [.write 4 0x161]).inputs = .write 4 0x161 :: [] ∧ (idle [.write 4 0x161]).busy = false ∧
    (pend 7 [.write 4 0x161]).inputs = .write 4 0x161 :: [] ∧ (pend 7 [.write 4 0x161]).busy = true := by decide

/-- The first and the last word of the field registers, and both ends of the reserved words of a slot. -/
theorem witness_FieldRegisterWindow :
    (idle []).busy = false ∧ 4 * (wordAddr 0x200).toNat = 0x200 + 0x40 * (0 : FReg).val + 4 * (0 : Fin 12).val ∧
    4 * (wordAddr 0x3EC).toNat = 0x200 + 0x40 * (7 : FReg).val + 4 * (11 : Fin 12).val ∧
    4 * (wordAddr 0x230).toNat = 0x200 + 0x40 * (0 : FReg).val + 0x30 + 4 * (0 : Fin 4).val ∧
    4 * (wordAddr 0x3FC).toNat = 0x200 + 0x40 * (7 : FReg).val + 0x30 + 4 * (3 : Fin 4).val ∧
    (idle [.read (wordAddr 0x3EC)]).inputs = .read (wordAddr 0x3EC) :: [] ∧
    (idle [.write (wordAddr 0x3EC) 5]).inputs = .write (wordAddr 0x3EC) 5 :: [] := by decide

/-- The first and the last word of `.x` and `.y` and the word of `.inf`, of the last point register. -/
theorem witness_PointRegisterWindow :
    (idle []).busy = false ∧ 4 * (wordAddr 0x580).toNat = 0x400 + 0x80 * (3 : PReg).val + 4 * (0 : Fin 12).val ∧
    4 * (wordAddr 0x5AC).toNat = 0x400 + 0x80 * (3 : PReg).val + 4 * (11 : Fin 12).val ∧
    4 * (wordAddr 0x5C0).toNat = 0x400 + 0x80 * (3 : PReg).val + 0x40 + 4 * (0 : Fin 12).val ∧
    4 * (wordAddr 0x5EC).toNat = 0x400 + 0x80 * (3 : PReg).val + 0x40 + 4 * (11 : Fin 12).val ∧
    4 * (wordAddr 0x5F0).toNat = 0x400 + 0x80 * (3 : PReg).val + 0x70 ∧
    4 * (wordAddr 0x5B0).toNat = 0x400 + 0x80 * (3 : PReg).val + 0x30 ∧
    4 * (wordAddr 0x5FC).toNat = 0x400 + 0x80 * (3 : PReg).val + 0x7C ∧
    (idle [.read (wordAddr 0x5F0)]).inputs = .read (wordAddr 0x5F0) :: [] ∧
    (idle [.write (wordAddr 0x5F0) 5]).inputs = .write (wordAddr 0x5F0) 5 :: [] := by decide

/-- The first word of `BUF`, the last full one, and word 24. -/
theorem witness_BufferWindow :
    (withBuf bufG 97#8).busy = false ∧ (withBuf bufG 97#8).buf.wf ∧
    4 * (wordAddr 0x100).toNat = 0x100 + 4 * (0 : Fin 25).val ∧ 4 * (wordAddr 0x15C).toNat = 0x100 + 4 * (23 : Fin 25).val ∧
    4 * (wordAddr 0x160).toNat = 0x100 + 4 * (24 : Fin 25).val ∧
    (idle [.read (wordAddr 0x160)]).inputs = .read (wordAddr 0x160) :: [] ∧
    (idle [.write (wordAddr 0x160) 5]).inputs = .write (wordAddr 0x160) 5 :: [] :=
  ⟨rfl, bufG_wf, by decide, by decide, by decide, rfl, rfl⟩

/-- The last constant word, the first and the last reserved word of the last slot. -/
theorem witness_ConstantTableWindow :
    4 * (wordAddr 0xA2C).toNat = 0x800 + 0x40 * (8 : Fin 9).val + 4 * (11 : Fin 16).val ∧ (11 : Fin 16).val < 12 ∧
    4 * (wordAddr 0xA30).toNat = 0x800 + 0x40 * (8 : Fin 9).val + 4 * (12 : Fin 16).val ∧ 12 ≤ (12 : Fin 16).val ∧
    4 * (wordAddr 0xA3C).toNat = 0x800 + 0x40 * (8 : Fin 9).val + 4 * (15 : Fin 16).val ∧
    (idle [.read (wordAddr 0xA2C)]).inputs = .read (wordAddr 0xA2C) :: [] ∧
    (pend 7 [.write (wordAddr 0xA3C) 5]).inputs = .write (wordAddr 0xA3C) 5 :: [] := by decide

/-- Both ends of every reserved range. -/
theorem witness_ReservedWords :
    (∀ o ∈ [0x014, 0x0FC, 0x164, 0x1FC, 0x230, 0x23C, 0x3F0, 0x3FC, 0x430, 0x43C, 0x474, 0x47C, 0x5F4, 0x5FC, 0x600, 0x7FC,
      0x830, 0x83C, 0xA30, 0xA3C, 0xA40, 0xFFC], Spec.reservedOffset (4 * (wordAddr o).toNat)) ∧
    (idle [.read (wordAddr 0xFFC)]).inputs = .read (wordAddr 0xFFC) :: [] ∧
    (pend 7 [.write (wordAddr 0xFFC) 5]).inputs = .write (wordAddr 0xFFC) 5 :: [] := by
  unfold Spec.reservedOffset
  decide

theorem witness_InterruptOutput :
    (pend 0x00000325#32 []).busy = true ∧ Spec.enginesTurn (pend 0x00000325#32 []) ∧
    (pend 0x00000325#32 []).done = false ∧ (∃ t, step (pend 0x00000325#32 []) = .next t ∧ t.done = true) ∧
    (idle [.write 2 2]).inputs = .write 2 2 :: [] ∧ 4 * (2#10 : WordAddr).toNat = 0x008 ∧
    (2#32 : Word).getLsbD 1 = true ∧ 4 * (3#10 : WordAddr).toNat = 0x00C ∧ (idle [.write 3 2]).busy = false ∧
    4 * (1#10 : WordAddr).toNat = 0x004 ∧ (0xFFFFFFFE#32 : Word).getLsbD 0 = false ∧
    (pend 7 [.reset]).inputs = .reset :: [] :=
  ⟨rfl, .inl rfl, rfl, ⟨_, rfl, rfl⟩, rfl, by decide, by decide, by decide, rfl, by decide, by decide, rfl⟩

theorem witness_ResetWritesEverything : (pend 7 [.reset, .read 2]).inputs = .reset :: [.read 2] := rfl

theorem witness_ResetAbandonsThePendingCommand :
    (pend 7 [.reset, .engine, .engine, .read 2]).busy = true ∧
    (pend 7 [.reset, .engine, .engine, .read 2]).inputs = .reset :: (List.replicate 2 .engine ++ [.read 2]) ∧
    (∃ t, step (pend 7 [.reset]) = .next t ∧ t.busy = false) ∧ ∃ t, step (pend 7 []) = .next t ∧ t.busy = false :=
  ⟨rfl, rfl, ⟨_, rfl, rfl⟩, ⟨_, rfl, rfl⟩⟩

theorem witness_ResetWins :
    (idle [.write 3 0x00000325#32, .reset]).inputs = .write 3 0x00000325#32 :: .reset :: [] ∧
    (pend 0x00000325#32 [.engine, .reset]).inputs = .engine :: .reset :: [] := by decide

theorem witness_PendingCommandIsFrozen :
    (pend 7 [.read 2, .write 0x80 5, .engine]).busy = true ∧
    (∀ e ∈ ([.read 2, .write 0x80 5] : List Event), (∃ w, e = .read w) ∨ (∃ w v, e = .write w v)) ∧
    (pend 7 [.read 2, .write 0x80 5, .engine]).inputs = [.read 2, .write 0x80 5] ++ [.engine] := by
  refine ⟨rfl, fun e he => ?_, rfl⟩
  rcases List.mem_cons.1 he with rfl | he
  · exact .inl ⟨2, rfl⟩
  · exact .inr ⟨0x80, 5, List.mem_singleton.1 he⟩

/-- A state with a pending command has the invariant, and its step answers a next state. -/
theorem witness_StepKeepsTheInvariant :
    (pend 0x00000325#32 []).Inv ∧ ∃ t, step (pend 0x00000325#32 []) = .next t :=
  ⟨⟨nil_wf, by decide, by decide, by decide, by decide⟩, ⟨_, rfl⟩⟩

/-- An illegal word, and a legal command whose operand is infinity. -/
theorem witness_FailedCommandsChangeNoData :
    (∃ t, step (pend 0x00000000#32 []) = .next t ∧ t.err = true) ∧
    (pend 0x00000040#32 []).busy = true ∧ Spec.enginesTurn (pend 0x00000040#32 []) ∧
    ∃ t, step (pend 0x00000040#32 []) = .next t ∧ t.err = true :=
  ⟨⟨_, rfl, rfl⟩, rfl, .inl rfl, ⟨_, rfl, rfl⟩⟩

/-- Both reports that the second clause tells apart, and the acceptance of the first. -/
theorem witness_FlagsFollowTheTable :
    4 * (3#10 : WordAddr).toNat = 0x00C ∧ (idle [.write 3 5]).busy = false ∧
    (idle [.write 3 5]).inputs = .write 3 5 :: [] ∧ (∃ t, exec (.penc 0) State.reset = .next t ∧ t.err = true) ∧
    ∃ t, exec (.pldg 3) State.reset = .next t ∧ t.err = false :=
  ⟨by decide, rfl, rfl, ⟨_, rfl, rfl⟩, ⟨_, rfl, rfl⟩⟩

/-- The record of the reset state, with the number R10 gives. -/
theorem witness_MontmulResult :
    Nat.Prime State.reset.curve.p ∧ 2 ^ 384 * Spec.rinv % State.reset.curve.p = 1 := ⟨curve_p_prime, by decide +kernel⟩

/-- The record of every state these tests use meets what the statements ask of one. -/
theorem witness_fits : Spec.fits State.reset.curve :=
  ⟨curve_p_prime, curve_p_odd, curve_p_lt, by decide +kernel⟩

/-- Zero, `p` itself, and the last residue. -/
theorem witness_ModinvResult :
    Spec.fits (withF 0#384).curve ∧ ((withF 0#384).f.get 0).toNat % (withF 0#384).curve.p = 0 ∧
    ((withF (BitVec.ofNat 384 Spec.p)).f.get 0).toNat % (withF 0#384).curve.p = 0 ∧
    ((withF (BitVec.ofNat 384 (Spec.p - 1))).f.get 0).toNat % (withF 0#384).curve.p ≠ 0 :=
  ⟨witness_fits, by decide +kernel⟩

theorem witness_FldcResult :
    (0 : ConstIx).val ≤ 8 ∧ (8 : ConstIx).val ≤ 8 ∧ (0x00090113#32 : Word).toNat % 2 ^ 8 = 0x13 ∧
    8 < (0x00090113#32 : Word).toNat / 2 ^ 16 % 16 := by decide

/-- Infinity, `y = p`, and `G`. -/
theorem witness_PdblResult :
    Spec.fits (withPts regInf regG).curve ∧ ((withPts regInf regG).pt.get 0).inf = true ∧ ((withPts ⟨5#384, BitVec.ofNat 384 Spec.p, false⟩ regG).pt.get 0).inf = false ∧
    ((withPts ⟨5#384, BitVec.ofNat 384 Spec.p, false⟩ regG).pt.get 0).y.toNat % State.reset.curve.p = 0 ∧
    ((withPts regG regG).pt.get 0).inf = false ∧ ((withPts regG regG).pt.get 0).y.toNat % State.reset.curve.p ≠ 0 :=
  ⟨witness_fits, by decide +kernel⟩

/-- Each case of R114: both infinite, one infinite, equal `x` with other `y`, equal with `y = 0`, equal, other `x`. -/
theorem witness_PaddResult :
    Spec.fits (withPts regInf regInf).curve ∧ ((withPts regInf regInf).pt.get 0).inf = true ∧ ((withPts regInf regInf).pt.get 1).inf = true ∧
    ((withPts regInf regG).pt.get 1).inf = false ∧ ((withPts regG regInf).pt.get 0).inf = false ∧
    (let q : PointReg := ⟨5#384, 0#384, false⟩
     let r : PointReg := ⟨5#384, BitVec.ofNat 384 Spec.p, false⟩
     let s : PointReg := ⟨5#384, 1#384, false⟩
     q.x.toNat % State.reset.curve.p = s.x.toNat % State.reset.curve.p ∧ q.y.toNat % State.reset.curve.p ≠ s.y.toNat % State.reset.curve.p ∧
     q.y.toNat % State.reset.curve.p = r.y.toNat % State.reset.curve.p ∧ q.y.toNat % State.reset.curve.p = 0 ∧ s.y.toNat % State.reset.curve.p ≠ 0 ∧
     q.x.toNat % State.reset.curve.p ≠ regG.x.toNat % State.reset.curve.p) := ⟨witness_fits, by decide +kernel⟩

theorem witness_PnegResult :
    0 < (withPts regInf regG).curve.p ∧ ((withPts regInf regG).pt.get 0).inf = true ∧
    ((withPts regInf regG).pt.get 1).inf = false := by decide +kernel

/-- Infinity, `G` on the curve, `(0, 0)` off it. -/
theorem witness_PchkResult :
    ((withPts regInf regG).pt.get 0).inf = true ∧ ((withPts regInf regG).pt.get 1).inf = false ∧
    Spec.onCurve State.reset.curve ((withPts regInf regG).pt.get 1).x.toNat ((withPts regInf regG).pt.get 1).y.toNat ∧
    ¬ Spec.onCurve State.reset.curve 0 0 := by
  unfold Spec.onCurve
  decide +kernel

/-- Scalar 0 gives `INF` and scalar 1 gives a pair. -/
theorem witness_SmulResult :
    0 < State.reset.curve.p ∧ ((List.range 384).reverse.foldl (fun acc i =>
      if (0#384).getLsbD i then ptAdd State.reset.curve (ptDbl State.reset.curve acc) (Spec.val regG)
      else ptDbl State.reset.curve acc) Point.inf = .inf) ∧
    ((List.range 384).reverse.foldl (fun acc i =>
      if (1#384).getLsbD i then ptAdd State.reset.curve (ptDbl State.reset.curve acc) (Spec.val regG)
      else ptDbl State.reset.curve acc) Point.inf = .aff Spec.gx Spec.gy) := by decide +kernel

theorem witness_PencResult :
    (withPts regInf regG).buf.wf ∧ ((withPts regInf regG).pt.get 0).inf = true ∧
    ((withPts regInf regG).pt.get 1).inf = false := ⟨nil_wf, by decide, by decide⟩

theorem witness_XencResult :
    (withBuf bufG 97#8).buf.wf ∧ ((withBuf bufG 97#8).pt.get 0).inf = true ∧
    ((withPts regInf regG).pt.get 1).inf = false := ⟨bufG_wf, by decide, by decide⟩

/-- `BUF` with the encoding of `G` and `LEN = 97` meets the four checks. -/
theorem witness_decodable : Spec.decodable (withBuf bufG 97#8) := by
  unfold Spec.decodable Spec.onCurve Spec.coordinate
  decide +kernel

/-- One string for each check that fails: the lengths 96 and 98, the tag 0x05, `x = 2^384 - 1`, `y = Gy + 1`; and one that
passes. -/
theorem witness_PdecResult :
    (withBuf bufG 96#8).len ≠ 97#8 ∧ (withBuf bufG 98#8).len ≠ 97#8 ∧ (withBuf bufG 97#8).len = 97#8 ∧
    Memory.read (Memory.write bufG 0 0x05#8) 0 ≠ 0x04#8 ∧ Memory.read bufG 0 = 0x04#8 ∧
    Memory.read (Memory.writeBytes bufG 1 (List.replicate 48 0xFF#8)) 0 = 0x04#8 ∧
    State.reset.curve.p ≤ Spec.coordinate (Memory.writeBytes bufG 1 (List.replicate 48 0xFF#8)) 1 ∧
    Spec.coordinate (Memory.write bufG 96 0x60#8) 1 < State.reset.curve.p ∧ Spec.coordinate (Memory.write bufG 96 0x60#8) 49 < State.reset.curve.p ∧
    ¬ Spec.onCurve State.reset.curve (Spec.coordinate (Memory.write bufG 96 0x60#8) 1) (Spec.coordinate (Memory.write bufG 96 0x60#8) 49) := by
  unfold Spec.onCurve Spec.coordinate
  decide +kernel

/-- 0 and `p` are congruent and differ. -/
theorem witness_CongruentOperandsGiveOneResult :
    0 < (withF 0#384).curve.p ∧ (withF (BitVec.ofNat 384 Spec.p)).curve = (withF 0#384).curve ∧
    ((withF 0#384).f.get 0).toNat % State.reset.curve.p = ((withF (BitVec.ofNat 384 Spec.p)).f.get 0).toNat % State.reset.curve.p ∧
    (withF 0#384).f.get 0 ≠ (withF (BitVec.ofNat 384 Spec.p)).f.get 0 ∧
    Instr.modinv 1 0 ∈ [Instr.montmul 1 0 0, .modmul 1 0 0, .modinv 1 0] := by decide +kernel

theorem witness_PointFunctionsNormalise : 0 < small.p := by decide

theorem witness_InfinityCoordinatesAreNotRead :
    ((State.reset.setPt 3 ⟨5#384, 7#384, true⟩).pt.get 3).inf = true := by decide

/-- 3 is prime and above 2; 3 is divisible by it and 2 is not. -/
theorem witness_FinvIsTheInverse :
    Nat.Prime (CurveParameters.p ⟨3, 0, 0, 0, 0, 0⟩) ∧ 2 < (3 : Nat) ∧ (3 : Int) % (3 : Nat) = 0 ∧ (2 : Int) % (3 : Nat) ≠ 0 ∧
    (2 : Nat) < 3 ∧ (2 : Int) * (2 : Nat) % (3 : Nat) = 1 :=
  ⟨Nat.prime_three, by decide, by decide, by decide, by decide, by decide⟩

theorem witness_MontgomeryIdentities : Nat.Prime small.p ∧ small.p % 2 = 1 := ⟨by norm_num [small], by decide⟩

theorem witness_RedcComputesMontmul : Nat.Prime small.p ∧ small.p % 2 = 1 ∧ small.p < 2 ^ 384 :=
  ⟨by norm_num [small], by decide, by decide +kernel⟩

theorem witness_GroupClosure :
    Nat.Prime small.p ∧ small.p % 2 = 1 ∧ (Point.aff 0 1).InGroup small ∧ Point.inf.InGroup small :=
  ⟨by norm_num [small], by decide, .inr (by decide), .inl rfl⟩

theorem witness_SmulOnSmallScalars : 0 < small.p := by decide

theorem witness_EcdhSymmetry :
    Nat.Prime small.p ∧ small.p % 2 = 1 ∧ (4 * small.a ^ 3 + 27 * small.b ^ 2) % small.p ≠ 0 ∧
    (Point.aff 0 1).InGroup small ∧ 0 < 2 ^ 384 ∧ 2 ^ 384 - 1 < 2 ^ 384 :=
  ⟨by norm_num [small], by decide, by decide, .inr (by decide), by decide +kernel⟩

/-- A pair on the small curve, and the string that encodes it. -/
theorem witness_CodecRoundTrip :
    small.p ≤ 2 ^ 384 ∧ 0 < small.p ∧ 1 < small.p ∧ onCurve small (.aff 0 1) = true ∧ (encPoint 0 1).length = 97 ∧
    decPoint small (encPoint 0 1) 97 = .pair 0 1 := by decide +kernel

theorem witness_MontgomeryConversionSequences :
    Spec.fits (idle []).curve ∧ (idle []).busy = false ∧ (2 : FReg) ≠ 0 := ⟨witness_fits, by decide⟩

theorem witness_PointSequences : Spec.fits (idle []).curve ∧ (idle []).busy = false := ⟨witness_fits, rfl⟩

/-- A string that does not decode; one that does, with a scalar whose product is `INF` and one whose product is a pair. -/
theorem witness_EcdhSequence :
    Spec.fits (idle []).curve ∧ (idle []).busy = false ∧ (idle []).buf.wf ∧ ¬ Spec.decodable (idle []) ∧ (withBuf bufG 97#8).busy = false ∧
    (withBuf bufG 97#8).buf.wf ∧ Spec.decodable (withBuf bufG 97#8) ∧
    smul State.reset.curve 0 (.aff Spec.gx Spec.gy) = .inf ∧
    smul State.reset.curve 1 (.aff Spec.gx Spec.gy) = .aff Spec.gx Spec.gy :=
  ⟨witness_fits, rfl, nil_wf, fun h => absurd h.1 (by decide), rfl, bufG_wf, witness_decodable, by decide +kernel,
    by decide +kernel⟩

theorem witness_ScalarSequences :
    (idle []).busy = false ∧ (List.replicate 48 0xFF#8 : List Byte).length = 48 := by decide


end Sys2Proof.Tests
end

section
/-!
PROOFS. The point functions of spec/41_point.md and the multiplier of spec/42_scalar.md are the group law of Mathlib's
Weierstrass curves: a point value of the model represents a point of the curve, and doubling, adding and
multiplying represented points gives the double, the sum and the multiple in the group. From the group follows that a
prime `n` with `n * G = INF` is the order of `G` (spec/00_scope.md R8).
-/

namespace Sys2Proof.Proofs

open Sys2Proof.Machine Sys2Proof.Laws
open WeierstrassCurve
open WeierstrassCurve.Affine.Point (some)

/-! ### The curve of a record and the points its point values represent -/

/-- The curve `y^2 = x^3 + a*x + b` over the integers modulo `p` of a record (R112). -/
def weierstrass (c : CurveParameters) : Affine (ZMod c.p) := ⟨0, 0, 0, c.a, c.b⟩

/-- The point value `q` represents the curve's point `P`: `INF` the zero of the group, a pair the point of its residues. -/
def Represents (c : CurveParameters) : Point → (weierstrass c).Point → Prop
  | .inf, P => P = 0
  | .aff x y, P => ∃ h : (weierstrass c).Nonsingular x y, P = some (x : ZMod c.p) (y : ZMod c.p) h

variable {c : CurveParameters}

theorem represents_inf : Represents c .inf 0 := rfl

theorem represents_aff {x y : Nat} (h : (weierstrass c).Nonsingular x y) : Represents c (.aff x y) (some _ _ h) :=
  ⟨h, rfl⟩

/-- `INF` is the one point value that represents zero. -/
theorem Represents.eq_inf_iff {q : Point} {P : (weierstrass c).Point} (h : Represents c q P) : q = .inf ↔ P = 0 := by
  cases q with
  | inf => exact iff_of_true rfl h
  | aff x y =>
    obtain ⟨hns, rfl⟩ := h
    exact iff_of_false Point.noConfusion (Affine.Point.some_ne_zero hns)

@[simp] theorem weierstrass_negY (x y : ZMod c.p) : (weierstrass c).negY x y = -y := by
  simp [weierstrass, Affine.negY]

/-- `on_curve` is the equation of the curve (R112). -/
theorem onCurve_iff_equation (hp : 0 < c.p) (x y : Nat) :
    onCurve c (.aff x y) = true ↔ (weierstrass c).Equation x y := by
  rw [onCurve_iff hp, Affine.equation_iff]
  simp [weierstrass]

theorem two_ne_zero_zmod (h2 : 2 < c.p) : (2 : ZMod c.p) ≠ 0 := by
  exact_mod_cast (ZMod.natCast_eq_zero_iff 2 c.p).not.2 (Nat.not_dvd_of_pos_of_lt two_pos h2)

/-- A number is its own negative only at zero, `p` being odd. -/
theorem eq_neg_iff_zmod (hp : Nat.Prime c.p) (h2 : 2 < c.p) (y : ZMod c.p) : y = -y ↔ y = 0 := by
  have : Fact (Nat.Prime c.p) := ⟨hp⟩
  rw [eq_neg_iff_add_eq_zero, ← two_mul, mul_eq_zero_iff_left (two_ne_zero_zmod h2)]

theorem weierstrass_discr : (weierstrass c).Δ = -2 ^ 4 * ((4 * c.a ^ 3 + 27 * c.b ^ 2 : Nat) : ZMod c.p) := by
  simp only [weierstrass, Δ, b₂, b₄, b₆, b₈]
  push_cast
  ring

/-- On a curve without a singular point every point value of the group represents a point. -/
theorem exists_represents (hp : Nat.Prime c.p) (h2 : 2 < c.p)
    (hdiscr : (4 * c.a ^ 3 + 27 * c.b ^ 2) % c.p ≠ 0) {q : Point} (hq : q.InGroup c) : ∃ P, Represents c q P := by
  have : Fact (Nat.Prime c.p) := ⟨hp⟩
  obtain rfl | hon := hq
  · exact ⟨0, represents_inf⟩
  · cases q with
    | inf => cases hon
    | aff x y =>
      have hΔ : (weierstrass c).Δ ≠ 0 := by
        rw [weierstrass_discr, neg_mul, neg_ne_zero]
        exact mul_ne_zero (pow_ne_zero 4 (two_ne_zero_zmod h2))
          ((ZMod.natCast_eq_zero_iff _ _).not.2 fun h => hdiscr (Nat.mod_eq_zero_of_dvd h))
      have heq := (onCurve_iff_equation hp.pos x y).1 hon
      exact ⟨_, represents_aff ((Affine.equation_iff_nonsingular_of_Δ_ne_zero hΔ).1 heq)⟩

/-! ### The point functions compute in the group -/

/-- `pt_norm` changes no class (R111). -/
theorem represents_ptNorm {q : Point} {P : (weierstrass c).Point} (h : Represents c q P) :
    Represents c (ptNorm c q) P := by
  cases q with
  | inf => exact h
  | aff x y => simpa [ptNorm, Represents] using h

variable [Fact (Nat.Prime c.p)]

/-- A point of the chord or tangent of slope `lam` is the sum: the formulas shared by R113 and R114. -/
theorem represents_add_of_slope {x₁ y₁ x₂ y₂ lam x y : Nat} (h₁ : (weierstrass c).Nonsingular x₁ y₁)
    (h₂ : (weierstrass c).Nonsingular x₂ y₂) (hne : ¬((x₁ : ZMod c.p) = x₂ ∧ (y₁ : ZMod c.p) = -y₂))
    (hlam : (lam : ZMod c.p) = (weierstrass c).slope x₁ x₂ y₁ y₂)
    (hx : (x : ZMod c.p) = lam ^ 2 - x₁ - x₂) (hy : (y : ZMod c.p) = lam * (x₁ - x) - y₁) :
    Represents c (.aff x y) (some _ _ h₁ + some _ _ h₂) := by
  rw [← weierstrass_negY (x₂ : ZMod c.p)] at hne
  have hX : (x : ZMod c.p) = (weierstrass c).addX x₁ x₂ ((weierstrass c).slope x₁ x₂ y₁ y₂) := by
    rw [hx, hlam]
    simp [Affine.addX, weierstrass]
  have hY : (y : ZMod c.p) = (weierstrass c).addY x₁ x₂ y₁ ((weierstrass c).slope x₁ x₂ y₁ y₂) := by
    rw [Affine.addY, Affine.negAddY, weierstrass_negY, ← hX, ← hlam, hy]
    ring
  refine ⟨by rw [hX, hY]; exact Affine.nonsingular_add h₁ h₂ hne, ?_⟩
  rw [Affine.Point.add_some hne]
  simp [hX, hY]

/-- `pt_dbl` doubles (R113). -/
theorem represents_ptDbl (h2 : 2 < c.p) {q : Point} {P : (weierstrass c).Point} (h : Represents c q P) :
    Represents c (ptDbl c q) (P + P) := by
  have hp : Nat.Prime c.p := Fact.out
  cases q with
  | inf => cases h; exact add_zero 0
  | aff x y =>
    obtain ⟨hns, rfl⟩ := h
    rw [ptDbl]
    split
    next hy =>
      have hy : (y : ZMod c.p) = 0 := by simpa using (fred_eq_zero_iff hp.pos y).1 hy
      exact Affine.Point.add_self_of_Y_eq (by rw [weierstrass_negY, hy, neg_zero])
    next hy =>
      have hy : (y : ZMod c.p) ≠ 0 := by simpa using (fred_eq_zero_iff hp.pos y).not.1 hy
      have hopp : (y : ZMod c.p) ≠ -y := (eq_neg_iff_zmod hp h2 _).not.2 hy
      refine represents_add_of_slope (lam := dblSlope c x y) hns hns (fun h => hopp h.2) ?_ ?_ ?_
      · rw [Affine.slope_of_Y_ne rfl (by rwa [weierstrass_negY]), weierstrass_negY,
          eq_div_iff (sub_ne_zero.2 hopp)]
        simp only [weierstrass]
        linear_combination dblSlope_zmod hp h2 x hy
      · simp only [fsub_zmod hp.pos, fmul_zmod hp.pos, Int.cast_natCast, Int.cast_ofNat]
        ring
      · simp only [fsub_zmod hp.pos, fmul_zmod hp.pos, Int.cast_natCast, Int.cast_ofNat]

/-- `pt_add` adds (R114). -/
theorem represents_ptAdd (h2 : 2 < c.p) {q r : Point} {P Q : (weierstrass c).Point} (hq : Represents c q P)
    (hr : Represents c r Q) : Represents c (ptAdd c q r) (P + Q) := by
  have hp : Nat.Prime c.p := Fact.out
  cases q with
  | inf =>
    cases hq
    rw [zero_add]
    cases r with
    | inf => exact hr
    | aff x y => exact represents_ptNorm hr
  | aff x₁ y₁ =>
    cases r with
    | inf =>
      cases hr
      rw [add_zero]
      exact represents_ptNorm hq
    | aff x₂ y₂ =>
      have zero_iff (u v : Nat) : fsub c u v = 0 ↔ (u : ZMod c.p) = v := by simpa using fsub_eq_zero_iff hp.pos u v
      have hdbl := represents_ptDbl h2 hq
      obtain ⟨h₁, rfl⟩ := hq
      obtain ⟨h₂, rfl⟩ := hr
      simp only [ptAdd, zero_iff]
      split
      next hx =>
        split
        next hy => simpa [hx, hy] using hdbl
        next hy => exact Affine.Point.add_of_Y_eq hx ((Affine.Y_eq_of_X_eq h₁.1 h₂.1 hx).resolve_left hy)
      next hx =>
        refine represents_add_of_slope (lam := fmul c (fsub c y₂ y₁) (finv c (fsub c x₂ x₁))) h₁ h₂ (fun h => hx h.1)
          ?_ ?_ ?_
        · rw [Affine.slope_of_X_ne hx]
          simp only [fsub_zmod hp.pos, fmul_zmod hp.pos, finv_zmod hp h2, Int.cast_natCast]
          rw [← div_eq_mul_inv, ← neg_sub, ← neg_sub (x₁ : ZMod c.p), neg_div_neg_eq]
        · simp only [fsub_zmod hp.pos, fmul_zmod hp.pos, Int.cast_natCast]
          ring
        · simp only [fsub_zmod hp.pos, fmul_zmod hp.pos, Int.cast_natCast]

/-- The rounds of R130 over the low `i` bits: double `i` times, add the multiple by the low bits. -/
theorem represents_smulLoop (h2 : 2 < c.p) {q : Point} {Q : (weierstrass c).Point} (hq : Represents c q Q) (k i : Nat)
    {acc : Point} {A : (weierstrass c).Point} (hacc : Represents c acc A) :
    Represents c (smulLoop c k q i acc) (2 ^ i • A + (k % 2 ^ i) • Q) := by
  induction i generalizing acc A with
  | zero => simpa [smulLoop, Nat.mod_one] using hacc
  | succ i ih =>
    have low : k % 2 ^ (i + 1) = 2 ^ i * (k.testBit i).toNat + k % 2 ^ i := by
      rw [Nat.mod_pow_succ, Nat.toNat_testBit, Nat.add_comm]
    have regroup (b m : Nat) : 2 ^ (i + 1) • A + (2 ^ i * b + m) • Q = 2 ^ i • (A + A + b • Q) + m • Q := by
      module
    have hdbl := represents_ptDbl h2 hacc
    rw [smulLoop, low, regroup]
    cases k.testBit i with
    | true => simpa using ih (represents_ptAdd h2 hdbl hq)
    | false => simpa using ih hdbl

/-- `smul` is the multiple in the group (R130). -/
theorem represents_smul (h2 : 2 < c.p) {k : Nat} (hk : k < 2 ^ 384) {q : Point} {Q : (weierstrass c).Point}
    (hq : Represents c q Q) : Represents c (smul c k q) (k • Q) := by
  have h := represents_smulLoop h2 hq k 384 represents_inf
  rwa [nsmul_zero, zero_add, Nat.mod_eq_of_lt hk] at h

/-- A prime multiple of a pair that is `INF` is the first one (R8). -/
theorem smul_ne_inf_of_lt_prime (h2 : 2 < c.p) {n : Nat} (hn : Nat.Prime n) (hbound : n < 2 ^ 384) {q : Point}
    {Q : (weierstrass c).Point} (hq : Represents c q Q) (hne : q ≠ .inf) (horder : smul c n q = .inf) {k : Nat}
    (hpos : 0 < k) (hlt : k < n) : smul c k q ≠ .inf := by
  have : Fact (Nat.Prime n) := ⟨hn⟩
  have hord : addOrderOf Q = n :=
    addOrderOf_eq_prime ((represents_smul h2 hbound hq).eq_inf_iff.1 horder) (hq.eq_inf_iff.not.1 hne)
  rw [Ne, (represents_smul h2 (hlt.trans hbound) hq).eq_inf_iff, ← addOrderOf_dvd_iff_nsmul_eq_zero, hord]
  exact Nat.not_dvd_of_pos_of_lt hpos hlt

end Sys2Proof.Proofs
end

section
/-!
PROOFS. The default record (spec/00_scope.md R8 to R10): its constraints and its derived constants.
-/

namespace Sys2Proof.Proofs

open Sys2Proof.Machine Sys2Proof.Laws

/-- The bounds of R8 on the numbers of the record. -/
theorem curve_bounds :
    2 ^ 383 < Config.curve.p ∧ Config.curve.a < Config.curve.p ∧ Config.curve.b < Config.curve.p ∧
      Config.curve.gx < Config.curve.p ∧ Config.curve.gy < Config.curve.p ∧ Config.curve.n < 2 ^ 384 := by
  decide +kernel

/-- The curve has no singular point. -/
theorem curve_discr_ne_zero : (4 * Config.curve.a ^ 3 + 27 * Config.curve.b ^ 2) % Config.curve.p ≠ 0 := by
  decide +kernel

theorem onCurve_gen : onCurve Config.curve (gen Config.curve) = true := by decide +kernel

/-- `n * G = INF` (spec/95_test_vectors.md Z5), evaluated over all 384 bits. -/
theorem smul_n_gen : smul Config.curve Config.curve.n (gen Config.curve) = .inf := by decide +kernel

/-- `n` is the order of `G`: the prime `n` annihilates it, so no smaller multiple of it does (R8). -/
theorem smul_gen_ne_inf {k : Nat} (hpos : 0 < k) (hlt : k < Config.curve.n) :
    smul Config.curve k (gen Config.curve) ≠ .inf := by
  have : Fact (Nat.Prime Config.curve.p) := ⟨curve_p_prime⟩
  obtain ⟨-, -, -, -, -, hn⟩ := curve_bounds
  obtain ⟨G, hG⟩ := exists_represents curve_p_prime curve_p_gt_two curve_discr_ne_zero (.inr onCurve_gen)
  exact smul_ne_inf_of_lt_prime curve_p_gt_two curve_n_prime hn hG Point.noConfusion smul_n_gen hpos hlt

/-- The derived constants of R10 are the numbers listed there. -/
theorem derived_eq_spec :
    rModP Config.curve = Spec.rModP ∧ r2 Config.curve = Spec.r2 ∧ rinv Config.curve = Spec.rinv ∧
      pprime Config.curve = Spec.pprime ∧ n0 Config.curve = 1 ∧ pprime Config.curve % 2 ^ 64 = 0x100000001 := by
  decide +kernel

/-- The constant table of R38 is the model's, for every record. -/
theorem constTable_eq (c : CurveParameters) :
    Spec.constTable c = [c.p, c.a, c.b, c.n, c.gx, c.gy, r2 c, 1, rModP c] := by
  rw [Spec.constTable, r2, rModP, radix_eq]

/-- Settles O55: the numbers by evaluation, `p` and `n` prime by their Lucas chains, and `n` the order of `G` because the
multiplier computes in the group of the curve, where a prime that annihilates `G` is its order. -/
theorem engineCurveIsValid : Obligations.EngineCurveIsValid := by
  obtain ⟨low, ha, hb, hgx, hgy, hn⟩ := curve_bounds
  exact {
    prime := curve_p_prime
    odd := curve_p_odd
    low := low
    high := curve_p_lt
    a := ha
    b := hb
    gx := hgx
    gy := hgy
    gOnCurve := onCurve_gen
    nPos := curve_n_prime.one_lt
    nBound := hn
    order := smul_n_gen
    minimal := fun _ => smul_gen_ne_inf }

/-- Settles O50: the numbers of R9 and R10 by evaluation, the last two identities from the general laws of `pprime` and
`Rinv`, which hold for every record with an odd prime `p`. -/
theorem derivedConstants : Obligations.DerivedConstants := by
  obtain ⟨hr, hr2, hrinv, hpprime, hn0, hlow⟩ := derived_eq_spec
  have hp : Spec.p = Config.curve.p := rfl
  refine ⟨rfl, ?table, hr, hr2, hrinv, hpprime, hn0, hlow, ?redc, ?inverse⟩
  case table =>
    rw [constTable_eq, show State.reset.curve = Config.curve from rfl, hr, hr2]
    rfl
  case redc => rw [hp, ← hpprime, ← radix_eq, p_mul_pprime curve_p_odd]
  case inverse => rw [hp, ← hrinv, ← radix_eq, radix_mul_rinv curve_p_prime curve_p_odd]

end Sys2Proof.Proofs
end

section
/-!
PROOFS. The report and the invariant (spec/10_state.md R35, spec/60_exceptions.md R174): what the ends of the commands, the
host's writes and a reset keep of them.
-/

namespace Sys2Proof.Proofs

open Sys2Proof.Machine Sys2Proof.Laws

/-! ### The invariant, by what ends in it -/

/-- The invariant depends on the buffer and the report alone, and clearing `DONE` keeps it. -/
theorem inv_of_same_report {s t : State} (h : s.Inv) (hbuf : t.buf.wf) (hbusy : t.busy = s.busy)
    (hdone : t.done = true → s.done = true) (herr : t.err = s.err) (hcode : t.errcode = s.errcode)
    (hflags : t.flags = s.flags) : t.Inv where
  bufWf := hbuf
  busyClear hb := by
    obtain ⟨hd, he, hc, hf⟩ := h.busyClear (hbusy ▸ hb)
    exact ⟨Bool.eq_false_iff.2 (Bool.eq_false_iff.1 hd ∘ hdone), herr.trans he, hcode.trans hc, hflags.trans hf⟩
  errIffCode := by rw [herr, hcode]; exact h.errIffCode
  errNoFlags he := hflags.trans (h.errNoFlags (herr ▸ he))
  codeKnown := hcode ▸ h.codeKnown

theorem code_mem_errorCodes (e : ErrorKind) : e.code ∈ errorCodes ∧ e.code ≠ 0x00#8 := by cases e <;> decide

theorem inv_accept {s : State} (hbuf : s.buf.wf) (w : Word) : (s.accept w).Inv where
  bufWf := hbuf
  busyClear _ := ⟨rfl, rfl, rfl, rfl⟩
  errIffCode := by simp
  errNoFlags _ := rfl
  codeKnown := by simp [errorCodes]

theorem inv_succeed {s : State} (hbuf : s.buf.wf) (fl : Flags) : (s.succeed fl).Inv where
  bufWf := hbuf
  busyClear := by simp
  errIffCode := by simp
  errNoFlags := by simp
  codeKnown := by simp [errorCodes]

theorem inv_raise {s : State} (hbuf : s.buf.wf) (e : ErrorKind) : (s.raise e).Inv where
  bufWf := hbuf
  busyClear := by simp
  errIffCode := by simpa using (code_mem_errorCodes e).2
  errNoFlags _ := rfl
  codeKnown := (code_mem_errorCodes e).1

theorem inv_reset : State.reset.Inv := ⟨nil_wf, by decide, by decide, by decide, by decide⟩

theorem inv_resetWith (c : CurveParameters) : (State.resetWith c).Inv :=
  inv_of_same_report inv_reset nil_wf rfl id rfl rfl rfl

/-! ### The invariant through a step -/

/-- Every end of a command has the invariant: of the state before, only the canonical buffer matters. -/
theorem inv_ending {s t : State} (hbuf : s.buf.wf) (h : Ending s t) : t.Inv := by
  cases h with
  | field fd v fl => exact inv_succeed (s := s.setF fd _) hbuf fl
  | point pd q fl => exact inv_succeed (s := s.setPt pd _) hbuf fl
  | string bs n fl => exact inv_succeed (s := s.putString bs n) (wf_writeBytes bs s.buf hbuf 0) fl
  | flagsOnly fl => exact inv_succeed hbuf fl
  | report e => exact inv_raise hbuf e

theorem inv_poke {s : State} (h : s.Inv) (v : Word) (l : Loc) : (s.poke v l).Inv := by
  cases l with
  | cmd => exact inv_accept h.bufWf v
  | buf w => exact inv_of_same_report h (wf_writeBytes _ s.buf h.bufWf _) rfl id rfl rfl rfl
  | status => exact inv_of_same_report h h.bufWf rfl (fun hd => (Bool.and_eq_true_iff.1 hd).1) rfl rfl rfl
  | id | const i j | reserved => exact h
  | ctrl | len | field i j | ptX k j | ptY k j | ptInf k =>
    exact inv_of_same_report h h.bufWf rfl id rfl rfl rfl

theorem inv_hostWrite {s : State} (h : s.Inv) (w : WordAddr) (v : Word) : (s.hostWrite w v).Inv := by
  rw [State.hostWrite]
  split
  · exact inv_of_same_report h h.bufWf rfl id rfl rfl rfl
  · exact inv_poke h v _

/-- What the environment holds is no part of the invariant. -/
theorem inv_setInputs {s : State} (h : s.Inv) (es : List Event) : State.Inv { s with inputs := es } :=
  inv_of_same_report h h.bufWf rfl id rfl rfl rfl

theorem inv_step {s t : State} (h : s.Inv) (hstep : step s = .next t) : t.Inv := by
  rcases step_cases hstep with ⟨es, -, -, hturn⟩ | ⟨w, es, -, rfl⟩ | ⟨w, v, es, -, rfl⟩ | ⟨es, -, rfl⟩
  · rcases engineTurn_cases hturn with ⟨-, rfl⟩ | ⟨-, hend⟩
    · exact inv_setInputs h es
    · exact inv_ending (inv_setInputs h es).bufWf hend
  · exact inv_of_same_report h h.bufWf rfl id rfl rfl rfl
  · exact inv_hostWrite (inv_setInputs h es) w v
  · exact inv_of_same_report (inv_resetWith s.curve) nil_wf rfl id rfl rfl rfl

/-! ### The curve record through a step (R7) -/

theorem poke_curve (s : State) (v : Word) (l : Loc) : (s.poke v l).curve = s.curve := by cases l <;> rfl

theorem hostWrite_curve (s : State) (w : WordAddr) (v : Word) : (s.hostWrite w v).curve = s.curve := by
  rw [State.hostWrite]
  split
  · rfl
  · exact poke_curve s v _

theorem step_curve {s t : State} (hstep : step s = .next t) : t.curve = s.curve := by
  rcases step_cases hstep with ⟨es, -, -, hturn⟩ | ⟨w, es, -, rfl⟩ | ⟨w, v, es, -, rfl⟩ | ⟨es, -, rfl⟩
  · rcases engineTurn_cases hturn with ⟨-, rfl⟩ | ⟨-, hend⟩
    · rfl
    · obtain ⟨-, -, hctl⟩ := ending_control hend
      exact hctl.curve
  · rfl
  · exact hostWrite_curve _ w v
  · rfl

/-- Settles O24: by what one step can do, the invariant of its result comes from the end of a command, from the host's write
or from the reset, each with its own lemma; and none of them writes the record. -/
theorem stepKeepsTheInvariant : Obligations.StepKeepsTheInvariant :=
  ⟨fun _ _ => inv_step, fun _ _ => step_curve⟩

/-- Settles O25: the default record's reset state by evaluation, any other differs from it in the record alone, which
the invariant does not read. -/
theorem resetMeetsTheInvariant : Obligations.ResetMeetsTheInvariant :=
  ⟨inv_reset, inv_resetWith⟩

end Sys2Proof.Proofs
end

section
/-!
PROOFS. The control registers of the window (spec/10_state.md R32 to R37, R41) and the interrupt output (spec/60_exceptions.md
R181).
-/

namespace Sys2Proof.Proofs

open Sys2Proof.Machine Sys2Proof.Laws

/-! ### Reads and writes below 0x100, by offset -/

/-- A read outside the data windows is never masked (R62). -/
theorem step_read_control {s : State} {w : WordAddr} {es : List Event} (h : s.inputs = .read w :: es)
    (hw : 4 * w.toNat < 0x100) : step s = .next { s with inputs := es, rdata := some (s.peek (locate w)) } := by
  have hmask : inDataWindow w = false := by
    rw [inDataWindow, offset, Bool.or_eq_false_iff, decide_eq_false_iff_not, decide_eq_false_iff_not]
    omega
  rw [step_read h, State.hostRead, hmask, Bool.and_false, if_neg Bool.false_ne_true]

/-- A write while no command is pending is not dropped (R61). -/
theorem step_write_idle {s : State} {w : WordAddr} {v : Word} {es : List Event} (h : s.inputs = .write w v :: es)
    (hb : s.busy = false) : step s = .next (State.poke { s with inputs := es } v (locate w)) := by
  rw [step_write h, hostWrite_idle (s := { s with inputs := es }) hb]

/-- A write to another offset than 0x004 and 0x008 while a command is pending is dropped (R61). -/
theorem step_write_dropped {s : State} {w : WordAddr} {v : Word} {es : List Event} (h : s.inputs = .write w v :: es)
    (hb : s.busy = true) (h4 : 4 * w.toNat ≠ 0x004) (h8 : 4 * w.toNat ≠ 0x008) :
    step s = .next { s with inputs := es, ovr := true } := by
  rw [step_write h, hostWrite_dropped (s := { s with inputs := es }) hb (by simp [writableWhileBusy, offset, h4, h8])]

variable {w : WordAddr}

theorem locate_id (h : 4 * w.toNat = 0x000) : locate w = .id := by simp [locate, offset, h]
theorem locate_ctrl (h : 4 * w.toNat = 0x004) : locate w = .ctrl := by simp [locate, offset, h]
theorem locate_status (h : 4 * w.toNat = 0x008) : locate w = .status := by simp [locate, offset, h]
theorem locate_cmd (h : 4 * w.toNat = 0x00C) : locate w = .cmd := by simp [locate, offset, h]
theorem locate_len (h : 4 * w.toNat = 0x010) : locate w = .len := by simp [locate, offset, h]

/-- `CTRL` is written whatever `BUSY` is (R33, R61). -/
theorem step_write_ctrl {s : State} {v : Word} {es : List Event} (h : s.inputs = .write w v :: es)
    (hw : 4 * w.toNat = 0x004) : step s = .next { s with inputs := es, ie := v.getLsbD 0 } := by
  rw [step_write h, hostWrite_control (by simp [writableWhileBusy, offset, hw]), locate_ctrl hw, State.poke]

/-- `STATUS` is written whatever `BUSY` is (R34, R61). -/
theorem step_write_status {s : State} {v : Word} {es : List Event} (h : s.inputs = .write w v :: es)
    (hw : 4 * w.toNat = 0x008) : step s = .next (State.writeStatus { s with inputs := es } v) := by
  rw [step_write h, hostWrite_control (by simp [writableWhileBusy, offset, hw]), locate_status hw, State.poke]

/-- A write to `CMD` while no command is pending is an acceptance (R36, R170). -/
theorem step_write_cmd {s : State} {v : Word} {es : List Event} (h : s.inputs = .write w v :: es)
    (hw : 4 * w.toNat = 0x00C) (hb : s.busy = false) : step s = .next (State.accept { s with inputs := es } v) := by
  rw [step_write_idle h hb, locate_cmd hw, State.poke]

/-! ### `STATUS` (R34) -/

/-- A concatenation as a number. -/
theorem toNat_append_eq_add {m n : Nat} (x : BitVec m) (y : BitVec n) :
    (x ++ y).toNat = x.toNat * 2 ^ n + y.toNat := by
  rw [BitVec.toNat_append, ← Nat.shiftLeft_add_eq_or_of_lt y.isLt, Nat.shiftLeft_eq]

/-- The word `STATUS` reads as, as a number: each field times the weight of its lowest bit. -/
theorem statusWord_toNat (s : State) :
    s.statusWord.toNat = s.busy.toNat + 2 * s.done.toNat + 4 * s.err.toNat + 8 * s.ovr.toNat +
      2 ^ 8 * s.errcode.toNat + 2 ^ 16 * s.flags.inf.toNat + 2 ^ 17 * s.flags.onc.toNat +
      2 ^ 18 * s.flags.noinv.toNat := by
  simp only [State.statusWord, toNat_append_eq_add, BitVec.toNat_ofBool, BitVec.toNat_ofNat]
  omega

/-- A bit cleared where a 1 is written, as R34 words it. -/
theorem and_not_eq_ite (a b : Bool) : (a && !b) = if b then false else a := by cases a <;> cases b <;> rfl

/-- Settles O12: the read is the word of `statusWord_toNat`, the write is `writeStatus` whatever `BUSY` is, the reset value by
evaluation. -/
theorem statusRegister : Obligations.StatusRegister := by
  refine ⟨fun s w es hw h => ?read, fun s w v es hw h => ?write, by decide⟩
  case read =>
    refine ⟨s.statusWord, ?_, statusWord_toNat s⟩
    rw [step_read_control h (by omega), locate_status hw, State.peek]
  case write =>
    rw [step_write_status h hw, State.writeStatus, and_not_eq_ite, and_not_eq_ite]

/-! ### `ID`, `CTRL`, `CMD`, `LEN` (R32, R33, R36, R37) -/

/-- One bit as a word (R31). -/
theorem bitWord_eq_ite (b : Bool) : bitWord b = if b then 1#32 else 0#32 := by cases b <;> rfl

/-- Bits 7:0 of a word as a number (R37). -/
theorem extractLsb'_low_byte (v : Word) : BitVec.extractLsb' 0 8 v = BitVec.ofNat 8 (v.toNat % 256) := by
  apply BitVec.eq_of_toNat_eq
  simp

/-- Settles O13: reads of these offsets are never masked; `CTRL` is written at any time, the others by what stands at the
offset while no command is pending and with `OVR` alone while one is. -/
theorem controlRegisters : Obligations.ControlRegisters := by
  refine ⟨fun s w es h => ⟨?readId, ?readCtrl, ?readCmd, ?readLen⟩,
    fun s w v es h => ⟨?idIdle, ?idBusy, step_write_ctrl h, ?cmdIdle, ?cmdBusy, ?lenIdle, ?lenBusy⟩, rfl, rfl, rfl⟩
  case readId =>
    intro hw
    rw [step_read_control h (by omega), locate_id hw, State.peek, Config.idWord]
  case readCtrl =>
    intro hw
    rw [step_read_control h (by omega), locate_ctrl hw, State.peek, bitWord_eq_ite]
  case readCmd =>
    intro hw
    rw [step_read_control h (by omega), locate_cmd hw, State.peek]
  case readLen =>
    intro hw
    rw [step_read_control h (by omega), locate_len hw, State.peek, BitVec.ofNat_toNat]
  case idIdle =>
    intro hw hb
    rw [step_write_idle h hb, locate_id hw, State.poke]
  case cmdIdle =>
    intro hw hb
    exact ⟨_, step_write_cmd h hw hb, rfl, rfl⟩
  case lenIdle =>
    intro hw hb
    rw [step_write_idle h hb, locate_len hw, State.poke, extractLsb'_low_byte]
  case idBusy | cmdBusy | lenBusy =>
    intro hw hb
    exact step_write_dropped h hb (by omega) (by omega)

/-! ### The interrupt output (R41, R181) -/

/-- The engine's turn on a pending command ends it (R171). -/
theorem engineTurn_ends {s : State} (hb : s.busy = true) : ∃ t, engineTurn s = .next t ∧ Ending s t := by
  obtain ⟨t, ht, -⟩ := handle_answers .engine s
  rcases engineTurn_cases ht with ⟨hidle, -⟩ | ⟨-, hend⟩
  · rw [hb] at hidle
    cases hidle
  · exact ⟨t, ht, hend⟩

/-- No host write sets `DONE` (R34, R181). -/
theorem hostWrite_done {s : State} (hd : s.done = false) (w : WordAddr) (v : Word) : (s.hostWrite w v).done = false := by
  rw [State.hostWrite]
  split
  · exact hd
  · cases locate w with
    | cmd => rfl
    | status => simp [State.poke, hd]
    | id | ctrl | len | buf w | field i j | ptX k j | ptY k j | ptInf k | const i j | reserved => exact hd

/-- Only a completion sets `DONE` (R181). -/
theorem step_sets_done {s t : State} (hstep : step s = .next t) (hd : s.done = false) (ht : t.done = true) :
    s.busy = true ∧ Spec.enginesTurn s := by
  rcases step_cases hstep with ⟨es, -, hturn, heng⟩ | ⟨w, es, -, rfl⟩ | ⟨w, v, es, -, rfl⟩ | ⟨es, -, rfl⟩
  · rcases engineTurn_cases heng with ⟨-, rfl⟩ | ⟨hb, -⟩
    · exact absurd (hd.symm.trans ht) Bool.false_ne_true
    · exact ⟨hb, hturn⟩
  · exact absurd (hd.symm.trans ht) Bool.false_ne_true
  · exact absurd ((hostWrite_done (s := { s with inputs := es }) hd w v).symm.trans ht) Bool.false_ne_true
  · exact absurd ht Bool.false_ne_true

/-- Settles O19: a completion is the end of a command, and every end sets `DONE`; the host's writes and a reset never do, and
clear it or `IE` in the four ways of R181. -/
theorem interruptOutput : Obligations.InterruptOutput := by
  refine ⟨fun _ => rfl, ?completion, fun s t hstep hd ht => step_sets_done hstep hd ht, ?write, ?reset⟩
  case completion =>
    intro s hb hturn
    obtain ⟨t, ht, hend⟩ := engineTurn_ends (s := { s with inputs := s.inputs.tail }) hb
    obtain ⟨-, hdone, hctl⟩ := ending_control hend
    refine ⟨t, (step_turn hturn).trans ht, hdone, ?_⟩
    rw [State.irq, hdone, Bool.and_true, hctl.ie]
  case write =>
    intro s w v es h
    refine ⟨fun hw hv => ⟨_, step_write_status h hw, ?_⟩, fun hw hb => ⟨_, step_write_cmd h hw hb, ?_⟩,
      fun hw hv => ⟨_, step_write_ctrl h hw, ?_⟩⟩
    · simp [State.irq, hv]
    · simp [State.irq]
    · rw [State.irq, hv, Bool.false_and]
  case reset =>
    intro s es h
    exact ⟨_, step_event h, rfl⟩

end Sys2Proof.Proofs
end

section
/-!
PROOFS. What the commands' results depend on: the flags of each command (spec/10_state.md R28), field operands modulo `p`
(R21), and point operands without the coordinates of infinity (R23).
-/

namespace Sys2Proof.Proofs

open Sys2Proof.Machine Sys2Proof.Laws

/-! ### The field functions on register values -/

section FieldFunctions

variable (c : CurveParameters) (u v : Nat)

theorem fmul_nat : fmul c u v = u * v % c.p := by
  rw [fmul, ← Nat.cast_mul, fred_natCast]

theorem fadd_nat : fadd c u v = (u + v) % c.p := by
  rw [fadd, ← Nat.cast_add, fred_natCast]

theorem finv_nat : finv c v = (v % c.p) ^ (c.p - 2) % c.p := by
  rw [finv_eq, fred_natCast]

theorem hasInv_nat : hasInv c v = !decide (v % c.p = 0) := by
  rw [hasInv, fred_natCast, bne, beq_eq_decide]

/-- `on_curve` on register values is the equation of R112, whatever the record. -/
theorem onCurve_iff_spec (x y : Nat) : onCurve c (.aff x y) = true ↔ Spec.onCurve c x y := by
  have hr : (((x * x % c.p * x % c.p + c.a * x % c.p) % c.p + c.b) % c.p) = (x ^ 3 + c.a * x + c.b) % c.p := by
    simp only [Nat.mod_add_mod, Nat.add_mod_mod, Nat.mod_mul_mod, ← pow_two, ← pow_succ]
  simp only [onCurve, beq_iff_eq, fmul_nat, fadd_nat, hr, Spec.onCurve, pow_two]

end FieldFunctions

/-! ### FLAGS (R28) -/

/-- The two clauses of R28 on a command that succeeds: what remains is the table's row `P` of the answered state. -/
theorem succeed_answers {P : State → Prop} {s : State} {fl : Flags} (h : P (s.succeed fl)) :
    ∃ t, (.next (s.succeed fl) : Result) = .next t ∧ (t.err = true → t.flags = ⟨false, false, false⟩) ∧
      (t.err = false → P t) :=
  ⟨_, rfl, fun he => absurd he Bool.false_ne_true, fun _ => h⟩

/-- The two clauses on a command that ends in an error: FLAGS are 0 (R173) and no row `P` applies. -/
theorem raise_answers {P : State → Prop} (s : State) (e : ErrorKind) :
    ∃ t, (.next (s.raise e) : Result) = .next t ∧ (t.err = true → t.flags = ⟨false, false, false⟩) ∧
      (t.err = false → P t) :=
  ⟨_, rfl, fun _ => rfl, fun he => absurd he.symm Bool.false_ne_true⟩

/-- The `.inf` bit stored is the detector of the point written (R116). -/
theorem get_setPt_toReg_inf (s : State) (pd : PReg) (q : Point) (fl : Flags) :
    (((s.setPt pd q.toReg).succeed fl).pt.get pd).inf = q.isInf := by
  have hget : ((s.setPt pd q.toReg).succeed fl).pt.get pd = q.toReg := getPt_setPt_self s pd q.toReg
  rw [hget]
  cases q <;> rfl

/-- A command that writes a point sets the bit it stores as its flag (R116). -/
theorem finishPoint_answers (pd : PReg) (q : Point) (s : State) :
    ∃ t, finishPoint pd q s = .next t ∧ (t.err = true → t.flags = ⟨false, false, false⟩) ∧
      (t.err = false → t.flags = ⟨(t.pt.get pd).inf, false, false⟩) := by
  rw [finishPoint_eq]
  apply succeed_answers
  rw [get_setPt_toReg_inf, succeed_flags]

/-- A command that writes a pair stores `.inf = 0` besides. -/
theorem finishPoint_aff_answers (pd : PReg) (x y : Nat) (s : State) :
    ∃ t, finishPoint pd (.aff x y) s = .next t ∧ (t.err = true → t.flags = ⟨false, false, false⟩) ∧
      (t.err = false → t.flags = ⟨(t.pt.get pd).inf, false, false⟩ ∧ (t.pt.get pd).inf = false) := by
  rw [finishPoint_eq]
  apply succeed_answers
  rw [get_setPt_toReg_inf, succeed_flags]
  exact ⟨rfl, rfl⟩

/-- The flag `ONC` of `PCHK`: a finite point on the curve (R121). -/
theorem onCurve_readPoint_iff (s : State) (ps1 : PReg) :
    onCurve s.curve (s.readPoint ps1) = true ↔
      (s.pt.get ps1).inf = false ∧ Spec.onCurve s.curve (s.pt.get ps1).x.toNat (s.pt.get ps1).y.toNat := by
  cases hinf : (s.pt.get ps1).inf with
  | true => simp [readPoint_inf hinf, onCurve]
  | false => simp [readPoint_aff hinf, onCurve_iff_spec]

/-- Settles O29: an acceptance and an error report write FLAGS 0; the row of each command that succeeds is the flags it hands
to the success report, a point's flag being the bit stored. -/
theorem flagsFollowTheTable : Obligations.FlagsFollowTheTable := by
  refine ⟨fun s w v es hw hb h => ⟨_, step_write_cmd h hw hb, rfl⟩, fun i s => ?_⟩
  cases i with
  | montmul fd fs1 fs2 | modmul fd fs1 fs2 => exact succeed_answers rfl
  | modinv fd fs1 =>
    apply succeed_answers
    simp only [succeed_flags, Flags.ofInverse, hasInv_nat, Bool.not_not, readField_eq]
  | fldc fd c =>
    simp only [exec, execFldc]
    split
    · exact succeed_answers rfl
    · exact raise_answers ..
  | pdbl pd ps1 | padd pd ps1 ps2 | pneg pd ps1 | smul pd ps1 fs2 => exact finishPoint_answers ..
  | pisinf ps1 =>
    apply succeed_answers
    simp only [succeed_flags, Flags.ofPoint, readPoint_isInf, State.getPt]
  | pchk ps1 =>
    apply succeed_answers
    exact ⟨readPoint_isInf s ps1, rfl, onCurve_readPoint_iff s ps1⟩
  | pldg pd => exact finishPoint_aff_answers ..
  | pdec pd =>
    simp only [exec, execPdec]
    split
    · exact raise_answers ..
    · exact finishPoint_aff_answers ..
  | penc ps1 | xenc ps1 =>
    simp only [exec, execPenc, execXenc]
    split
    · exact raise_answers ..
    · exact succeed_answers rfl

/-! ### Field operands count modulo `p` (R21) -/

/-- Two states on which a command writes one value below `p` and one FLAGS. -/
theorem field_result_agrees {s s' : State} {fd : FReg} {v v' p : Nat} {fl fl' : Flags}
    (hv : v = v') (hfl : fl = fl') (hlt : v < p) :
    ∃ t t' : State, (.next ((s.writeField fd v).succeed fl) : Result) = .next t ∧
      (.next ((s'.writeField fd v').succeed fl') : Result) = .next t' ∧ t.f.get fd = t'.f.get fd ∧ t.flags = t'.flags ∧
      (t.f.get fd).toNat < p := by
  subst hv hfl
  have hget (r : State) : ((r.writeField fd v).succeed fl).f.get fd = BitVec.ofNat 384 v := getF_setF_self r fd _
  refine ⟨_, _, rfl, rfl, by rw [hget, hget], rfl, ?_⟩
  rw [hget, BitVec.toNat_ofNat]
  exact (Nat.mod_le _ _).trans_lt hlt

/-- Settles O44: the three field functions and `NOINV` on register values are remainders modulo `p`, and congruent values have
one remainder. -/
theorem congruentOperandsGiveOneResult : Obligations.CongruentOperandsGiveOneResult := by
  intro s s' fd fs1 fs2 i hp hcurve h1 h2 hi
  simp only [List.mem_cons, List.not_mem_nil, or_false] at hi
  rcases hi with rfl | rfl | rfl
  · refine field_result_agrees ?_ rfl (montmul_lt hp _ _)
    simp only [montmul_nat, readField_eq, hcurve]
    exact Nat.ModEq.mul_right _ (Nat.ModEq.mul h1 h2)
  · refine field_result_agrees ?_ rfl (fred_lt hp _)
    simp only [fmul_nat, readField_eq, hcurve]
    exact Nat.ModEq.mul h1 h2
  · refine field_result_agrees ?_ ?_ (finv_lt hp _)
    · simp only [finv_nat, readField_eq, hcurve, h1]
    · simp only [Flags.ofInverse, hasInv_nat, readField_eq, hcurve, h1]

/-! ### The coordinates of infinity are not read (R23) -/

section Commute

variable (s : State) (j : PReg) (v : PointReg)

/-! A write of a point register commutes with every other write of a command, and with its report. -/

theorem setF_setPt (i : FReg) (u : Felt) : (s.setPt j v).setF i u = (s.setF i u).setPt j v := rfl

theorem putString_setPt (bs : List Byte) (n : Byte) : (s.setPt j v).putString bs n = (s.putString bs n).setPt j v := rfl

theorem succeed_setPt (fl : Flags) : (s.setPt j v).succeed fl = (s.succeed fl).setPt j v := rfl

theorem raise_setPt (e : ErrorKind) : (s.setPt j v).raise e = (s.raise e).setPt j v := rfl

theorem setPt_setPt_self (u : PointReg) : (s.setPt j v).setPt j u = s.setPt j u := by
  simp [State.setPt]

theorem setPt_setPt_ne {k : PReg} (h : k ≠ j) (u : PointReg) :
    (s.setPt j v).setPt k u = (s.setPt k u).setPt j v := by
  simp [State.setPt, Vector.set_comm v u (Fin.val_ne_of_ne h.symm)]

end Commute

/-- The result `r'` of a command, on a state with other coordinates in the infinite register `j`, shows no sign of them: it
is the result `r` on `s`, or differs from it in those coordinates alone. -/
def Unread (s : State) (j : PReg) (x y : Felt) (r r' : Result) : Prop :=
  ∃ t : State, r = .next t ∧
    (r' = .next t ∨ (t.pt.get j = s.pt.get j ∧ r' = .next (t.setPt j ⟨x, y, true⟩)))

section Infinity

variable {s : State} {j : PReg} (x y : Felt)

/-- Every register reads as before, the infinite one as `INF` (R111). -/
theorem readPoint_setPt_inf (hinf : (s.pt.get j).inf = true) (k : PReg) :
    (s.setPt j ⟨x, y, true⟩).readPoint k = s.readPoint k := by
  by_cases hk : k = j
  · subst hk
    rw [readPoint_of_inf _ (by rw [getPt_setPt_self]), readPoint_inf hinf]
  · rw [State.readPoint, State.readPoint, getPt_setPt_ne _ _ hk]

/-- Where no point register is written the coordinates stay. -/
theorem unread_of_pt_kept {t : State} (ht : t.pt = s.pt) :
    Unread s j x y (.next t) (.next (t.setPt j ⟨x, y, true⟩)) :=
  ⟨t, rfl, .inr ⟨by rw [ht], rfl⟩⟩

/-- A command that ends in an error writes no point register (R173). -/
theorem unread_raise (e : ErrorKind) : Unread s j x y (.next (s.raise e)) (.next ((s.setPt j ⟨x, y, true⟩).raise e)) := by
  rw [raise_setPt]
  exact unread_of_pt_kept x y rfl

theorem unread_writeField (fd : FReg) (v : Nat) (fl : Flags) :
    Unread s j x y (.next ((s.writeField fd v).succeed fl))
      (.next (((s.setPt j ⟨x, y, true⟩).writeField fd v).succeed fl)) := by
  rw [writeField_eq, writeField_eq, setF_setPt, succeed_setPt]
  exact unread_of_pt_kept x y rfl

theorem unread_putString (bs : List Byte) (n : Byte) (fl : Flags) :
    Unread s j x y (.next ((s.putString bs n).succeed fl))
      (.next (((s.setPt j ⟨x, y, true⟩).putString bs n).succeed fl)) := by
  rw [putString_setPt, succeed_setPt]
  exact unread_of_pt_kept x y rfl

theorem unread_succeed (fl : Flags) :
    Unread s j x y (.next (s.succeed fl)) (.next ((s.setPt j ⟨x, y, true⟩).succeed fl)) := by
  rw [succeed_setPt]
  exact unread_of_pt_kept x y rfl

/-- A command that writes a point overwrites the coordinates, or leaves the register alone. -/
theorem unread_finishPoint (pd : PReg) (q : Point) :
    Unread s j x y (finishPoint pd q s) (finishPoint pd q (s.setPt j ⟨x, y, true⟩)) := by
  refine ⟨_, finishPoint_eq pd q s, ?_⟩
  rw [finishPoint_eq]
  by_cases hpd : pd = j
  · subst hpd
    exact .inl (by rw [setPt_setPt_self])
  · exact .inr ⟨getPt_setPt_ne s _ (Ne.symm hpd), by rw [setPt_setPt_ne _ _ _ hpd, succeed_setPt]⟩

/-- No command reads the coordinates: its operands, its checks and the record are the same on both states. -/
theorem unread_exec (hinf : (s.pt.get j).inf = true) (i : Instr) :
    Unread s j x y (exec i s) (exec i (s.setPt j ⟨x, y, true⟩)) := by
  have hread := readPoint_setPt_inf x y hinf
  cases i with
  | montmul fd fs1 fs2 | modmul fd fs1 fs2 | modinv fd fs1 => exact unread_writeField x y ..
  | fldc fd c =>
    simp only [exec, execFldc, setPt_curve]
    split
    · exact unread_writeField x y ..
    · exact unread_raise x y _
  | pdbl pd ps1 | padd pd ps1 ps2 | pneg pd ps1 | smul pd ps1 fs2 =>
    simp only [exec, execPdbl, execPadd, execPneg, execSmul, hread, setPt_curve]
    exact unread_finishPoint x y ..
  | pldg pd => exact unread_finishPoint x y ..
  | pisinf ps1 | pchk ps1 =>
    simp only [exec, execPisinf, execPchk, hread, setPt_curve]
    exact unread_succeed x y _
  | pdec pd =>
    simp only [exec, execPdec, State.bufString, setPt_curve, setPt_buf, setPt_len]
    split
    · exact unread_raise x y _
    · exact unread_finishPoint x y ..
  | penc ps1 | xenc ps1 =>
    simp only [exec, execPenc, execXenc, hread, setPt_curve]
    split
    · exact unread_raise x y _
    · exact unread_putString x y ..

end Infinity

/-- Settles O46: every command's operands are the same on both states, since the register reads as `INF` on both; what it
then writes overwrites the coordinates or commutes with them. -/
theorem infinityCoordinatesAreNotRead : Obligations.InfinityCoordinatesAreNotRead :=
  fun i _ _ x y hinf => unread_exec x y hinf i

end Sys2Proof.Proofs
end

section
/-!
PROOFS. The register window (spec/20_memory.md R56 to R63, R68, R69): what a read returns and a write changes at every kind of
word, and that no transaction of the host disturbs a pending command (R61, R65).
-/

namespace Sys2Proof.Proofs

open Sys2Proof.Machine Sys2Proof.Laws

/-! ### Words and bytes as numbers (R52) -/

/-- Word `j` of a value, bits 32j+31:32j, as a quotient. -/
theorem getWord_eq_ofNat (v : Felt) (j : Nat) : getWord v j = BitVec.ofNat 32 (v.toNat / 2 ^ (32 * j)) := by
  rw [getWord, BitVec.extractLsb', Nat.shiftRight_eq_div_pow]

theorem getWord_toNat (v : Felt) (j : Nat) : (getWord v j).toNat = v.toNat / 2 ^ (32 * j) % 2 ^ 32 := by
  rw [getWord_eq_ofNat, BitVec.toNat_ofNat]

/-- All twelve words of a value after one is replaced (R58). -/
theorem setWord_words (v : Felt) (j : Fin 12) (x : Word) :
    (setWord v j x).toNat / 2 ^ (32 * j.val) % 2 ^ 32 = x.toNat ∧
    ∀ k : Fin 12, k ≠ j → (setWord v j x).toNat / 2 ^ (32 * k.val) % 2 ^ 32 = v.toNat / 2 ^ (32 * k.val) % 2 ^ 32 := by
  refine ⟨?same, fun k hk => ?other⟩
  case same => rw [← getWord_toNat, getWord_setWord_self]
  case other => rw [← getWord_toNat, ← getWord_toNat, getWord_setWord_ne v hk]

/-- Lane `i` of a word (R52 (b)). -/
theorem wordBytes_getD (v : Word) {i : Nat} (hi : i < 4) :
    (wordBytes v).getD i 0#8 = BitVec.ofNat 8 (v.toNat / 2 ^ (8 * i)) := by
  rw [← Nat.shiftRight_eq_div_pow]
  match i with
  | 0 | 1 | 2 | 3 => rfl

/-- A word of the `BUF` window as a number: each byte times the weight of its lane. -/
theorem bufWord_toNat (m : Memory) (k : Nat) :
    (bufWord m k).toNat = (Memory.read m (4 * k)).toNat + 2 ^ 8 * (Memory.read m (4 * k + 1)).toNat +
      2 ^ 16 * (Memory.read m (4 * k + 2)).toNat + 2 ^ 24 * (Memory.read m (4 * k + 3)).toNat := by
  simp only [bufWord, toNat_append_eq_add]
  omega

/-- Of word 24 only `BUF[96]` exists (R63). -/
theorem bufWord_last {m : Memory} (hm : m.wf) : (bufWord m 24).toNat = (Memory.read m 96).toNat := by
  rw [bufWord_toNat, read_above m hm (by decide : Config.bufBytes ≤ 4 * 24 + 1),
    read_above m hm (by decide : Config.bufBytes ≤ 4 * 24 + 2), read_above m hm (by decide : Config.bufBytes ≤ 4 * 24 + 3)]
  rfl

/-- `BUF` after a word is written to its window (R63). -/
theorem read_writeBytes_word {m : Memory} (hm : m.wf) (k : Nat) (v : Word) (a : Nat) :
    Memory.read (Memory.writeBytes m (4 * k) (wordBytes v)) a =
      if 4 * k ≤ a ∧ a < 4 * k + 4 ∧ a ≤ 96 then BitVec.ofNat 8 (v.toNat / 2 ^ (8 * (a - 4 * k))) else Memory.read m a := by
  have hlen : (wordBytes v).length = 4 := rfl
  have hbound : a < Config.bufBytes ↔ a ≤ 96 := Nat.lt_succ_iff
  simp only [read_writeBytes _ m hm, hlen, hbound]
  split
  · next h => exact wordBytes_getD v (by omega)
  · rfl

/-- A value of the constant table as the quotient of its words (R38, R60). -/
theorem getWord_constFelt (c : CurveParameters) (i : Fin 9) (j : Fin 12) :
    getWord (constFelt c i) j = BitVec.ofNat 32 ((Spec.constTable c).getD i.val 0 / 2 ^ (32 * j.val)) := by
  have hval : (constVal c i).getD 0 = (Spec.constTable c).getD i.val 0 := by
    rw [constTable_eq, constVal, List.getD_eq_getElem?_getD]
  apply BitVec.eq_of_getLsbD_eq
  intro b hb
  have hj : 32 * j.val + b < 384 := by omega
  rw [getLsbD_getWord, constFelt, hval, BitVec.getLsbD_ofNat, BitVec.getLsbD_ofNat, Nat.testBit_div_two_pow]
  simp only [hb, hj, decide_true, Bool.true_and, Nat.add_comm b]

/-! ### Reads (R62, R69) -/

/-- A read while no command is pending, or outside the data windows, returns what stands at the offset (R62). -/
theorem step_read_unmasked {s : State} {w : WordAddr} {es : List Event} (h : s.inputs = .read w :: es)
    (hw : s.busy = false ∨ inDataWindow w = false) :
    step s = .next { s with inputs := es, rdata := some (s.peek (locate w)) } := by
  have hmask : (s.busy && inDataWindow w) = false := Bool.and_eq_false_iff.2 hw
  rw [step_read h, State.hostRead, hmask, if_neg Bool.false_ne_true]

/-- The data windows of R57 are the model's. -/
theorem inDataWindow_of_spec {w : WordAddr} (hw : Spec.dataWindow (4 * w.toNat)) : inDataWindow w = true := by
  rw [Spec.dataWindow] at hw
  rw [inDataWindow, offset, Bool.or_eq_true, decide_eq_true_iff, decide_eq_true_iff]
  omega

/-- A read in a data window while a command is pending returns 0 (R62). -/
theorem step_read_masked {s : State} {w : WordAddr} {es : List Event} (h : s.inputs = .read w :: es)
    (hb : s.busy = true) (hw : inDataWindow w = true) : step s = .next { s with inputs := es, rdata := some 0#32 } := by
  rw [step_read h, State.hostRead, hb, hw, Bool.and_self, if_pos rfl]

/-- The constant table is no data window, so its reads are never masked (R60). -/
theorem step_read_const {s : State} {w : WordAddr} {es : List Event} (h : s.inputs = .read w :: es) {c : Fin 9}
    {j : Fin 12} (hw : 4 * w.toNat = 0x800 + 0x40 * c.val + 4 * j.val) :
    step s = .next { s with inputs := es,
                            rdata := some (BitVec.ofNat 32 ((Spec.constTable s.curve).getD c.val 0 / 2 ^ (32 * j.val))) } := by
  have hmask : inDataWindow w = false := by
    rw [inDataWindow, offset, Bool.or_eq_false_iff, decide_eq_false_iff_not, decide_eq_false_iff_not]
    omega
  rw [step_read_unmasked h (.inr hmask), wordAddr_unique hw, locate_const, State.peek, getWord_constFelt]

/-- Settles O10: the data windows are masked; of the other reads those below 0x100 are the ones ControlRegisters and
`step_read_control` give at any time, and those of the table are never masked. -/
theorem readsWhileBusy : Obligations.ReadsWhileBusy := by
  intro s w es hb h
  obtain ⟨hid, hctrl, hcmd, hlen⟩ := controlRegisters.1 s w es h
  refine ⟨fun hw => step_read_masked h hb (inDataWindow_of_spec hw), hid, hctrl, fun hw => ?status, hcmd, hlen,
    fun c j hw => step_read_const h hw⟩
  case status => rw [step_read_control h (by omega), locate_status hw, State.peek]

/-- A run of one step more. -/
theorem run_succ_of_step {s t : State} (h : step s = .next t) (k : Nat) :
    Sys2Proof.core.run (k + 1) s = Sys2Proof.core.run k t := by
  have hstep : Sys2Proof.core.step s = .next t := h
  simp only [Host.Core.run, hstep]

/-- What is still to come and what was read before play no part in a read (R69). -/
theorem hostRead_environment (s : State) (w : WordAddr) (es : List Event) (r : Option Word) :
    State.hostRead { s with inputs := es, rdata := r } w = s.hostRead w := rfl

/-- Settles O11: a read writes `rdata` alone, and no read looks at `rdata`. -/
theorem readsHaveNoSideEffect : Obligations.ReadsHaveNoSideEffect := by
  intro s w es h
  refine ⟨s.hostRead w, step_read h, fun hnext => ?again⟩
  case again =>
    obtain ⟨es', rfl⟩ := List.head?_eq_some_iff.1 hnext
    rw [run_succ_of_step (step_read h), run_succ_of_step (step_read rfl), hostRead_environment]
    rfl

/-! ### Writes (R61) -/

/-- Settles O9: a write elsewhere is dropped; `CTRL` and `STATUS` are written whatever `BUSY` is. -/
theorem writesWhileBusyAreDropped : Obligations.WritesWhileBusyAreDropped := by
  intro s w v es hb h
  exact ⟨step_write_dropped h hb, step_write_ctrl h, fun hw => by rw [step_write_status h hw, State.writeStatus]⟩

/-- A write to a word that nothing writes sets `OVR` while a command is pending, and does nothing else (R32, R60, R61,
R68). -/
theorem step_write_ignored {s : State} {w : WordAddr} {v : Word} {es : List Event} (h : s.inputs = .write w v :: es)
    (h4 : 4 * w.toNat ≠ 0x004) (h8 : 4 * w.toNat ≠ 0x008) (hpoke : ∀ t : State, t.poke v (locate w) = t) :
    step s = .next { s with inputs := es, ovr := s.ovr || s.busy } := by
  cases hb : s.busy with
  | false => rw [step_write_idle h hb, hpoke, Bool.or_false, ← hb]
  | true => rw [step_write_dropped h hb h4 h8, Bool.or_true, ← hb]

/-! ### Reserved words (R68) -/

section Ranges
variable {w : WordAddr}

/-- The gaps of the table of R56. -/
theorem locate_gap (h : (0x014 ≤ offset w ∧ offset w ≤ 0x0FC) ∨ (0x164 ≤ offset w ∧ offset w ≤ 0x1FC) ∨
    (0x600 ≤ offset w ∧ offset w ≤ 0x7FC) ∨ 0xA40 ≤ offset w) : locate w = .reserved := by
  rcases h with h | h | h | h <;> simp (disch := omega) only [locate, if_pos, if_neg]

theorem locate_fieldRange (h : 0x200 ≤ offset w ∧ offset w ≤ 0x3FC) :
    locate w = locateField (offset w - 0x200) := by
  simp (disch := omega) only [locate, if_pos, if_neg]

theorem locate_pointRange (h : 0x400 ≤ offset w ∧ offset w ≤ 0x5FC) :
    locate w = locatePoint (offset w - 0x400) := by
  simp (disch := omega) only [locate, if_pos, if_neg]

theorem locate_constRange (h : 0x800 ≤ offset w ∧ offset w ≤ 0xA3C) :
    locate w = locateConst (offset w - 0x800) := by
  simp (disch := omega) only [locate, if_pos, if_neg]

/-- The reserved words of the spec are the model's: the gaps of the map, and the ends of the slots. -/
theorem locate_reserved (h : Spec.reservedOffset (4 * w.toNat)) : locate w = .reserved := by
  rw [← offset, Spec.reservedOffset] at h
  rcases h with h | h | ⟨hlo, hhi, hslot⟩ | ⟨hlo, hhi, hslot⟩ | h | ⟨hlo, hhi, hslot⟩ | h
  · exact locate_gap (by omega)
  · exact locate_gap (by omega)
  · rw [locate_fieldRange ⟨hlo, hhi⟩, locateField, if_neg (by omega)]
  · rw [locate_pointRange ⟨hlo, hhi⟩, locatePoint]
    rcases hslot with hslot | hslot <;> simp (disch := omega) only [if_pos, if_neg]
  · exact locate_gap (by omega)
  · rw [locate_constRange ⟨hlo, hhi⟩, locateConst, if_neg (by omega)]
  · exact locate_gap (by omega)

end Ranges

theorem step_read_reserved {s : State} {w : WordAddr} {es : List Event} (h : s.inputs = .read w :: es)
    (hw : Spec.reservedOffset (4 * w.toNat)) : step s = .next { s with inputs := es, rdata := some 0#32 } := by
  rw [step_read h, State.hostRead, locate_reserved hw, State.peek, ite_self]

theorem step_write_reserved {s : State} {w : WordAddr} {v : Word} {es : List Event} (h : s.inputs = .write w v :: es)
    (hw : Spec.reservedOffset (4 * w.toNat)) : step s = .next { s with inputs := es, ovr := s.ovr || s.busy } := by
  refine step_write_ignored h ?_ ?_ fun t => by rw [locate_reserved hw, State.poke]
  all_goals
    rw [Spec.reservedOffset] at hw
    omega

/-- While no command is pending there is not even `OVR` to set. -/
theorem step_write_reserved_idle {s : State} {w : WordAddr} {v : Word} {es : List Event}
    (h : s.inputs = .write w v :: es) (hb : s.busy = false) (hw : Spec.reservedOffset (4 * w.toNat)) :
    step s = .next { s with inputs := es } := by
  rw [step_write_idle h hb, locate_reserved hw, State.poke]

/-- Settles O18: what the spec's list marks reserved is `.reserved` in the model's map, which reads as 0, masked or not. -/
theorem reservedWords : Obligations.ReservedWords :=
  fun _ _ _ hw => ⟨fun h => step_read_reserved h hw, fun _ h => step_write_reserved h hw⟩

/-! ### The constant table (R60) -/

/-- Settles O17: words 0 to 11 by `step_read_const`, words 12 to 15 as reserved words; a write finds nothing to write. -/
theorem constantTableWindow : Obligations.ConstantTableWindow := by
  intro s w es c j hw
  have hreserved (hj : 12 ≤ j.val) : Spec.reservedOffset (4 * w.toNat) := by
    rw [Spec.reservedOffset]
    omega
  refine ⟨fun hj h => step_read_const h (j := ⟨j.val, hj⟩) hw, fun hj h => step_read_reserved h (hreserved hj),
    fun v h => ?write⟩
  case write =>
    rcases Nat.lt_or_ge j.val 12 with hj | hj
    · have hloc : locate w = .const c ⟨j.val, hj⟩ := wordAddr_unique hw ▸ locate_const c ⟨j.val, hj⟩
      exact step_write_ignored h (by omega) (by omega) fun t => by rw [hloc, State.poke]
    · exact step_write_reserved h (hreserved hj)

/-! ### The data windows while no command is pending (R58, R59, R63) -/

/-- Settles O14: by the location of each word of the slot; `setWord_words` says what the write does to the value. -/
theorem fieldRegisterWindow : Obligations.FieldRegisterWindow := by
  intro s w es i hb
  refine ⟨fun j hw => ?word, fun j hw => ?reserved⟩
  case word =>
    have hloc : locate w = .field i j := wordAddr_unique hw ▸ locate_field i j
    refine ⟨fun h => ?_, fun v h => ⟨setWord (s.getF i) j v, ?_, setWord_words _ j v⟩⟩
    · rw [step_read_unmasked h (.inl hb), hloc, State.peek, getWord_eq_ofNat, State.getF]
    · rw [step_write_idle h hb, hloc]
      rfl
  case reserved =>
    have hres : Spec.reservedOffset (4 * w.toNat) := by
      rw [Spec.reservedOffset]
      omega
    exact ⟨fun h => step_read_reserved h hres, fun v h => step_write_reserved_idle h hb hres⟩

/-- Settles O15: as for the field registers, and the word of `.inf` is one bit. -/
theorem pointRegisterWindow : Obligations.PointRegisterWindow := by
  intro s w es k hb
  refine ⟨fun j hw => ?x, fun j hw => ?y, fun hw => ?inf, fun o ho hw => ?reserved⟩
  case x =>
    have hloc : locate w = .ptX k j := wordAddr_unique hw ▸ locate_ptX k j
    refine ⟨fun h => ?_, fun v h => ⟨setWord (s.getPt k).x j v, ?_, setWord_words _ j v⟩⟩
    · rw [step_read_unmasked h (.inl hb), hloc, State.peek, getWord_eq_ofNat, State.getPt]
    · rw [step_write_idle h hb, hloc]
      rfl
  case y =>
    have hloc : locate w = .ptY k j := wordAddr_unique hw ▸ locate_ptY k j
    refine ⟨fun h => ?_, fun v h => ⟨setWord (s.getPt k).y j v, ?_, setWord_words _ j v⟩⟩
    · rw [step_read_unmasked h (.inl hb), hloc, State.peek, getWord_eq_ofNat, State.getPt]
    · rw [step_write_idle h hb, hloc]
      rfl
  case inf =>
    have hloc : locate w = .ptInf k := wordAddr_unique hw ▸ locate_ptInf k
    refine ⟨fun h => ?_, fun v h => ?_⟩
    · rw [step_read_unmasked h (.inl hb), hloc, State.peek, bitWord_eq_ite, State.getPt]
    · rw [step_write_idle h hb, hloc]
      rfl
  case reserved =>
    have hres : Spec.reservedOffset (4 * w.toNat) := by
      simp only [List.mem_cons, List.not_mem_nil, or_false] at ho
      rw [Spec.reservedOffset]
      omega
    exact ⟨fun h => step_read_reserved h hres, fun v h => step_write_reserved_idle h hb hres⟩

/-- Settles O16: the read is `bufWord`, whose lanes past `BUF[96]` are 0 in canonical form; the write stores the four bytes
of the word, of which `BUF` drops those past its end. -/
theorem bufferWindow : Obligations.BufferWindow := by
  intro s w es k hb hwf hw
  have hloc : locate w = .buf k := wordAddr_unique hw ▸ locate_buf k
  refine ⟨fun h => ⟨bufWord s.buf k, ?read, fun _ => bufWord_toNat s.buf k, fun hk => ?last⟩,
    fun v h => ⟨Memory.writeBytes s.buf (4 * k.val) (wordBytes v), ?write, wf_writeBytes _ _ hwf _,
      read_writeBytes_word hwf k v⟩⟩
  case read => rw [step_read_unmasked h (.inl hb), hloc, State.peek]
  case last => rw [hk, bufWord_last hwf]
  case write => rw [step_write_idle h hb, hloc, State.poke]

/-! ### A pending command among the host's transactions (R61, R65) -/

/-- What R61 and R65 keep while a command is pending: the command and its operands. -/
structure PendingKept (s t : State) : Prop where
  busy : t.busy = true
  cur  : t.cur = s.cur
  f    : t.f = s.f
  pt   : t.pt = s.pt
  buf  : t.buf = s.buf
  len  : t.len = s.len

theorem PendingKept.trans {s t u : State} (hst : PendingKept s t) (htu : PendingKept t u) : PendingKept s u where
  busy := htu.busy
  cur := htu.cur.trans hst.cur
  f := htu.f.trans hst.f
  pt := htu.pt.trans hst.pt
  buf := htu.buf.trans hst.buf
  len := htu.len.trans hst.len

/-- A host write while a command is pending writes `OVR`, `CTRL` or `STATUS`, which the command does not need. -/
theorem pendingKept_hostWrite {s : State} (hb : s.busy = true) (w : WordAddr) (v : Word) :
    PendingKept s (s.hostWrite w v) := by
  rcases hostWrite_busy hb w v with h | h | h <;> rw [h] <;> exact ⟨hb, rfl, rfl, rfl, rfl, rfl⟩

/-- One transaction of the host. -/
theorem step_host_pendingKept {s : State} {e : Event} {es : List Event} (hb : s.busy = true)
    (he : (∃ w, e = .read w) ∨ ∃ w v, e = .write w v) (h : s.inputs = e :: es) :
    ∃ t, step s = .next t ∧ PendingKept s t ∧ t.inputs = es := by
  obtain ⟨t, ht, hin⟩ := handle_answers e { s with inputs := es }
  refine ⟨t, (step_event h).trans ht, ?_, hin⟩
  rcases he with ⟨w, rfl⟩ | ⟨w, v, rfl⟩ <;> cases ht
  · exact ⟨hb, rfl, rfl, rfl, rfl, rfl⟩
  · obtain ⟨hbusy, hcur, hf, hpt, hbuf, hlen⟩ := pendingKept_hostWrite (s := { s with inputs := es }) hb w v
    exact ⟨hbusy, hcur, hf, hpt, hbuf, hlen⟩

/-- Any list of transactions of the host, one after the other. -/
theorem run_host_pendingKept (es rest : List Event) {s : State} (hb : s.busy = true)
    (hes : ∀ e ∈ es, (∃ w, e = .read w) ∨ ∃ w v, e = .write w v) (h : s.inputs = es ++ rest) :
    ∃ t : State, Sys2Proof.core.run es.length s = .next t ∧ PendingKept s t ∧ t.inputs = rest := by
  induction es generalizing s with
  | nil => exact ⟨s, rfl, ⟨hb, rfl, rfl, rfl, rfl, rfl⟩, h⟩
  | cons e es ih =>
    obtain ⟨t, hstep, hst, hin⟩ := step_host_pendingKept hb (hes e List.mem_cons_self) h
    obtain ⟨u, hrun, htu, hrest⟩ := ih hst.busy (fun x hx => hes x (List.mem_cons_of_mem _ hx)) hin
    exact ⟨u, (run_succ_of_step hstep _).trans hrun, hst.trans htu, hrest⟩

/-- Settles O23: by induction on the transactions, each of which keeps the command and its operands. -/
theorem pendingCommandIsFrozen : Obligations.PendingCommandIsFrozen := by
  intro es rest s hb hes h
  obtain ⟨t, hrun, ⟨hbusy, hcur, hf, hpt, hbuf, hlen⟩, hrest⟩ := run_host_pendingKept es rest hb hes h
  exact ⟨t, hrun, hbusy, hcur, hf, hpt, hbuf, hlen, hrest⟩

end Sys2Proof.Proofs
end

section
/-!
PROOFS. The opcode table and command words (spec/30_encoding.md R70 to R77): what a word that hits a row holds in its fields,
that at most one row is hit, and that the decoder reads exactly the words the encoder writes.
-/

namespace Sys2Proof.Proofs

open Sys2Proof.Laws

/-! ### The fields of a word (R70, R71) -/

/-- The fields of a word masked by another are the fields masked. -/
theorem fieldAt_and (w m : Word) (lo : Nat) : fieldAt (w &&& m) lo = fieldAt w lo &&& fieldAt m lo := by
  simp only [fieldAt, BitVec.toNat_and, Nat.and_div_two_pow]
  exact Nat.and_mod_two_pow (n := 4)

/-- A word whose bits 31:20 are zero is packed from its own fields. -/
theorem packWord_fields {w : Word} {opcode rd rs1 rs2 : Nat} (hop : w.toNat % 2 ^ 8 = opcode)
    (hzero : w.toNat / 2 ^ 20 = 0) (hd : rd = fieldAt w 8) (h1 : rs1 = fieldAt w 12) (h2 : rs2 = fieldAt w 16) :
    packWord opcode rd rs1 rs2 = w := by
  subst hop hd h1 h2
  apply BitVec.eq_of_toNat_eq
  simp only [packWord, fieldAt, BitVec.toNat_ofNat]
  omega

section Packed

variable {opcode rd rs1 rs2 : Nat} (hop : opcode < 2 ^ 8) (hd : rd < 16) (h1 : rs1 < 16) (h2 : rs2 < 16)

include hop hd

theorem fieldAt_packWord_rd : fieldAt (packWord opcode rd rs1 rs2) 8 = rd := by
  simp only [packWord, fieldAt, BitVec.toNat_ofNat]
  omega

include h1

theorem fieldAt_packWord_rs1 : fieldAt (packWord opcode rd rs1 rs2) 12 = rs1 := by
  simp only [packWord, fieldAt, BitVec.toNat_ofNat]
  omega

include h2

theorem fieldAt_packWord_rs2 : fieldAt (packWord opcode rd rs1 rs2) 16 = rs2 := by
  simp only [packWord, fieldAt, BitVec.toNat_ofNat]
  omega

end Packed

/-! ### The operands of a word (R72, R73) -/

theorem fregAt_val {w : Word} {lo : Nat} (h : fieldAt w lo < 8) : (fregAt w lo).val = fieldAt w lo := Nat.mod_eq_of_lt h

theorem pregAt_val {w : Word} {lo : Nat} (h : fieldAt w lo < 4) : (pregAt w lo).val = fieldAt w lo := Nat.mod_eq_of_lt h

theorem constAt_val (w : Word) : (constAt w).val = fieldAt w 16 := Nat.mod_mod _ _

theorem fregAt_bits (w : Word) (lo : Nat) : (fregAt w lo).val = w.toNat / 2 ^ lo % 2 ^ 3 :=
  Nat.mod_mod_of_dvd _ (by decide)

theorem pregAt_bits (w : Word) (lo : Nat) : (pregAt w lo).val = w.toNat / 2 ^ lo % 2 ^ 2 :=
  Nat.mod_mod_of_dvd _ (by decide)

theorem constAt_bits (w : Word) : (constAt w).val = w.toNat / 2 ^ 16 % 2 ^ 4 := constAt_val w

/-- The command of the same mnemonic whose operands are read from a word. -/
def readFrom (w : Word) : Instr → Instr
  | .montmul _ _ _ => .montmul (fregAt w 8) (fregAt w 12) (fregAt w 16)
  | .modmul _ _ _ => .modmul (fregAt w 8) (fregAt w 12) (fregAt w 16)
  | .modinv _ _ => .modinv (fregAt w 8) (fregAt w 12)
  | .fldc _ _ => .fldc (fregAt w 8) (constAt w)
  | .pdbl _ _ => .pdbl (pregAt w 8) (pregAt w 12)
  | .padd _ _ _ => .padd (pregAt w 8) (pregAt w 12) (pregAt w 16)
  | .pneg _ _ => .pneg (pregAt w 8) (pregAt w 12)
  | .pisinf _ => .pisinf (pregAt w 12)
  | .pchk _ => .pchk (pregAt w 12)
  | .pldg _ => .pldg (pregAt w 8)
  | .smul _ _ _ => .smul (pregAt w 8) (pregAt w 12) (fregAt w 16)
  | .penc _ => .penc (pregAt w 12)
  | .pdec _ => .pdec (pregAt w 8)
  | .xenc _ => .xenc (pregAt w 12)

theorem row_readFrom (w : Word) (i : Instr) : (readFrom w i).row = i.row := by
  cases i <;> rfl

theorem readFrom_readFrom (w : Word) (i : Instr) : readFrom w (readFrom w i) = readFrom w i := by
  cases i <;> rfl

/-- The operands of a command are read back from its word. -/
theorem readFrom_encode (i : Instr) : readFrom (encode i) i = i := by
  cases i <;>
    simp (disch := omega) only [readFrom, encode, fregAt, pregAt, constAt, fieldAt_packWord_rd, fieldAt_packWord_rs1,
      fieldAt_packWord_rs2, Fin.ofNat_val_eq_self]

/-! ### The words of a row (R74, R76) -/

/-- One command of each row, in the table's order. -/
def rowCommands : List Instr :=
  [.montmul 0 0 0, .modmul 0 0 0, .modinv 0 0, .fldc 0 0, .pdbl 0 0, .padd 0 0 0, .pneg 0 0, .pisinf 0, .pchk 0, .pldg 0,
   .smul 0 0 0, .penc 0, .pdec 0, .xenc 0]

theorem opcodeTable_eq : opcodeTable = rowCommands.map Instr.row := rfl

theorem row_mem (i : Instr) : i.row ∈ opcodeTable := by
  cases i <;> simp [Instr.row, opcodeTable]

/-- A word that hits a row holds the row's opcode and has bits 31:20 zero. In each of `rd`, `rs1` and `rs2` the mask covers
upper bits only, which are zero, so the field's value is below 16 less the mask's. -/
theorem fields_of_hits {r : Row} {w : Word} (hr : r ∈ opcodeTable) (h : r.hits w = true) :
    w.toNat % 2 ^ 8 = r.pattern.toNat ∧ w.toNat / 2 ^ 20 = 0 ∧
      ∀ lo ∈ [8, 12, 16], fieldAt w lo < 16 - fieldAt r.mask lo := by
  have hw : w &&& r.mask = r.pattern := eq_of_beq h
  have hnat : w.toNat &&& r.mask.toNat = r.pattern.toNat := by rw [← BitVec.toNat_and, hw]
  have htable : ∀ r ∈ opcodeTable, r.mask.toNat % 2 ^ 8 = 2 ^ 8 - 1 ∧ r.mask.toNat / 2 ^ 20 = 2 ^ 12 - 1 ∧
      r.pattern.toNat < 2 ^ 8 ∧ ∀ lo ∈ [8, 12, 16], fieldAt r.mask lo ∈ [0, 8, 12, 15] ∧ fieldAt r.pattern lo = 0 := by
    decide
  have hupper : ∀ x < 16, ∀ m ∈ [0, 8, 12, 15], x &&& m = 0 → x < 16 - m := by decide
  obtain ⟨hlow, hhigh, hpat, hmid⟩ := htable r hr
  refine ⟨?opcode, ?zero, fun lo hlo => ?field⟩
  case opcode =>
    rw [← Nat.mod_eq_of_lt hpat, ← hnat, Nat.and_mod_two_pow, hlow, Nat.and_two_pow_sub_one_eq_mod, Nat.mod_mod]
  case zero =>
    have hzero : (w.toNat &&& r.mask.toNat) / 2 ^ 20 = 0 := by omega
    rw [Nat.and_div_two_pow, hhigh, Nat.and_two_pow_sub_one_eq_mod] at hzero
    omega
  case field =>
    obtain ⟨hm, hp⟩ := hmid lo hlo
    have hzero : fieldAt w lo &&& fieldAt r.mask lo = 0 := by rw [← fieldAt_and, hw, hp]
    exact hupper _ (Nat.mod_lt _ (by decide)) _ hm hzero

/-- At most one row is hit: every row has an opcode of its own. -/
theorem hits_eq_of_hits {r r' : Row} {w : Word} (hr : r ∈ opcodeTable) (hr' : r' ∈ opcodeTable) (h : r.hits w = true) :
    r'.hits w = decide (r'.pattern = r.pattern) := by
  have hopcodes : ∀ r ∈ opcodeTable, ∀ r' ∈ opcodeTable, r'.pattern = r.pattern → r' = r := by decide
  by_cases hpat : r'.pattern = r.pattern
  · rw [hopcodes r hr r' hr' hpat, h, decide_eq_true rfl]
  · rw [decide_eq_false hpat, Bool.eq_false_iff]
    intro h'
    obtain ⟨hop, -, -⟩ := fields_of_hits hr h
    obtain ⟨hop', -, -⟩ := fields_of_hits hr' h'
    exact hpat (BitVec.eq_of_toNat_eq (hop'.symm.trans hop))

/-- The word of a command hits the command's row. -/
theorem hits_encode : ∀ {i : Instr}, i.WellFormed → i.row.hits (encode i) = true
  | .montmul a b c, h => (EncodingFits.montmul a b c h _ (row_mem _)).2 rfl
  | .modmul a b c, h => (EncodingFits.modmul a b c h _ (row_mem _)).2 rfl
  | .modinv a b, h => (EncodingFits.modinv a b h _ (row_mem _)).2 rfl
  | .fldc a c, h => (EncodingFits.fldc a c h _ (row_mem _)).2 rfl
  | .pdbl a b, h => (EncodingFits.pdbl a b h _ (row_mem _)).2 rfl
  | .padd a b c, h => (EncodingFits.padd a b c h _ (row_mem _)).2 rfl
  | .pneg a b, h => (EncodingFits.pneg a b h _ (row_mem _)).2 rfl
  | .pisinf a, h => (EncodingFits.pisinf a h _ (row_mem _)).2 rfl
  | .pchk a, h => (EncodingFits.pchk a h _ (row_mem _)).2 rfl
  | .pldg a, h => (EncodingFits.pldg a h _ (row_mem _)).2 rfl
  | .smul a b c, h => (EncodingFits.smul a b c h _ (row_mem _)).2 rfl
  | .penc a, h => (EncodingFits.penc a h _ (row_mem _)).2 rfl
  | .pdec a, h => (EncodingFits.pdec a h _ (row_mem _)).2 rfl
  | .xenc a, h => (EncodingFits.xenc a h _ (row_mem _)).2 rfl

/-- How many values the fields `rd`, `rs1` and `rs2` take in the words of a command (R71 to R74): eight field registers, four
point registers, a constant index of 4 bits, and 0 alone in a field the format does not use. -/
def fieldSizes : Instr → Nat × Nat × Nat
  | .montmul _ _ _ | .modmul _ _ _ => (8, 8, 8)
  | .modinv _ _ => (8, 8, 1)
  | .fldc _ _ => (8, 1, 16)
  | .pdbl _ _ | .pneg _ _ => (4, 4, 1)
  | .padd _ _ _ => (4, 4, 4)
  | .pisinf _ | .pchk _ | .penc _ | .xenc _ => (1, 4, 1)
  | .pldg _ | .pdec _ => (4, 1, 1)
  | .smul _ _ _ => (4, 4, 8)

theorem fieldSizes_eq (i : Instr) :
    fieldSizes i = (16 - fieldAt i.row.mask 8, 16 - fieldAt i.row.mask 12, 16 - fieldAt i.row.mask 16) := by
  cases i <;> simp only [fieldSizes, Instr.row] <;> rfl

/-- The must-be-zero bits of a word that hits the row of a command (R74). -/
theorem fields_lt_of_hits {i : Instr} {w : Word} (h : i.row.hits w = true) :
    fieldAt w 8 < (fieldSizes i).1 ∧ fieldAt w 12 < (fieldSizes i).2.1 ∧ fieldAt w 16 < (fieldSizes i).2.2 := by
  obtain ⟨-, -, hfields⟩ := fields_of_hits (row_mem i) h
  rw [fieldSizes_eq]
  exact ⟨hfields 8 (by decide), hfields 12 (by decide), hfields 16 (by decide)⟩

/-- A word that hits the row of a command is the word of that command with the operands read from it: the bits no operand
shows are zero. -/
theorem encode_readFrom {i : Instr} {w : Word} (h : i.row.hits w = true) : encode (readFrom w i) = w := by
  obtain ⟨hop, hzero, -⟩ := fields_of_hits (row_mem i) h
  obtain ⟨hd, h1, h2⟩ := fields_lt_of_hits h
  have hunused {lo : Nat} (hlo : fieldAt w lo < 1) : 0 = fieldAt w lo := (Nat.lt_one_iff.1 hlo).symm
  cases i with
  | montmul | modmul => exact packWord_fields hop hzero (fregAt_val hd) (fregAt_val h1) (fregAt_val h2)
  | modinv => exact packWord_fields hop hzero (fregAt_val hd) (fregAt_val h1) (hunused h2)
  | fldc => exact packWord_fields hop hzero (fregAt_val hd) (hunused h1) (constAt_val w)
  | pdbl | pneg => exact packWord_fields hop hzero (pregAt_val hd) (pregAt_val h1) (hunused h2)
  | padd => exact packWord_fields hop hzero (pregAt_val hd) (pregAt_val h1) (pregAt_val h2)
  | pisinf | pchk | penc | xenc => exact packWord_fields hop hzero (hunused hd) (pregAt_val h1) (hunused h2)
  | pldg | pdec => exact packWord_fields hop hzero (pregAt_val hd) (hunused h1) (hunused h2)
  | smul => exact packWord_fields hop hzero (pregAt_val hd) (pregAt_val h1) (fregAt_val h2)

/-! ### What the decoder answers (R77) -/

/-- A word that hits the row of a command is read as that command with the word's operands, if its constant index is legal
(R73). -/
theorem decode_of_hits {i : Instr} {w : Word} (h : i.row.hits w = true) :
    decode w = if (readFrom w i).WellFormed then .legal (readFrom w i) else .illegal := by
  have hits : ∀ r ∈ opcodeTable, r.hits w = decide (r.pattern = i.row.pattern) :=
    fun r hr => hits_eq_of_hits (row_mem i) hr h
  simp only [opcodeTable, List.forall_mem_cons] at hits
  cases i with
  | fldc =>
    simp only [decode, hits, ← constAt_val, readFrom, Instr.WellFormed, Instr.wellFormed, decide_eq_true_eq]
    rfl
  | _ =>
    simp only [decode, hits]
    rfl

theorem decode_of_not_hits {w : Word} (h : ∀ r ∈ opcodeTable, r.hits w = false) : decode w = .illegal := by
  simp only [opcodeTable, List.forall_mem_cons] at h
  simp [decode, h]

/-- A legal word hits the row of the command it is read as, and shows its operands. -/
theorem hits_of_decode {w : Word} {i : Instr} (h : decode w = .legal i) :
    i.row.hits w = true ∧ readFrom w i = i ∧ i.WellFormed := by
  by_cases hrow : ∃ r ∈ opcodeTable, r.hits w = true
  · obtain ⟨r, hr, hhit⟩ := hrow
    obtain ⟨j, -, rfl⟩ := List.mem_map.1 (opcodeTable_eq ▸ hr)
    rw [decode_of_hits hhit] at h
    split at h
    · cases h
      exact ⟨row_readFrom w j ▸ hhit, readFrom_readFrom w j, ‹_›⟩
    · cases h
  · have hnone : decode w = .illegal := decode_of_not_hits (by simpa using hrow)
    cases hnone.symm.trans h

/-- The legal words: those that hit a row, with their own operands and a legal constant index. -/
theorem decode_eq_legal_iff {w : Word} {i : Instr} :
    decode w = .legal i ↔ i.row.hits w = true ∧ readFrom w i = i ∧ i.WellFormed := by
  refine ⟨hits_of_decode, fun ⟨hhit, hread, hwf⟩ => ?_⟩
  rw [decode_of_hits hhit, hread, if_pos hwf]

/-- Settles O2: the word of a command hits its row and shows its operands; a word that hits a row has no other bits. -/
theorem decodeEncodeAgree : Obligations.DecodeEncodeAgree := by
  refine ⟨fun i hwf => decode_eq_legal_iff.2 ⟨hits_encode hwf, readFrom_encode i, hwf⟩, fun w i h => ?_⟩
  obtain ⟨hhit, hread, hwf⟩ := hits_of_decode h
  have hword : encode (readFrom w i) = w := encode_readFrom hhit
  rw [hread] at hword
  exact ⟨hwf, hword⟩

/-- Settles O3: the mask of the command's row covers the bits, and its match is zero there. -/
theorem mustBeZeroBitsAreChecked : Obligations.MustBeZeroBitsAreChecked := by
  intro w i h
  obtain ⟨hhit, -, -⟩ := hits_of_decode h
  obtain ⟨-, hzero, -⟩ := fields_of_hits (row_mem i) hhit
  obtain ⟨hd, h1, h2⟩ := fields_lt_of_hits hhit
  refine ⟨hzero, ?_⟩
  cases i with
  | montmul | modmul | padd | smul => exact ⟨hd, h1, h2⟩
  | modinv | pdbl | pneg => exact ⟨hd, h1, Nat.lt_one_iff.1 h2⟩
  | fldc => exact ⟨hd, Nat.lt_one_iff.1 h1⟩
  | pisinf | pchk | penc | xenc => exact ⟨Nat.lt_one_iff.1 hd, h1, Nat.lt_one_iff.1 h2⟩
  | pldg | pdec => exact ⟨hd, Nat.lt_one_iff.1 h1, Nat.lt_one_iff.1 h2⟩

/-! ### The table of the spec (R76) -/

/-- The "operand bits" column of R76. -/
def operandBits : Instr → List (Nat × Nat)
  | .montmul _ _ _ | .modmul _ _ _ => [(10, 8), (14, 12), (18, 16)]
  | .modinv _ _ => [(10, 8), (14, 12)]
  | .fldc _ _ => [(10, 8), (19, 16)]
  | .pdbl _ _ | .pneg _ _ => [(9, 8), (13, 12)]
  | .padd _ _ _ => [(9, 8), (13, 12), (17, 16)]
  | .pisinf _ | .pchk _ | .penc _ | .xenc _ => [(13, 12)]
  | .pldg _ | .pdec _ => [(9, 8)]
  | .smul _ _ _ => [(9, 8), (13, 12), (18, 16)]

/-- The row of the spec's table a command stands in, from the model's row. -/
def specRow (i : Instr) : String × Nat × Nat × List (Nat × Nat) :=
  (i.row.mnemonic, i.row.pattern.toNat, i.row.mask.toNat, operandBits i)

theorem opcodeRows_eq : Spec.opcodeRows = rowCommands.map specRow := rfl

theorem specRow_mem (i : Instr) : specRow i ∈ Spec.opcodeRows := by
  rw [opcodeRows_eq]
  cases i <;> simp [specRow, Instr.row, operandBits, rowCommands]

/-- A word matches a row of R76 when it hits the model's row and its operands are legal. -/
theorem rowMatches_specRow_iff (i : Instr) (w : Word) :
    Spec.rowMatches (specRow i) w ↔ i.row.hits w = true ∧ (readFrom w i).WellFormed := by
  have hmask : w.toNat &&& i.row.mask.toNat = i.row.pattern.toNat ↔ i.row.hits w = true := by
    rw [Row.hits, beq_iff_eq, ← BitVec.toNat_and, BitVec.toNat_inj]
  have hconst : (i.row.mnemonic = "FLDC" → w.toNat / 2 ^ 16 % 16 ≤ 8) ↔ (readFrom w i).WellFormed := by
    cases i with
    | fldc => simp [Instr.row, rowFldc, readFrom, Instr.WellFormed, Instr.wellFormed, constAt_bits]
    | _ =>
      refine iff_of_true (fun hfldc => ?_) rfl
      simp only [Instr.row] at hfldc
      exact absurd hfldc (by decide)
  exact and_congr hmask hconst

/-- The operands read from a word are its operand bits. -/
theorem operands_readFrom (w : Word) (i : Instr) :
    (readFrom w i).operands = (operandBits i).map fun bits => w.toNat / 2 ^ bits.2 % 2 ^ (bits.1 - bits.2 + 1) := by
  cases i <;> simp [readFrom, Instr.operands, operandBits, fregAt_bits, pregAt_bits, constAt_bits]

/-- Settles O1: a word that matches a row hits the row of one of the table's commands, which is decoded with the row's
operand bits; a legal word matches the row of the command it is read as. -/
theorem decodeReadsTheOpcodeTable : Obligations.DecodeReadsTheOpcodeTable := by
  refine fun w => ⟨fun r hr hmatch => ?row, fun hnone => ?none⟩
  case row =>
    obtain ⟨i, -, rfl⟩ := List.mem_map.1 (opcodeRows_eq ▸ hr)
    obtain ⟨hhit, hwf⟩ := (rowMatches_specRow_iff i w).1 hmatch
    have hdecode : decode w = .legal (readFrom w i) := by rw [decode_of_hits hhit, if_pos hwf]
    exact ⟨readFrom w i, hdecode, congrArg Row.mnemonic (row_readFrom w i), operands_readFrom w i⟩
  case none =>
    cases hdecode : decode w with
    | illegal => rfl
    | legal i =>
      obtain ⟨hhit, hread, hwf⟩ := hits_of_decode hdecode
      exact absurd ((rowMatches_specRow_iff i w).2 ⟨hhit, hread.symm ▸ hwf⟩) (hnone _ (specRow_mem i))

end Sys2Proof.Proofs
end

section
/-!
PROOFS. The field unit (spec/40_field.md R95 to R100, R102): the four commands, the inverse, and the Montgomery product with
its identities and its two reference algorithms.
-/

namespace Sys2Proof.Proofs

open Sys2Proof.Machine Sys2Proof.Laws

variable {c : CurveParameters}

/-! ### Canonical numbers are fixed by their class -/

/-- A number below `p` of the class of `x` is the remainder of `x`. -/
theorem cast_eq_emod_of_zmod {a : Nat} (ha : a < c.p) {x : Int} (h : (a : ZMod c.p) = x) : (a : Int) = x % c.p := by
  rw [← Int.cast_natCast, ZMod.intCast_eq_intCast_iff'] at h
  rw [← h, Int.emod_eq_of_lt (by omega) (by omega)]

theorem eq_of_zmod_eq {a b : Nat} (ha : a < c.p) (hb : b < c.p) (h : (a : ZMod c.p) = b) : a = b :=
  ((ZMod.natCast_eq_natCast_iff a b c.p).1 h).eq_of_lt_of_lt ha hb

/-- An odd prime is above 2. -/
theorem two_lt_of_odd (hp : Nat.Prime c.p) (hodd : c.p % 2 = 1) : 2 < c.p :=
  hp.two_le.lt_of_ne fun h => by omega

/-! ### The inverse (R95) -/

theorem hasInv_iff (hp : 0 < c.p) (v : Int) : hasInv c v = true ↔ (v : ZMod c.p) ≠ 0 := by
  rw [hasInv, bne_iff_ne, Ne, fred_eq_zero_iff hp]

/-- `v * w` leaves 1 exactly when `w` is of the class of `finv v`. -/
theorem mul_emod_eq_one_iff (hp : Nat.Prime c.p) (h2 : 2 < c.p) {v : Int} (hv : (v : ZMod c.p) ≠ 0) (w : Nat) :
    v * w % c.p = 1 ↔ (w : ZMod c.p) = finv c v := by
  have : Fact (Nat.Prime c.p) := ⟨hp⟩
  have one : (1 : Int) = 1 % c.p := (Int.emod_eq_of_lt zero_le_one (by exact_mod_cast hp.one_lt)).symm
  calc v * w % c.p = 1
    _ ↔ ((v * w : Int) : ZMod c.p) = (1 : Int) := by rw [ZMod.intCast_eq_intCast_iff', ← one]
    _ ↔ (v : ZMod c.p) * w = 1 := by push_cast; rfl
    _ ↔ (w : ZMod c.p) = finv c v := by rw [finv_zmod hp h2, mul_comm, mul_eq_one_iff_eq_inv₀ hv]

/-- Settles O47: `finv` is the power by `powMod_eq`, hence by Fermat the inverse in the field, which fixes the one number
below `p` of its class. -/
theorem finvIsTheInverse : Obligations.FinvIsTheInverse := by
  refine fun c v => ⟨finv_eq v, fun hp h2 => ?_⟩
  have hzero : v % (c.p : Int) = 0 ↔ (v : ZMod c.p) = 0 := by
    rw [ZMod.intCast_zmod_eq_zero_iff_dvd, Int.dvd_iff_emod_eq_zero]
  refine ⟨fun hv => ?zero, fun hv => ?inverse⟩
  case zero =>
    rw [hzero, ← fred_eq_zero_iff hp.pos] at hv
    exact ⟨finv_of_zero h2 hv, by rw [hasInv, hv]; rfl⟩
  case inverse =>
    rw [Ne, hzero] at hv
    have hinv := mul_emod_eq_one_iff hp h2 hv
    have hone : v * finv c v % c.p = 1 := (hinv _).2 rfl
    have hpos : 1 ≤ finv c v := Nat.pos_of_ne_zero fun h0 => by simp [h0] at hone
    exact ⟨(hasInv_iff hp.pos v).2 hv, hpos, finv_lt hp.pos v, hone,
      fun w hw h => eq_of_zmod_eq hw (finv_lt hp.pos v) ((hinv w).1 h)⟩

/-! ### The Montgomery product (R96) -/

theorem montmul_zmod (hp : 0 < c.p) (u v : Int) : ((montmul c u v : Nat) : ZMod c.p) = u * v * rinv c := by
  simp [montmul, fred_zmod hp]

theorem mont_zmod (hp : 0 < c.p) (x : Int) : ((mont c x : Nat) : ZMod c.p) = x * 2 ^ 384 := by
  simp [mont, fred_zmod hp, radix_eq]

theorem two_pow_mul_rinv_mod (hp : Nat.Prime c.p) (hodd : c.p % 2 = 1) : 2 ^ 384 * rinv c % c.p = 1 := by
  rw [← radix_eq, radix_mul_rinv hp hodd]

/-- A number that `R` takes to 1 modulo `p` is the inverse of `R` in the field. -/
theorem two_pow_mul_zmod {r : Nat} (h : 2 ^ 384 * r % c.p = 1) : (2 : ZMod c.p) ^ 384 * r = 1 := by
  have hcast := congrArg (Nat.cast : Nat → ZMod c.p) h
  rw [ZMod.natCast_mod] at hcast
  exact_mod_cast hcast

/-- Settles O48: in the field each identity is `R * Rinv = 1` times a factor, and both sides are below `p`. -/
theorem montgomeryIdentities : Obligations.MontgomeryIdentities := by
  intro c hp hodd x y
  have hR := two_pow_mul_zmod (two_pow_mul_rinv_mod hp hodd)
  have hr2 : ((2 ^ 384 * 2 ^ 384 % c.p : Int) : ZMod c.p) = 2 ^ 384 * 2 ^ 384 := by
    rw [ZMod.intCast_mod]; push_cast; rfl
  have hlt (u v : Int) : montmul c u v < c.p := montmul_lt hp.pos u v
  have hmont (z : Int) : mont c z < c.p := fred_lt hp.pos _
  refine ⟨eq_of_zmod_eq (hlt _ _) (hmont _) ?toMont, cast_eq_emod_of_zmod (hlt _ _) ?fromMont,
    eq_of_zmod_eq (hlt _ _) (hmont _) ?forms, cast_eq_emod_of_zmod (hlt _ _) ?mixed,
    cast_eq_emod_of_zmod (hlt _ _) ?product, eq_of_zmod_eq (hlt _ _) hp.pos ?zero,
    eq_of_zmod_eq (hlt _ _) (finv_lt hp.pos _) ?one, eq_of_zmod_eq (hlt _ _) (Nat.mod_lt _ hp.pos) ?radix⟩
  all_goals
    simp only [montmul_zmod hp.pos, mont_zmod hp.pos, hr2, ZMod.natCast_mod, Int.cast_natCast, Int.cast_mul, Int.cast_one,
      Int.cast_zero, Nat.cast_zero, Nat.cast_pow, Nat.cast_ofNat]
    generalize (2 : ZMod c.p) ^ 384 = R at hR
  case toMont => linear_combination (x * R : ZMod c.p) * hR
  case fromMont => linear_combination (x : ZMod c.p) * hR
  case forms => linear_combination (x * y * R : ZMod c.p) * hR
  case mixed => linear_combination (x * y : ZMod c.p) * hR
  case product => linear_combination (x * y * (R * rinv c + 1) : ZMod c.p) * hR
  case zero => ring
  case one => ring
  case radix => linear_combination R * hR

/-! ### Montgomery reduction (R96) -/

/-- One reduction of `t` to the radix `b`: the multiple of `p` that makes `t` divisible by `b` is added, and the sum divided. -/
def redcStep (p q b t : Nat) : Nat := (t + t % b * q % b * p) / b

/-- The final subtraction. -/
def redcFinal (p t : Nat) : Nat := if t ≥ p then t - p else t

theorem redcMul_eq (u v : Nat) :
    redcMul c u v = redcFinal c.p (redcStep c.p (pprime c) Config.radix (u % c.p * (v % c.p))) := by
  simp only [redcMul, fred_natCast]
  rfl

theorem redcRound_eq (u v i t : Nat) :
    redcRound c u v i t = redcStep c.p (n0 c) (2 ^ 32) (t + u * (v / 2 ^ (32 * i) % 2 ^ 32)) := rfl

theorem redcSerial_eq (u v : Nat) :
    redcSerial c u v = redcFinal c.p (redcRounds c (u % c.p) (v % c.p) 12) := by
  simp only [redcSerial, fred_natCast]
  rfl

section Step

variable {p q b : Nat}

/-- The division of a reduction is exact, `q` being `-p⁻¹` to the radix. -/
theorem redcStep_mul (hq : b ∣ p * q + 1) (t : Nat) : redcStep p q b t * b = t + t % b * q % b * p := by
  refine Nat.div_mul_cancel ?_
  have h : t + t % b * q % b * p ≡ t * (p * q + 1) [MOD b] := calc
    t + t % b * q % b * p ≡ t + t * q * p [MOD b] :=
      .add_left _ (.mul_right _ ((Nat.mod_modEq _ _).trans (.mul_right _ (Nat.mod_modEq _ _))))
    _ = t * (p * q + 1) := by ring
  exact (h.dvd_iff dvd_rfl).2 (hq.mul_left t)

/-- A reduction divides by the radix modulo `p`. -/
theorem redcStep_mul_modEq (hq : b ∣ p * q + 1) (t : Nat) : redcStep p q b t * b ≡ t [MOD p] := by
  rw [redcStep_mul hq]
  exact Nat.add_mul_mod_self_right ..

/-- A reduction needs at most one subtraction of `p` at its end. -/
theorem redcStep_lt (hb : 0 < b) {t : Nat} (ht : t < b * p + p) : redcStep p q b t < 2 * p := by
  refine Nat.div_lt_of_lt_mul ?_
  have hm : t % b * q % b * p ≤ (b - 1) * p := Nat.mul_le_mul_right p (Nat.le_sub_one_of_lt (Nat.mod_lt _ hb))
  have hbp : (b - 1) * p + p = b * p := by rw [← Nat.succ_mul, Nat.succ_eq_add_one, Nat.sub_add_cancel hb]
  have : b * (2 * p) = b * p + b * p := by ring
  omega

theorem redcFinal_eq_mod {t : Nat} (ht : t < 2 * p) : redcFinal p t = t % p := by
  rw [redcFinal]
  split
  · next h => rw [Nat.mod_eq_sub_mod h, Nat.mod_eq_of_lt (by omega)]
  · next h => rw [Nat.mod_eq_of_lt (by omega)]

end Step

theorem radix_pos : 0 < Config.radix := by
  rw [radix_eq]
  exact Nat.two_pow_pos 384

/-- `pprime` is `-p⁻¹` modulo `R` (R10). -/
theorem radix_dvd_p_mul_pprime (hodd : c.p % 2 = 1) : Config.radix ∣ c.p * pprime c + 1 := by
  have h := p_mul_pprime hodd
  rw [Nat.dvd_iff_mod_eq_zero, Nat.add_mod, h, Nat.add_mod_mod, Nat.sub_add_cancel radix_pos, Nat.mod_self]

/-- `n0` is `-p⁻¹` modulo `2^32` (R10). -/
theorem word_dvd_p_mul_n0 (hodd : c.p % 2 = 1) : 2 ^ 32 ∣ c.p * n0 c + 1 := by
  have hword : 2 ^ 32 ∣ Config.radix := radix_eq ▸ pow_dvd_pow 2 (by decide)
  have h : c.p * n0 c + 1 ≡ c.p * pprime c + 1 [MOD 2 ^ 32] := .add_right _ (.mul_left _ (Nat.mod_modEq _ _))
  exact (h.dvd_iff dvd_rfl).2 (hword.trans (radix_dvd_p_mul_pprime hodd))

/-- Each round of the word-serial form takes up one word of the second operand and keeps the number below `2p`. -/
theorem redcRounds_spec (hodd : c.p % 2 = 1) {u : Nat} (hu : u < c.p) (v k : Nat) :
    redcRounds c u v k * 2 ^ (32 * k) ≡ u * (v % 2 ^ (32 * k)) [MOD c.p] ∧ redcRounds c u v k < 2 * c.p := by
  induction k with
  | zero =>
    refine ⟨?_, by rw [redcRounds]; omega⟩
    simp [redcRounds, Nat.mod_one, Nat.ModEq]
  | succ k ih =>
    obtain ⟨hmod, hlt⟩ := ih
    rw [redcRounds, redcRound_eq]
    generalize redcRounds c u v k = t at hmod hlt
    have hword : v / 2 ^ (32 * k) % 2 ^ 32 < 2 ^ 32 := Nat.mod_lt _ (by decide)
    have hv : v % 2 ^ (32 * (k + 1)) = v % 2 ^ (32 * k) + 2 ^ (32 * k) * (v / 2 ^ (32 * k) % 2 ^ 32) := by
      rw [Nat.mul_succ, pow_add, Nat.mod_mul]
    rw [hv]
    generalize v / 2 ^ (32 * k) % 2 ^ 32 = w at hword
    refine ⟨?_, redcStep_lt (by decide) ?_⟩
    · have hstep := redcStep_mul_modEq (word_dvd_p_mul_n0 hodd) (t + u * w)
      calc redcStep c.p (n0 c) (2 ^ 32) (t + u * w) * 2 ^ (32 * (k + 1))
        _ = redcStep c.p (n0 c) (2 ^ 32) (t + u * w) * 2 ^ 32 * 2 ^ (32 * k) := by rw [Nat.mul_succ, pow_add]; ring
        _ ≡ (t + u * w) * 2 ^ (32 * k) [MOD c.p] := hstep.mul_right _
        _ = t * 2 ^ (32 * k) + u * w * 2 ^ (32 * k) := by ring
        _ ≡ u * (v % 2 ^ (32 * k)) + u * w * 2 ^ (32 * k) [MOD c.p] := hmod.add_right _
        _ = u * (v % 2 ^ (32 * k) + 2 ^ (32 * k) * w) := by ring
    · have huw : u * w ≤ (c.p - 1) * (2 ^ 32 - 1) := Nat.mul_le_mul (by omega) (by omega)
      omega

/-- A number below `2p` that is `u * v` divided by `R` modulo `p` ends as the Montgomery product. -/
theorem redcFinal_eq_montmul (hp : Nat.Prime c.p) (hodd : c.p % 2 = 1) {t u v : Nat} (hlt : t < 2 * c.p)
    (h : t * 2 ^ 384 ≡ u % c.p * (v % c.p) [MOD c.p]) : redcFinal c.p t = montmul c u v := by
  have hR : 2 ^ 384 * rinv c ≡ 1 [MOD c.p] := (two_pow_mul_rinv_mod hp hodd).trans (Nat.mod_eq_of_lt hp.one_lt).symm
  rw [redcFinal_eq_mod hlt, montmul_nat]
  calc t ≡ t * (2 ^ 384 * rinv c) [MOD c.p] := by simpa using (hR.mul_left t).symm
    _ = t * 2 ^ 384 * rinv c := (mul_assoc ..).symm
    _ ≡ u % c.p * (v % c.p) * rinv c [MOD c.p] := h.mul_right _
    _ ≡ u * v * rinv c [MOD c.p] := ((Nat.mod_modEq u c.p).mul (Nat.mod_modEq v c.p)).mul_right _

theorem redcMul_eq_montmul (hp : Nat.Prime c.p) (hodd : c.p % 2 = 1) (hlt : c.p < 2 ^ 384) (u v : Nat) :
    redcMul c u v = montmul c u v := by
  rw [redcMul_eq]
  have hprod : u % c.p * (v % c.p) < Config.radix * c.p := by
    rw [radix_eq]
    exact Nat.mul_lt_mul'' ((Nat.mod_lt u hp.pos).trans hlt) (Nat.mod_lt v hp.pos)
  refine redcFinal_eq_montmul hp hodd (redcStep_lt radix_pos (by omega)) ?_
  rw [← radix_eq]
  exact redcStep_mul_modEq (radix_dvd_p_mul_pprime hodd) _

theorem redcSerial_eq_montmul (hp : Nat.Prime c.p) (hodd : c.p % 2 = 1) (hlt : c.p < 2 ^ 384) (u v : Nat) :
    redcSerial c u v = montmul c u v := by
  obtain ⟨hmod, hbound⟩ := redcRounds_spec hodd (Nat.mod_lt u hp.pos) (v % c.p) 12
  rw [redcSerial_eq]
  refine redcFinal_eq_montmul hp hodd hbound ?_
  rwa [Nat.mod_eq_of_lt ((Nat.mod_lt v hp.pos).trans hlt)] at hmod

/-- Settles O49: a reduction divides by its radix modulo `p`, so twelve by `2^32` do what one by `R` does. -/
theorem redcComputesMontmul : Obligations.RedcComputesMontmul := by
  intro c hp hodd hlt
  refine ⟨two_pow_mul_rinv_mod hp hodd, fun u v => ⟨?_, montmul_lt hp.pos u v⟩,
    fun u v => ⟨redcMul_eq_montmul hp hodd hlt u v, redcSerial_eq_montmul hp hodd hlt u v⟩⟩
  rw [montmul, fred_cast hp.pos, fred_cast hp.pos, fred_cast hp.pos]

/-! ### The commands (R97 to R100) -/

theorem exec_montmul (fd fs1 fs2 : FReg) (s : State) :
    exec (.montmul fd fs1 fs2) s = .next
      (Spec.wrField s fd (montmul s.curve (s.f.get fs1).toNat (s.f.get fs2).toNat) ⟨false, false, false⟩) := rfl

theorem exec_modmul (fd fs1 fs2 : FReg) (s : State) :
    exec (.modmul fd fs1 fs2) s = .next
      (Spec.wrField s fd (fmul s.curve (s.f.get fs1).toNat (s.f.get fs2).toNat) ⟨false, false, false⟩) := rfl

theorem exec_modinv (fd fs1 : FReg) (s : State) :
    exec (.modinv fd fs1) s = .next
      (Spec.wrField s fd (finv s.curve (s.f.get fs1).toNat) ⟨false, false, !hasInv s.curve (s.f.get fs1).toNat⟩) := rfl

theorem exec_fldc_of_constVal {ix : ConstIx} {s : State} {v : Nat} (h : constVal s.curve ix = some v) (fd : FReg) :
    exec (.fldc fd ix) s = .next (Spec.wrField s fd v ⟨false, false, false⟩) := by
  simp only [exec, execFldc, h]
  rfl

/-- The constant table of R38 is `constVal` where it has a value. -/
theorem constVal_eq_constTable {i : Nat} (h : i ≤ 8) : constVal c i = some ((Spec.constTable c).getD i 0) := by
  have hlen : i < (Spec.constTable c).length := Nat.lt_succ_of_le h
  rw [constVal, ← constTable_eq, List.getD_eq_getElem _ _ hlen, List.getElem?_eq_getElem hlen]

/-- The row of a legal word is the one with the word's opcode (R71). -/
theorem pattern_of_decode {w : Word} {i : Instr} (h : decode w = .legal i) : w.toNat % 2 ^ 8 = i.row.pattern.toNat := by
  obtain ⟨hhit, -, -⟩ := hits_of_decode h
  exact (fields_of_hits (row_mem i) hhit).1

/-- `Rinv` is congruent to every number that `R` takes to 1. -/
theorem rinv_modEq (hp : Nat.Prime c.p) (hodd : c.p % 2 = 1) {r : Nat} (hr : 2 ^ 384 * r % c.p = 1) :
    rinv c ≡ r [MOD c.p] := by
  rw [← ZMod.natCast_eq_natCast_iff]
  linear_combination (r : ZMod c.p) * two_pow_mul_zmod (two_pow_mul_rinv_mod hp hodd) - rinv c * two_pow_mul_zmod hr

/-- Settles O30: the number the statement names is congruent to `Rinv`; modulo 2 there is no such number. -/
theorem montmulResult : Obligations.MontmulResult := by
  intro fd fs1 fs2 s r hp hr
  have hodd : s.curve.p % 2 = 1 := by
    refine hp.eq_two_or_odd.resolve_left fun h2 => ?_
    rw [h2, pow_succ', mul_assoc, Nat.mul_mod_right] at hr
    exact zero_ne_one hr
  have hresult : montmul s.curve (s.f.get fs1).toNat (s.f.get fs2).toNat =
      (s.f.get fs1).toNat * (s.f.get fs2).toNat * r % s.curve.p := by
    rw [montmul_nat]
    exact (rinv_modEq hp hodd hr).mul_left _
  rw [exec_montmul, hresult]

/-- Settles O31: `fmul` of register values is the remainder of their product. -/
theorem modmulResult : Obligations.ModmulResult := by
  intro fd fs1 fs2 s
  rw [exec_modmul, fmul_nat]

/-- Settles O32: the two cases of `finv` on a register's value. -/
theorem modinvResult : Obligations.ModinvResult := by
  rintro fd fs1 s ⟨hp, hodd, -⟩
  rw [exec_modinv]
  generalize (s.f.get fs1).toNat = v
  obtain ⟨-, hcases⟩ := finvIsTheInverse s.curve v
  obtain ⟨hzero, hinverse⟩ := hcases hp (two_lt_of_odd hp hodd)
  refine ⟨fun hv => ?zero, fun hv => ?inverse⟩
  case zero =>
    obtain ⟨hw, hno⟩ := hzero (by exact_mod_cast hv)
    rw [hw, hno]
    rfl
  case inverse =>
    obtain ⟨hhas, -, hlt, hone, -⟩ := hinverse (by exact_mod_cast hv)
    exact ⟨finv s.curve v, hlt, by exact_mod_cast hone, finv_nat s.curve v, by rw [hhas]; rfl⟩

/-- Settles O33: the table has a value at 0 to 8; a word of this opcode that is legal is an `FLDC` with such an index. -/
theorem fldcResult : Obligations.FldcResult := by
  refine ⟨fun fd c s hc => exec_fldc_of_constVal (constVal_eq_constTable hc) fd, fun w hop hix => ?_⟩
  cases hdecode : decode w with
  | illegal => rfl
  | legal i =>
    obtain ⟨-, hread, hwf⟩ := hits_of_decode hdecode
    have hpattern : 0x13 = i.row.pattern.toNat := hop.symm.trans (pattern_of_decode hdecode)
    cases i with
    | fldc fd c =>
      rw [← hread] at hwf
      have hle : (constAt w).val ≤ 8 := of_decide_eq_true hwf
      rw [constAt_bits] at hle
      omega
    | _ =>
      simp only [Instr.row] at hpattern
      exact absurd hpattern (by decide)

end Sys2Proof.Proofs
end

section
/-!
PROOFS. The point unit (spec/41_point.md R110 to R123): what the point functions answer, case by case and modulo `p`, that
they stay in the group, and the six commands.
-/

namespace Sys2Proof.Proofs

open Sys2Proof.Machine Sys2Proof.Laws

variable {c : CurveParameters}

/-! ### The field functions do not see a reduction of an operand (R91) -/

section Reduction

variable (u v : Int)

@[simp] theorem fred_emod : fred c (u % c.p) = fred c u := fred_congr (Int.mod_modEq ..)
@[simp] theorem fadd_emod_left : fadd c (u % c.p) v = fadd c u v := fred_congr ((Int.mod_modEq ..).add_right v)
@[simp] theorem fadd_emod_right : fadd c u (v % c.p) = fadd c u v := fred_congr ((Int.mod_modEq ..).add_left u)
@[simp] theorem fsub_emod_left : fsub c (u % c.p) v = fsub c u v := fred_congr ((Int.mod_modEq ..).sub_right v)
@[simp] theorem fsub_emod_right : fsub c u (v % c.p) = fsub c u v := fred_congr ((Int.mod_modEq ..).sub_left u)
@[simp] theorem fmul_emod_left : fmul c (u % c.p) v = fmul c u v := fred_congr ((Int.mod_modEq ..).mul_right v)
@[simp] theorem fmul_emod_right : fmul c u (v % c.p) = fmul c u v := fred_congr ((Int.mod_modEq ..).mul_left u)

end Reduction

/-! ### The point functions do not see a reduction (R111) -/

section Normal

variable (q r : Point)

theorem ptNorm_ptNorm : ptNorm c (ptNorm c q) = ptNorm c q := by
  cases q with
  | inf => rfl
  | aff x y => simp [ptNorm]

theorem onCurve_ptNorm : onCurve c (ptNorm c q) = onCurve c q := by
  cases q with
  | inf => rfl
  | aff x y => simp [ptNorm, onCurve, fmul_nat]

theorem ptDbl_ptNorm : ptDbl c (ptNorm c q) = ptDbl c q := by
  cases q with
  | inf => rfl
  | aff x y => simp [ptNorm, ptDbl, dblSlope]

theorem ptNeg_ptNorm : ptNeg c (ptNorm c q) = ptNeg c q := by
  cases q with
  | inf => rfl
  | aff x y => simp [ptNorm, ptNeg]

theorem ptAdd_ptNorm : ptAdd c (ptNorm c q) (ptNorm c r) = ptAdd c q r := by
  cases q with
  | inf =>
    cases r with
    | inf => rfl
    | aff x y => exact ptNorm_ptNorm (.aff x y)
  | aff x₁ y₁ =>
    cases r with
    | inf => exact ptNorm_ptNorm (.aff x₁ y₁)
    | aff x₂ y₂ =>
      have hdbl := ptDbl_ptNorm (c := c) (.aff x₁ y₁)
      simp only [ptNorm] at hdbl
      simp only [ptNorm, ptAdd, hdbl]
      simp [chord]

end Normal

theorem ptNeg_canonical (hp : 0 < c.p) (q : Point) : (ptNeg c q).Canonical c := by
  cases q with
  | inf => trivial
  | aff x y => exact ⟨fred_lt hp _, fred_lt hp _⟩

/-- Settles O45: the functions take their coordinates through the field functions, and answer values of theirs. -/
theorem pointFunctionsNormalise : Obligations.PointFunctionsNormalise := fun _ hp q r =>
  ⟨ptNorm_ptNorm q, onCurve_ptNorm q, ptDbl_ptNorm q, ptNeg_ptNorm q, ptAdd_ptNorm q r,
    ptNorm_canonical hp q, ptDbl_canonical hp q, ptNeg_canonical hp q, ptAdd_canonical hp q r⟩

/-! ### The formulas in `ZMod p` -/

theorem isDouble_iff {x y x' y' : Nat} : Spec.IsDouble c x y x' y' ↔ x' < c.p ∧ y' < c.p ∧ ∃ lam : ZMod c.p,
    lam * (2 * y) = 3 * x ^ 2 + c.a ∧ (x' : ZMod c.p) = lam ^ 2 - 2 * x ∧ (y' : ZMod c.p) = lam * (x - x') - y := by
  simp only [Spec.IsDouble, ← ZMod.intCast_eq_intCast_iff, ZMod.intCast_surjective.exists]
  push_cast
  rfl

theorem isChordSum_iff {x₁ y₁ x₂ y₂ x₃ y₃ : Nat} : Spec.IsChordSum c x₁ y₁ x₂ y₂ x₃ y₃ ↔
    x₃ < c.p ∧ y₃ < c.p ∧ ∃ lam : ZMod c.p, lam * (x₂ - x₁) = y₂ - y₁ ∧ (x₃ : ZMod c.p) = lam ^ 2 - x₁ - x₂ ∧
      (y₃ : ZMod c.p) = lam * (x₁ - x₃) - y₁ := by
  simp only [Spec.IsChordSum, ← ZMod.intCast_eq_intCast_iff, ZMod.intCast_surjective.exists]
  push_cast
  rfl

/-! ### What the functions answer, case by case (R113 to R115) -/

section Cases

variable {x y x₁ y₁ x₂ y₂ : Nat}

theorem fsub_lt (hp : 0 < c.p) (u v : Int) : fsub c u v < c.p := fred_lt hp _

theorem sub_ne_zero_of_mod_ne (h : x₁ % c.p ≠ x₂ % c.p) : (x₂ : ZMod c.p) - x₁ ≠ 0 :=
  sub_ne_zero.2 fun heq => h ((ZMod.natCast_eq_natCast_iff' ..).1 heq.symm)

theorem ptDbl_of_y_eq_zero (hy : y % c.p = 0) : ptDbl c (.aff x y) = .inf := by
  rw [ptDbl, fred_natCast, if_pos hy]

theorem exists_isDouble_ptDbl (hp : Nat.Prime c.p) (h2 : 2 < c.p) (hy : y % c.p ≠ 0) :
    ∃ x' y', Spec.IsDouble c x y x' y' ∧ ptDbl c (.aff x y) = .aff x' y' := by
  have hslope := dblSlope_zmod hp h2 x ((ZMod.natCast_eq_zero_iff y c.p).not.2 fun h => hy (Nat.mod_eq_zero_of_dvd h))
  rw [ptDbl, fred_natCast, if_neg hy]
  refine ⟨_, _, isDouble_iff.2 ⟨fsub_lt hp.pos .., fsub_lt hp.pos .., dblSlope c x y, hslope, ?_, ?_⟩, rfl⟩
  all_goals simp only [fsub_zmod hp.pos, fmul_zmod hp.pos, Int.cast_natCast, Int.cast_ofNat, pow_two]

theorem fsub_eq_zero_iff_mod (hp : 0 < c.p) (u v : Nat) : fsub c u v = 0 ↔ u % c.p = v % c.p := by
  rw [fsub_eq_zero_iff hp, Int.cast_natCast, Int.cast_natCast, ZMod.natCast_eq_natCast_iff']

theorem ptAdd_of_opposite (hp : 0 < c.p) (hx : x₁ % c.p = x₂ % c.p) (hy : y₁ % c.p ≠ y₂ % c.p) :
    ptAdd c (.aff x₁ y₁) (.aff x₂ y₂) = .inf := by
  rw [ptAdd, if_pos ((fsub_eq_zero_iff_mod hp ..).2 hx), if_neg ((fsub_eq_zero_iff_mod hp ..).not.2 hy)]

theorem ptAdd_of_equal (hp : 0 < c.p) (hx : x₁ % c.p = x₂ % c.p) (hy : y₁ % c.p = y₂ % c.p) :
    ptAdd c (.aff x₁ y₁) (.aff x₂ y₂) = ptDbl c (.aff x₁ y₁) := by
  rw [ptAdd, if_pos ((fsub_eq_zero_iff_mod hp ..).2 hx), if_pos ((fsub_eq_zero_iff_mod hp ..).2 hy)]

theorem exists_isChordSum_ptAdd (hp : Nat.Prime c.p) (h2 : 2 < c.p) (hx : x₁ % c.p ≠ x₂ % c.p) :
    ∃ x₃ y₃, Spec.IsChordSum c x₁ y₁ x₂ y₂ x₃ y₃ ∧ ptAdd c (.aff x₁ y₁) (.aff x₂ y₂) = .aff x₃ y₃ := by
  have : Fact (Nat.Prime c.p) := ⟨hp⟩
  rw [ptAdd, if_neg ((fsub_eq_zero_iff_mod hp.pos ..).not.2 hx)]
  refine ⟨_, _, isChordSum_iff.2 ⟨fsub_lt hp.pos .., fsub_lt hp.pos ..,
    fmul c (fsub c y₂ y₁) (finv c (fsub c x₂ x₁)), ?_, ?_, ?_⟩, rfl⟩
  · simp only [fsub_zmod hp.pos, fmul_zmod hp.pos, finv_zmod hp h2, Int.cast_natCast]
    exact inv_mul_cancel_right₀ (sub_ne_zero_of_mod_ne hx) _
  all_goals simp only [fsub_zmod hp.pos, fmul_zmod hp.pos, Int.cast_natCast, pow_two]

/-- `pt_norm` takes remainders (R111). -/
theorem ptNorm_aff : ptNorm c (.aff x y) = .aff (x % c.p) (y % c.p) := by simp [ptNorm]

/-- `pt_neg` on remainders (R115). -/
theorem ptNeg_aff (hp : 0 < c.p) : ptNeg c (.aff x y) = .aff (x % c.p) ((c.p - y % c.p) % c.p) := by
  have hy : y % c.p ≤ c.p := (Nat.mod_lt y hp).le
  have hneg : fsub c 0 y = (c.p - y % c.p) % c.p := by
    rw [← fred_natCast, fsub, fred_eq_iff hp, ← ZMod.intCast_eq_intCast_iff, Nat.cast_sub hy]
    simp
  rw [ptNeg, fred_natCast, hneg]

end Cases

/-! ### The functions stay in the group (R123) -/

section Closure

variable {q r : Point}

/-- A tangent's third point is on the curve: along the line the cubic is `(X - x)^2 * (X - x')`. -/
theorem onCurve_of_isDouble (hp : 0 < c.p) {x y x' y' : Nat} (hdbl : Spec.IsDouble c x y x' y')
    (hon : onCurve c (.aff x y) = true) : onCurve c (.aff x' y') = true := by
  rw [onCurve_iff hp] at hon ⊢
  obtain ⟨-, -, lam, hlam, hx, hy⟩ := isDouble_iff.1 hdbl
  rw [hy]
  linear_combination hon + (x' - x) * hlam - (x' - x) ^ 2 * hx

/-- A chord's third point is on the curve: along the line the cubic is `(X - x₁) * (X - x₂) * (X - x₃)`, a linear rest with the
two zeros `x₁ ≠ x₂` being 0. -/
theorem onCurve_of_isChordSum (hp : Nat.Prime c.p) {x₁ y₁ x₂ y₂ x₃ y₃ : Nat} (hne : x₁ % c.p ≠ x₂ % c.p)
    (hsum : Spec.IsChordSum c x₁ y₁ x₂ y₂ x₃ y₃) (h₁ : onCurve c (.aff x₁ y₁) = true)
    (h₂ : onCurve c (.aff x₂ y₂) = true) : onCurve c (.aff x₃ y₃) = true := by
  have : Fact (Nat.Prime c.p) := ⟨hp⟩
  rw [onCurve_iff hp.pos] at h₁ h₂ ⊢
  obtain ⟨-, -, lam, hlam, hx, hy⟩ := isChordSum_iff.1 hsum
  refine mul_left_cancel₀ (sub_ne_zero_of_mod_ne hne) ?_
  rw [hy]
  linear_combination (x₂ - x₃) * h₁ + (x₃ - x₁) * h₂ + (x₃ - x₁) * (y₂ + lam * (x₂ - x₁) + y₁) * hlam -
    (x₂ - x₁) * (x₃ - x₁) * (x₃ - x₂) * hx

theorem inGroup_inf : Point.inf.InGroup c := .inl rfl

theorem inGroup_ptNorm (h : q.InGroup c) : (ptNorm c q).InGroup c := by
  obtain rfl | hon := h
  · exact inGroup_inf
  · exact .inr (by rwa [onCurve_ptNorm])

theorem onCurve_of_inGroup {x y : Nat} (h : (Point.aff x y).InGroup c) : onCurve c (.aff x y) = true :=
  h.resolve_left Point.noConfusion

theorem inGroup_ptNeg (hp : 0 < c.p) (h : q.InGroup c) : (ptNeg c q).InGroup c := by
  cases q with
  | inf => exact inGroup_inf
  | aff x y =>
    have hon := (onCurve_iff hp x y).1 (onCurve_of_inGroup h)
    refine .inr ((onCurve_iff hp _ _).2 ?_)
    simpa [fsub_zmod hp] using hon

theorem inGroup_ptDbl (hp : Nat.Prime c.p) (h2 : 2 < c.p) (h : q.InGroup c) : (ptDbl c q).InGroup c := by
  cases q with
  | inf => exact inGroup_inf
  | aff x y =>
    by_cases hy : y % c.p = 0
    · rw [ptDbl_of_y_eq_zero hy]
      exact inGroup_inf
    · obtain ⟨x', y', hdbl, heq⟩ := exists_isDouble_ptDbl (x := x) hp h2 hy
      rw [heq]
      exact .inr (onCurve_of_isDouble hp.pos hdbl (onCurve_of_inGroup h))

theorem inGroup_ptAdd (hp : Nat.Prime c.p) (h2 : 2 < c.p) (hq : q.InGroup c) (hr : r.InGroup c) :
    (ptAdd c q r).InGroup c := by
  cases q with
  | inf =>
    cases r with
    | inf => exact inGroup_inf
    | aff x y => exact inGroup_ptNorm hr
  | aff x₁ y₁ =>
    cases r with
    | inf => exact inGroup_ptNorm hq
    | aff x₂ y₂ =>
      by_cases hx : x₁ % c.p = x₂ % c.p
      · by_cases hy : y₁ % c.p = y₂ % c.p
        · rw [ptAdd_of_equal hp.pos hx hy]
          exact inGroup_ptDbl hp h2 hq
        · rw [ptAdd_of_opposite hp.pos hx hy]
          exact inGroup_inf
      · obtain ⟨x₃, y₃, hsum, heq⟩ := exists_isChordSum_ptAdd (y₁ := y₁) (y₂ := y₂) hp h2 hx
        rw [heq]
        exact .inr (onCurve_of_isChordSum hp hx hsum (onCurve_of_inGroup hq) (onCurve_of_inGroup hr))

theorem inGroup_smulLoop (hp : Nat.Prime c.p) (h2 : 2 < c.p) (hq : q.InGroup c) (k i : Nat) {acc : Point}
    (hacc : acc.InGroup c) : (smulLoop c k q i acc).InGroup c := by
  induction i generalizing acc with
  | zero => exact hacc
  | succ i ih =>
    have hdbl := inGroup_ptDbl hp h2 hacc
    rw [smulLoop]
    split
    · exact ih (inGroup_ptAdd hp h2 hdbl hq)
    · exact ih hdbl

end Closure

/-- Settles O51: the third point of a tangent or a chord is on the curve, and a multiple is made by doubling and adding. -/
theorem groupClosure : Obligations.GroupClosure := fun _ hp hodd _ _ hq hr =>
  have h2 := two_lt_of_odd hp hodd
  ⟨inGroup_ptDbl hp h2 hq, inGroup_ptAdd hp h2 hq hr, inGroup_ptNeg hp.pos hq,
    fun k => inGroup_smulLoop hp h2 hq k 384 inGroup_inf⟩

/-! ### The commands (R117 to R122) -/

section Commands

variable (pd ps1 ps2 : PReg) (s : State)

theorem finishPoint_inf : finishPoint pd .inf s = .next (Spec.wrInf s pd) := rfl

theorem finishPoint_aff (x y : Nat) : finishPoint pd (.aff x y) s = .next (Spec.wrPair s pd x y) := rfl

theorem exec_pdbl : exec (.pdbl pd ps1) s = finishPoint pd (ptDbl s.curve (s.readPoint ps1)) s := rfl

theorem exec_padd :
    exec (.padd pd ps1 ps2) s = finishPoint pd (ptAdd s.curve (s.readPoint ps1) (s.readPoint ps2)) s := rfl

theorem exec_pneg : exec (.pneg pd ps1) s = finishPoint pd (ptNeg s.curve (s.readPoint ps1)) s := rfl

theorem exec_pisinf : exec (.pisinf ps1) s = .next (Spec.success s ⟨(s.readPoint ps1).isInf, false, false⟩) := rfl

theorem exec_pchk : exec (.pchk ps1) s =
    .next (Spec.success s ⟨(s.readPoint ps1).isInf, onCurve s.curve (s.readPoint ps1), false⟩) := rfl

end Commands

/-- The two ends of a doubled pair, of `PDBL` and of `PADD` on equal points. -/
theorem finishPoint_ptDbl {pd : PReg} {s : State} {x y : Nat} (hfits : Spec.fits s.curve) :
    (y % s.curve.p = 0 → finishPoint pd (ptDbl s.curve (.aff x y)) s = .next (Spec.wrInf s pd)) ∧
    (y % s.curve.p ≠ 0 → ∃ x' y', Spec.IsDouble s.curve x y x' y' ∧
      finishPoint pd (ptDbl s.curve (.aff x y)) s = .next (Spec.wrPair s pd x' y')) := by
  obtain ⟨hp, hodd, -⟩ := hfits
  refine ⟨fun hy => ?_, fun hy => ?_⟩
  · rw [ptDbl_of_y_eq_zero hy, finishPoint_inf]
  · obtain ⟨x', y', hdbl, heq⟩ := exists_isDouble_ptDbl (x := x) hp (two_lt_of_odd hp hodd) hy
    exact ⟨x', y', hdbl, by rw [heq, finishPoint_aff]⟩

/-- Settles O34: the doubler on the register's value. -/
theorem pdblResult : Obligations.PdblResult := by
  intro pd ps1 s hfits
  rw [exec_pdbl]
  refine ⟨fun hinf => ?infinity, fun hfin => ?zero, fun hfin => ?tangent⟩
  case infinity => rw [readPoint_inf hinf, ptDbl, finishPoint_inf]
  all_goals rw [readPoint_aff hfin]
  case zero => exact (finishPoint_ptDbl hfits).1
  case tangent => exact (finishPoint_ptDbl hfits).2

/-- Settles O35: the adder on the registers' values. -/
theorem paddResult : Obligations.PaddResult := by
  intro pd ps1 ps2 s hfits
  have ⟨hp, hodd, _⟩ := hfits
  rw [exec_padd]
  refine ⟨fun h₁ h₂ => ?infinities, fun h₁ h₂ => ?second, fun h₁ h₂ => ?first, fun h₁ h₂ =>
    ⟨fun hx => ⟨fun hy => ?opposite, fun hy => ?equal⟩, fun hx => ?chord⟩⟩
  case infinities => rw [readPoint_inf h₁, readPoint_inf h₂, ptAdd, finishPoint_inf]
  case second => rw [readPoint_inf h₁, readPoint_aff h₂, ptAdd, ptNorm_aff, finishPoint_aff]
  case first => rw [readPoint_aff h₁, readPoint_inf h₂, ptAdd, ptNorm_aff, finishPoint_aff]
  all_goals rw [readPoint_aff h₁, readPoint_aff h₂]
  case opposite => rw [ptAdd_of_opposite hp.pos hx hy, finishPoint_inf]
  case equal =>
    rw [ptAdd_of_equal hp.pos hx hy]
    exact finishPoint_ptDbl hfits
  case chord =>
    obtain ⟨x₃, y₃, hsum, heq⟩ := exists_isChordSum_ptAdd hp (two_lt_of_odd hp hodd) hx
    exact ⟨x₃, y₃, hsum, by rw [heq, finishPoint_aff]⟩

/-- Settles O36: negation on the register's value. -/
theorem pnegResult : Obligations.PnegResult := by
  intro pd ps1 s hp
  rw [exec_pneg]
  refine ⟨fun hinf => ?_, fun hfin => ?_⟩
  · rw [readPoint_inf hinf, ptNeg, finishPoint_inf]
  · rw [readPoint_aff hfin, ptNeg_aff hp, finishPoint_aff]

/-- Settles O37: the detector on the register's value is its bit. -/
theorem pisinfResult : Obligations.PisinfResult := by
  intro ps1 s
  rw [exec_pisinf, readPoint_isInf, State.getPt]

/-- Settles O38: the two flags on the register's value. -/
theorem pchkResult : Obligations.PchkResult := by
  intro ps1 s
  rw [exec_pchk]
  refine ⟨fun hinf => ?_, fun hfin hon => ?_, fun hfin hoff => ?_⟩
  · rw [readPoint_inf hinf]
    rfl
  · rw [readPoint_aff hfin, (onCurve_iff_spec ..).2 hon]
    rfl
  · rw [readPoint_aff hfin, Bool.eq_false_iff.2 ((onCurve_iff_spec ..).not.2 hoff)]
    rfl

/-- Settles O39: the generator of the record is a pair. -/
theorem pldgResult : Obligations.PldgResult := fun pd s => finishPoint_aff pd s s.curve.gx s.curve.gy

end Sys2Proof.Proofs
end

section
/-!
PROOFS. The scalar multiplier (spec/42_scalar.md R130 to R133): the loop as a fold over the bit positions, the small scalars,
the command, and the symmetry of the key exchange.
-/

namespace Sys2Proof.Proofs

open Sys2Proof.Machine Sys2Proof.Laws

variable {c : CurveParameters}

/-! ### The loop (R130) -/

/-- The loop is the fold over the bit positions from the highest down. -/
theorem smulLoop_eq_foldl (k : Nat) (q : Point) (n : Nat) (acc : Point) :
    smulLoop c k q n acc = (List.range n).reverse.foldl (fun acc i =>
      if k.testBit i then ptAdd c (ptDbl c acc) q else ptDbl c acc) acc := by
  induction n generalizing acc with
  | zero => rfl
  | succ n ih => rw [smulLoop, ih, List.range_succ, List.reverse_concat, List.foldl_cons]

theorem ptAdd_inf_left (q : Point) : ptAdd c .inf q = ptNorm c q := by
  cases q <;> rfl

/-- A round on a zero bit leaves `INF`. -/
theorem smulLoop_succ_inf_of_not_testBit {k i : Nat} (h : k.testBit i = false) (q : Point) :
    smulLoop c k q (i + 1) .inf = smulLoop c k q i .inf := by
  rw [smulLoop, h, if_neg Bool.false_ne_true, ptDbl]

/-- The first round on a one bit loads the normal form of the point. -/
theorem smulLoop_succ_inf_of_testBit {k i : Nat} (h : k.testBit i = true) (q : Point) :
    smulLoop c k q (i + 1) .inf = smulLoop c k q i (ptNorm c q) := by
  rw [smulLoop, if_pos h, ptDbl, ptAdd_inf_left]

/-- The rounds above the highest one bit of a scalar leave `INF`, so they may be skipped. -/
theorem smulLoop_inf_eq_of_lt {k n m : Nat} (hk : k < 2 ^ n) (h : n ≤ m) (q : Point) :
    smulLoop c k q m .inf = smulLoop c k q n .inf := by
  induction m, h using Nat.le_induction with
  | base => rfl
  | succ m h ih =>
    have hbit : k.testBit m = false := Nat.testBit_lt_two_pow (hk.trans_le (Nat.pow_le_pow_right two_pos h))
    rw [smulLoop_succ_inf_of_not_testBit hbit, ih]

/-- The multiplier on a scalar of at most `n` bits runs the last `n` rounds. -/
theorem smul_eq_smulLoop {k n : Nat} (hk : k < 2 ^ n) (hn : n ≤ 384) (q : Point) :
    smul c k q = smulLoop c k q n .inf :=
  smulLoop_inf_eq_of_lt hk hn q

/-! ### Small scalars and infinity (R133) -/

theorem smul_zero_left (q : Point) : smul c 0 q = .inf :=
  smul_eq_smulLoop (n := 0) (by decide) (by decide) q

theorem smul_one_left (q : Point) : smul c 1 q = ptNorm c q := by
  rw [smul_eq_smulLoop (n := 1) (by decide) (by decide), smulLoop_succ_inf_of_testBit (by decide), smulLoop]

theorem smul_two_left (q : Point) : smul c 2 q = ptDbl c q := by
  rw [smul_eq_smulLoop (n := 2) (by decide) (by decide), smulLoop_succ_inf_of_testBit (by decide), smulLoop, smulLoop,
    Nat.testBit_zero, if_neg (by decide), ptDbl_ptNorm]

theorem smulLoop_inf_inf (k n : Nat) : smulLoop c k .inf n .inf = .inf := by
  induction n with
  | zero => rfl
  | succ n ih =>
    cases hbit : k.testBit n with
    | false => rw [smulLoop_succ_inf_of_not_testBit hbit, ih]
    | true => rw [smulLoop_succ_inf_of_testBit hbit, ptNorm, ih]

theorem smul_inf_right (k : Nat) : smul c k .inf = .inf := smulLoop_inf_inf k 384

/-- Settles O52: the rounds before the highest one bit leave `INF`, and the round of that bit loads the point. -/
theorem smulOnSmallScalars : Obligations.SmulOnSmallScalars := fun _ _ k q =>
  ⟨smul_zero_left q, smul_one_left q, smul_two_left q, smul_inf_right k⟩

/-! ### The command (R132) -/

theorem exec_smul (pd ps1 : PReg) (fs2 : FReg) (s : State) :
    exec (.smul pd ps1 fs2) s = finishPoint pd (smul s.curve (s.readField fs2) (s.readPoint ps1)) s := rfl

/-- Settles O40: the fold is the loop on the registers' values, and what the loop answers is canonical. -/
theorem smulResult : Obligations.SmulResult := by
  intro pd ps1 fs2 s q hp hfold
  have hq : smul s.curve (s.readField fs2) (s.readPoint ps1) = q := (smulLoop_eq_foldl ..).trans hfold.symm
  have hcanonical : q.Canonical s.curve := hq ▸ smul_canonical hp ..
  rw [exec_smul, hq]
  refine ⟨fun hinf => ?infinity, fun x y hpair => ?pair⟩
  case infinity => rw [hinf, finishPoint_inf]
  case pair =>
    subst hpair
    obtain ⟨hx, hy⟩ := hcanonical
    exact ⟨hx, hy, finishPoint_aff pd s x y⟩

/-! ### Scalar multiplications commute (R133) -/

/-- A point of the curve has one canonical point value. -/
theorem Represents.eq_of_canonical {q r : Point} {P : (weierstrass c).Point} (hq : Represents c q P)
    (hr : Represents c r P) (hcq : q.Canonical c) (hcr : r.Canonical c) : q = r := by
  cases q with
  | inf => exact (hr.eq_inf_iff.2 hq).symm
  | aff x y =>
    cases r with
    | inf => exact hq.eq_inf_iff.2 hr
    | aff x' y' =>
      obtain ⟨_, rfl⟩ := hq
      obtain ⟨_, heq⟩ := hr
      obtain ⟨hx, hy⟩ := WeierstrassCurve.Affine.Point.some.inj heq
      obtain ⟨hxp, hyp⟩ := hcq
      obtain ⟨hxp', hyp'⟩ := hcr
      rw [eq_of_zmod_eq hxp hxp' hx, eq_of_zmod_eq hyp hyp' hy]

/-- Settles O53: both orders represent one multiple in the commutative group of the curve, and both are canonical. -/
theorem ecdhSymmetry : Obligations.EcdhSymmetry := by
  intro c hp hodd hdiscr q hq j k hj hk
  have : Fact (Nat.Prime c.p) := ⟨hp⟩
  have h2 := two_lt_of_odd hp hodd
  obtain ⟨Q, hQ⟩ := exists_represents hp h2 hdiscr hq
  have hjk : Represents c (smul c j (smul c k q)) (j • k • Q) := represents_smul h2 hj (represents_smul h2 hk hQ)
  have hkj : Represents c (smul c k (smul c j q)) (k • j • Q) := represents_smul h2 hk (represents_smul h2 hj hQ)
  rw [smul_comm] at hkj
  exact hjk.eq_of_canonical hkj (smul_canonical hp.pos _ _) (smul_canonical hp.pos _ _)

end Sys2Proof.Proofs
end

section
/-!
PROOFS. The codec (spec/43_codec.md R140 to R147): the byte strings of the encoder and the decoder are inverse to each other,
what the decoder answers check by check, and the three commands.
-/

namespace Sys2Proof.Proofs

open Sys2Proof.Machine Sys2Proof.Laws

/-! ### Big-endian strings (R15) -/

/-- By `256^L` the value of a string of `L + 1` bytes splits into the first byte and the value of the rest. -/
theorem beInt_cons_div (b : Byte) (bs : List Byte) : beInt (b :: bs) / 256 ^ bs.length = b.toNat := by
  rw [beInt_cons, Nat.mul_comm, Nat.mul_add_div (by positivity), Nat.div_eq_of_lt (beInt_lt bs), Nat.add_zero]

theorem beInt_cons_mod (b : Byte) (bs : List Byte) : beInt (b :: bs) % 256 ^ bs.length = beInt bs := by
  rw [beInt_cons, Nat.mul_add_mod_self_right, Nat.mod_eq_of_lt (beInt_lt bs)]

/-- Two strings of one length with one value are the same string. -/
theorem eq_of_beInt_eq {bs bs' : List Byte} (hlen : bs.length = bs'.length) (h : beInt bs = beInt bs') : bs = bs' := by
  induction bs generalizing bs' with
  | nil => exact (List.length_eq_zero_iff.1 hlen.symm).symm
  | cons b bs ih =>
    obtain _ | ⟨b', bs'⟩ := bs'
    · contradiction
    have hlen : bs.length = bs'.length := Nat.succ.inj hlen
    have hb : b.toNat = b'.toNat := by rw [← beInt_cons_div b bs, h, hlen, beInt_cons_div]
    have hbs : beInt bs = beInt bs' := by rw [← beInt_cons_mod b bs, h, hlen, beInt_cons_mod]
    rw [BitVec.eq_of_toNat_eq hb, ih hlen hbs]

/-- A string is the digits of its value. -/
theorem beBytes_beInt (bs : List Byte) : beBytes (beInt bs) bs.length = bs :=
  eq_of_beInt_eq (beBytes_length ..) (beInt_beBytes (beInt_lt bs))

/-! ### The strings of a point (R140, R141) -/

theorem decX_encPoint {x : Nat} (hx : x < 256 ^ Config.fieldBytes) (y : Nat) : decX (encPoint x y) = x := by
  rw [decX, encPoint, List.drop_succ_cons, List.drop_zero, List.take_left' (beBytes_length ..), beInt_beBytes hx]

theorem decY_encPoint (x : Nat) {y : Nat} (hy : y < 256 ^ Config.fieldBytes) : decY (encPoint x y) = y := by
  rw [decY, encPoint, List.drop_succ_cons, List.drop_left' (beBytes_length ..),
    List.take_of_length_le (beBytes_length ..).le, beInt_beBytes hy]

/-- A tagged string of 97 bytes is the encoding of its two coordinates. -/
theorem encPoint_dec {bs : List Byte} (hlen : bs.length = 97) (htag : bs.headD 0#8 = 0x04#8) :
    encPoint (decX bs) (decY bs) = bs := by
  obtain _ | ⟨b, bs⟩ := bs
  · contradiction
  have hlen : bs.length = 96 := Nat.succ.inj hlen
  have hx : beBytes (decX (b :: bs)) Config.fieldBytes = bs.take 48 := by
    have h := beBytes_beInt (bs.take 48)
    rwa [List.length_take_of_le (by omega)] at h
  have hy : beBytes (decY (b :: bs)) Config.fieldBytes = bs.drop 48 := by
    have hdrop : (bs.drop 48).length = 48 := by rw [List.length_drop, hlen]
    have h := beBytes_beInt (bs.drop 48)
    rw [hdrop] at h
    rwa [decY, List.drop_succ_cons, List.take_of_length_le hdrop.le]
  rw [encPoint, hx, hy, List.take_append_drop, ← htag, List.headD_cons]

/-! ### What the decoder answers (R141) -/

section Decoder

variable {c : CurveParameters} {bs : List Byte} {len : Nat}

theorem decPoint_of_length (hlen : len ≠ 97) : decPoint c bs len = .err .encLength := if_pos hlen

theorem decPoint_of_tag (hlen : len = 97) (htag : bs.headD 0#8 ≠ 0x04#8) : decPoint c bs len = .err .encTag := by
  rw [decPoint, if_neg (not_not.2 hlen), if_pos htag]

theorem decPoint_of_range (hlen : len = 97) (htag : bs.headD 0#8 = 0x04#8) (hrange : c.p ≤ decX bs ∨ c.p ≤ decY bs) :
    decPoint c bs len = .err .encRange := by
  rw [decPoint, if_neg (not_not.2 hlen), if_neg (not_not.2 htag), if_pos hrange]

/-- A string that passes the first three checks is decided by the curve equation. -/
theorem decPoint_of_canonical (hlen : len = 97) (htag : bs.headD 0#8 = 0x04#8) (hx : decX bs < c.p) (hy : decY bs < c.p) :
    decPoint c bs len = if onCurve c (.aff (decX bs) (decY bs)) = false then .err .encNotOnCurve
      else .pair (decX bs) (decY bs) := by
  rw [decPoint, if_neg (not_not.2 hlen), if_neg (not_not.2 htag), if_neg (by omega)]

/-- The decoder answers a pair exactly when the four checks pass, and it is the pair of the string's coordinates. -/
theorem decPoint_eq_pair_iff {x y : Nat} : decPoint c bs len = .pair x y ↔
    len = 97 ∧ bs.headD 0#8 = 0x04#8 ∧ decX bs = x ∧ decY bs = y ∧ x < c.p ∧ y < c.p ∧ onCurve c (.aff x y) = true := by
  constructor
  · intro h
    rw [decPoint] at h
    split_ifs at h with hlen htag hrange hon
    obtain ⟨rfl, rfl⟩ := DecResult.pair.inj h
    have ⟨hx, hy⟩ := not_or.1 hrange
    exact ⟨not_not.1 hlen, not_not.1 htag, rfl, rfl, Nat.lt_of_not_ge hx, Nat.lt_of_not_ge hy,
      Bool.eq_true_of_not_eq_false hon⟩
  · rintro ⟨hlen, htag, rfl, rfl, hx, hy, hon⟩
    rw [decPoint_of_canonical hlen htag hx hy, hon, if_neg Bool.noConfusion]

end Decoder

/-- Settles O56: the coordinates of an encoding are the numbers encoded, and a string that passes the tag check is the
encoding of its coordinates. -/
theorem codecRoundTrip : Obligations.CodecRoundTrip := by
  intro c hp
  have hp : c.p ≤ 256 ^ Config.fieldBytes := hp.trans_eq (pow_mul 2 8 48)
  refine ⟨fun x y hx hy hon => ⟨encPoint_length x y, ?decode⟩, fun bs len x y hbs h => ?encode⟩
  case decode =>
    exact decPoint_eq_pair_iff.2
      ⟨rfl, rfl, decX_encPoint (hx.trans_le hp) y, decY_encPoint x (hy.trans_le hp), hx, hy, hon⟩
  case encode =>
    obtain ⟨hlen, htag, rfl, rfl, hx, hy, hon⟩ := decPoint_eq_pair_iff.1 h
    exact ⟨hlen, hx, hy, hon, encPoint_dec hbs htag⟩

/-! ### The string of `BUF` as the decoder sees it (R25, R144) -/

/-- A slice of the bytes of `BUF`. -/
theorem take_drop_readBytes (m : Memory) {k n len : Nat} (h : k + n ≤ len) :
    ((Memory.readBytes m 0 len).drop k).take n = Memory.readBytes m k n := by
  apply List.ext_getElem
  · simp only [List.length_take, List.length_drop, readBytes_length]
    omega
  · intro i _ _
    simp only [List.getElem_take, List.getElem_drop, readBytes_getElem, Nat.zero_add]

/-- The value of 48 bytes of `BUF` is the sum of R15. -/
theorem beInt_readBytes (m : Memory) (k : Nat) : beInt (Memory.readBytes m k 48) = Spec.coordinate m k := by
  rw [beInt_sum, readBytes_length, Spec.coordinate]
  refine Finset.sum_congr rfl fun i hi => ?_
  rw [List.getD_eq_getElem _ _ (by rwa [readBytes_length, ← Finset.mem_range]), readBytes_getElem]

theorem bufString_headD (s : State) : s.bufString.headD 0#8 = Memory.read s.buf 0 := rfl

theorem decX_bufString (s : State) : decX s.bufString = Spec.coordinate s.buf 1 := by
  rw [decX, State.bufString, take_drop_readBytes s.buf (by decide), beInt_readBytes]

theorem decY_bufString (s : State) : decY s.bufString = Spec.coordinate s.buf 49 := by
  rw [decY, State.bufString, take_drop_readBytes s.buf (by decide), beInt_readBytes]

/-! ### `PDEC` (R146) -/

variable {s : State}

theorem exec_pdec_of_err {e : ErrorKind} (h : decPoint s.curve s.bufString s.len.toNat = .err e) (pd : PReg) :
    exec (.pdec pd) s = .next (Spec.report s e.code) := by
  simp only [exec, execPdec, h]
  rfl

theorem exec_pdec_of_pair {x y : Nat} (h : decPoint s.curve s.bufString s.len.toNat = .pair x y) (pd : PReg) :
    exec (.pdec pd) s = .next (Spec.wrPair s pd x y) := by
  simp only [exec, execPdec, h, finishPoint_aff]

/-- The length check on the register `LEN`. -/
theorem len_eq_97_iff : s.len = 97#8 ↔ s.len.toNat = 97 := BitVec.toNat_eq

/-- Settles O43: each clause is what the decoder answers on the bytes of `BUF`. -/
theorem pdecResult : Obligations.PdecResult := by
  intro pd s
  simp only [Spec.decodable, ← onCurve_iff_spec, ← bufString_headD, ← decX_bufString, ← decY_bufString, Ne, len_eq_97_iff]
  refine ⟨fun hlen => ?length, fun hlen htag => ?tag, fun hlen htag hrange => ?range, fun hlen htag hx hy hoff => ?offCurve,
    fun ⟨hlen, htag, hx, hy, hon⟩ => ?pair⟩
  case length => exact exec_pdec_of_err (decPoint_of_length hlen) pd
  case tag => exact exec_pdec_of_err (decPoint_of_tag hlen htag) pd
  case range => exact exec_pdec_of_err (decPoint_of_range hlen htag hrange) pd
  case offCurve =>
    exact exec_pdec_of_err ((decPoint_of_canonical hlen htag hx hy).trans (if_pos (Bool.eq_false_of_not_eq_true hoff))) pd
  case pair => exact exec_pdec_of_pair (decPoint_eq_pair_iff.2 ⟨hlen, htag, rfl, rfl, hx, hy, hon⟩) pd

/-! ### `PENC` and `XENC` (R145, R147) -/

/-- `BUF` after a string is put at its start. -/
theorem read_writeBytes_zero {m : Memory} (hm : m.wf) {bs : List Byte} (hbs : bs.length ≤ 97) (k : Nat) :
    Memory.read (Memory.writeBytes m 0 bs) k = if k < bs.length then bs.getD k 0#8 else Memory.read m k := by
  have hk : 0 ≤ k ∧ k < 0 + bs.length ∧ k < Config.bufBytes ↔ k < bs.length := by simp only [Config.bufBytes]; omega
  simp only [read_writeBytes bs m hm, hk, Nat.sub_zero]

variable {ps1 : PReg}

theorem exec_penc_of_inf (h : (s.pt.get ps1).inf = true) : exec (.penc ps1) s = .next (Spec.report s 0x20#8) := by
  simp only [exec, execPenc, readPoint_inf h, ptNorm]
  rfl

theorem exec_xenc_of_inf (h : (s.pt.get ps1).inf = true) : exec (.xenc ps1) s = .next (Spec.report s 0x20#8) := by
  simp only [exec, execXenc, readPoint_inf h, ptNorm]
  rfl

theorem exec_penc_of_finite (h : (s.pt.get ps1).inf = false) :
    exec (.penc ps1) s = .next (Spec.success (s.putString
      (encPoint ((s.pt.get ps1).x.toNat % s.curve.p) ((s.pt.get ps1).y.toNat % s.curve.p)) 97#8) ⟨false, false, false⟩) := by
  simp only [exec, execPenc, readPoint_aff h, ptNorm, fred_natCast]
  rfl

theorem exec_xenc_of_finite (h : (s.pt.get ps1).inf = false) :
    exec (.xenc ps1) s = .next (Spec.success (s.putString
      (encX ((s.pt.get ps1).x.toNat % s.curve.p)) 48#8) ⟨false, false, false⟩) := by
  simp only [exec, execXenc, readPoint_aff h, ptNorm, fred_natCast]
  rfl

/-- Settles O41: `BUF` is the encoding of the reduced coordinates, which fills it. -/
theorem pencResult : Obligations.PencResult := by
  refine fun ps1 s hbuf => ⟨exec_penc_of_inf, fun hfin => ?_⟩
  have hread := read_writeBytes_zero hbuf
    (encPoint_length ((s.pt.get ps1).x.toNat % s.curve.p) ((s.pt.get ps1).y.toNat % s.curve.p)).le
  simp only [encPoint_length] at hread
  refine ⟨_, wf_writeBytes _ s.buf hbuf 0, exec_penc_of_finite hfin, ?tag, fun i hi => ?x, fun i hi => ?y, fun k hk => ?kept⟩
  case tag => rw [hread, if_pos (by decide), encPoint_tag]
  case x => rw [hread, if_pos (by omega), encPoint_x _ _ hi]
  case y => rw [hread, if_pos (by omega), encPoint_y _ _ hi]
  case kept => rw [hread, if_neg (by omega)]

/-- Settles O42: the string ends at `BUF[47]`. -/
theorem xencResult : Obligations.XencResult := by
  refine fun ps1 s hbuf => ⟨exec_xenc_of_inf, fun hfin => ?_⟩
  have hread := read_writeBytes_zero hbuf (bs := encX ((s.pt.get ps1).x.toNat % s.curve.p)) (by rw [encX_length]; decide)
  simp only [encX_length] at hread
  refine ⟨_, wf_writeBytes _ s.buf hbuf 0, exec_xenc_of_finite hfin, fun i hi => ?x, fun k hk => ?kept⟩
  case x => rw [hread, if_pos hi, encX_getD _ hi]
  case kept => rw [hread, if_neg (by omega)]

end Sys2Proof.Proofs
end

section
/-!
PROOFS. The host sequences of commands (spec/44_host_sequences.md R160 to R164): what a program does line by line, with a
rule for a command and its `WAIT` and one for each check between commands, and the five pseudo-instructions over these rules.
-/

namespace Sys2Proof.Proofs

open Sys2Proof.Machine Sys2Proof.Laws

/-! ### A line, the end and a command of a program (R160, R214) -/

section Programs

variable {s t : State} {i : Instr}

/-- A line that is performed and reads nothing: the program goes on after it. -/
theorem runLines_silent {l : HostLine} {turns : List Nat} (hstop : l.stops s = false)
    (hline : drive (l.events (turns.headD 0) s.busy) s = .next t) (hsilent : l.result t = []) (ls : List HostLine) :
    runLines (l :: ls) turns s = runLines ls turns.tail t := by
  simp only [runLines, hstop, Bool.false_eq_true, if_false, hline, hsilent, List.nil_append]
  cases runLines ls turns.tail t <;> rfl

/-- A line that is performed, and the rest of the program after it. -/
theorem runLines_cons {l : HostLine} {ls : List HostLine} {turns : List Nat} {e : HostEnd} (hstop : l.stops s = false)
    (hline : drive (l.events (turns.headD 0) s.busy) s = .next t) (hrest : runLines ls turns.tail t = .next e) :
    runLines (l :: ls) turns s = .next { e with reads := l.result t ++ e.reads } := by
  simp only [runLines, hstop, Bool.false_eq_true, if_false, hline, hrest]

/-- A program that ends with nothing pending ends as it is. -/
theorem finish_idle (hidle : s.busy = false) (stopped : Bool) :
    finish stopped s = .next ⟨{ s with inputs := [] }, stopped, []⟩ := by
  rw [finish, drive_idle_turn hidle, drive_nil]

/-- The state in which a command of a program is performed: accepted, with no event of the host to come. -/
def issue (i : Instr) (s : State) : State := { s.accept (encode i) with inputs := [] }

/-- The state after the `WAIT` of a command that answered `t`: the word last read is its `STATUS`. -/
def polled (t : State) : State := { t with inputs := [], rdata := some t.statusWord }

/-- A command with its `WAIT` (R160): the program goes on from what the command answers. -/
theorem runLines_command (hidle : s.busy = false) (hwf : i.WellFormed) (hexec : exec i (issue i s) = .next t)
    (ls : List HostLine) (turns : List Nat) :
    runLines (.cmd i :: .wait :: ls) turns s = runLines ls (turns.drop 2) (polled t) :=
  runLines_cmd_wait hidle (decodeEncodeAgree.1 i hwf) hexec ls turns

theorem finish_polled (hidle : t.busy = false) (stopped : Bool) :
    finish stopped (polled t) = .next ⟨polled t, stopped, []⟩ := finish_idle (s := polled t) hidle stopped

theorem runLines_nil_polled (hidle : t.busy = false) (turns : List Nat) :
    runLines [] turns (polled t) = .next ⟨polled t, false, []⟩ := finish_polled hidle false

theorem runLines_of_stops {l : HostLine} (hstop : l.stops s = true) (ls : List HostLine) (turns : List Nat) :
    runLines (l :: ls) turns s = finish true s := by
  rw [runLines, if_pos hstop]

end Programs

/-! ### The checks between commands (R164) -/

section Checks

variable {t : State}

/-- `ERR` is bit 2 of `STATUS`, `INF` bit 16 (R34). -/
theorem statusWord_getLsbD_err (s : State) : s.statusWord.getLsbD 2 = s.err := by
  have hbusy := s.busy.toNat_lt
  have hdone := s.done.toNat_lt
  rw [BitVec.getLsbD, Nat.testBit_eq_decide_div_mod_eq, statusWord_toNat]
  cases s.err <;> simp only [Bool.toNat_false, Bool.toNat_true, decide_eq_true_eq, decide_eq_false_iff_not] <;> omega

theorem statusWord_getLsbD_inf (s : State) : s.statusWord.getLsbD 16 = s.flags.inf := by
  have hbusy := s.busy.toNat_lt
  have hdone := s.done.toNat_lt
  have herr := s.err.toNat_lt
  have hovr := s.ovr.toNat_lt
  have herrcode := s.errcode.isLt
  rw [BitVec.getLsbD, Nat.testBit_eq_decide_div_mod_eq, statusWord_toNat]
  cases s.flags.inf <;> simp only [Bool.toNat_false, Bool.toNat_true, decide_eq_true_eq, decide_eq_false_iff_not] <;>
    omega

/-- After a `WAIT` the two checks look at the report of the command that completed. -/
theorem stopIfErr_stops_polled (t : State) : HostLine.stopIfErr.stops (polled t) = t.err := statusWord_getLsbD_err t

theorem stopIfInf_stops_polled (t : State) : HostLine.stopIfInf.stops (polled t) = t.flags.inf := statusWord_getLsbD_inf t

theorem drive_insertTurn_nil_polled (hidle : t.busy = false) (n : Nat) :
    drive (insertTurn n []) (polled t) = .next (polled t) :=
  drive_insertTurn (s := polled t) (List.forall_mem_nil _) n hidle

theorem runLines_stopIfErr_passed (hidle : t.busy = false) (herr : t.err = false) (ls : List HostLine) (turns : List Nat) :
    runLines (.stopIfErr :: ls) turns (polled t) = runLines ls turns.tail (polled t) :=
  runLines_silent ((stopIfErr_stops_polled t).trans herr) (drive_insertTurn_nil_polled hidle _) rfl ls

theorem runLines_stopIfInf_passed (hidle : t.busy = false) (hinf : t.flags.inf = false) (ls : List HostLine)
    (turns : List Nat) : runLines (.stopIfInf :: ls) turns (polled t) = runLines ls turns.tail (polled t) :=
  runLines_silent ((stopIfInf_stops_polled t).trans hinf) (drive_insertTurn_nil_polled hidle _) rfl ls

theorem runLines_stopIfErr_stopped (hidle : t.busy = false) (herr : t.err = true) (ls : List HostLine) (turns : List Nat) :
    runLines (.stopIfErr :: ls) turns (polled t) = .next ⟨polled t, true, []⟩ :=
  (runLines_of_stops ((stopIfErr_stops_polled t).trans herr) ls turns).trans (finish_polled hidle true)

theorem runLines_stopIfInf_stopped (hidle : t.busy = false) (hinf : t.flags.inf = true) (ls : List HostLine)
    (turns : List Nat) : runLines (.stopIfInf :: ls) turns (polled t) = .next ⟨polled t, true, []⟩ :=
  (runLines_of_stops ((stopIfInf_stops_polled t).trans hinf) ls turns).trans (finish_polled hidle true)

end Checks

/-! ### Programs of field commands (R161) -/

section FieldCommands

variable {s : State} {i : Instr} {fd : FReg} {v : Nat}

/-- The state after a command that writes a field register, and its `WAIT`. -/
def afterField (s : State) (i : Instr) (fd : FReg) (v : Nat) : State :=
  polled (Spec.wrField (issue i s) fd v ⟨false, false, false⟩)

theorem afterField_busy : (afterField s i fd v).busy = false := rfl

theorem afterField_get_self : (afterField s i fd v).f.get fd = BitVec.ofNat 384 v :=
  getF_setF_self s fd (BitVec.ofNat 384 v)

theorem afterField_get_ne {k : FReg} (h : k ≠ fd) : (afterField s i fd v).f.get k = s.f.get k :=
  getF_setF_ne s (BitVec.ofNat 384 v) h

/-- A command that writes a field register, with its `WAIT`. -/
theorem runLines_field_command (hidle : s.busy = false) (hwf : i.WellFormed)
    (hexec : exec i (issue i s) = .next (Spec.wrField (issue i s) fd v ⟨false, false, false⟩)) (ls : List HostLine)
    (turns : List Nat) : runLines (.cmd i :: .wait :: ls) turns s = runLines ls (turns.drop 2) (afterField s i fd v) :=
  runLines_command hidle hwf hexec ls turns

theorem exec_montmul_of_get {fs1 fs2 : FReg} {u : Nat} (hu : (s.f.get fs1).toNat = u) (hv : (s.f.get fs2).toNat = v) :
    exec (.montmul fd fs1 fs2) s = .next (Spec.wrField s fd (montmul s.curve u v) ⟨false, false, false⟩) := by
  rw [exec_montmul, hu, hv]

/-- A constant loaded into `ft` and a Montgomery product with it: the product in `fd`, the constant in `ft`, nothing else of
the data changed. -/
theorem runLines_fldc_montmul {ft fs : FReg} {ix : ConstIx} (hidle : s.busy = false) (hne : ft ≠ fs) (hix : ix.val ≤ 8)
    (hconst : (Spec.constTable s.curve).getD ix.val 0 = v) (hv : v < 2 ^ 384) (hpos : 0 < s.curve.p)
    (hp : s.curve.p < 2 ^ 384) (fd : FReg) (turns : List Nat) :
    ∃ t : State, runLines [.cmd (.fldc ft ix), .wait, .cmd (.montmul fd fs ft), .wait] turns s = .next ⟨t, false, []⟩ ∧
      t.busy = false ∧ t.err = false ∧ (t.f.get fd).toNat = montmul s.curve (s.f.get fs).toNat v ∧
      (ft ≠ fd → (t.f.get ft).toNat = v) ∧ (∀ i : FReg, i ≠ fd → i ≠ ft → t.f.get i = s.f.get i) ∧
      t.pt = s.pt ∧ t.buf = s.buf ∧ t.len = s.len := by
  have hload : exec (.fldc ft ix) (issue (.fldc ft ix) s) =
      .next (Spec.wrField (issue (.fldc ft ix) s) ft v ⟨false, false, false⟩) :=
    exec_fldc_of_constVal (hconst ▸ constVal_eq_constTable hix) ft
  have hft : ((afterField s (.fldc ft ix) ft v).f.get ft).toNat = v := by
    rw [afterField_get_self, BitVec.toNat_ofNat, Nat.mod_eq_of_lt hv]
  have hfs : ((afterField s (.fldc ft ix) ft v).f.get fs).toNat = (s.f.get fs).toNat := by
    rw [afterField_get_ne hne.symm]
  have hmul := exec_montmul_of_get (fd := fd) (s := issue (.montmul fd fs ft) (afterField s (.fldc ft ix) ft v)) hfs hft
  have hproduct : montmul s.curve (s.f.get fs).toNat v < 2 ^ 384 := (montmul_lt hpos ..).trans hp
  refine ⟨afterField (afterField s (.fldc ft ix) ft v) (.montmul fd fs ft) fd (montmul s.curve (s.f.get fs).toNat v), ?run,
    rfl, rfl, ?product, fun h => ?constant, fun k hfd hft => ?kept, rfl, rfl, rfl⟩
  case run =>
    rw [runLines_field_command (i := .fldc ft ix) hidle (decide_eq_true hix) hload,
      runLines_field_command afterField_busy rfl hmul]
    exact runLines_nil_polled rfl _
  case product => rw [afterField_get_self, BitVec.toNat_ofNat, Nat.mod_eq_of_lt hproduct]
  case constant => rw [afterField_get_ne h, hft]
  case kept => rw [afterField_get_ne hfd, afterField_get_ne hft]

end FieldCommands

section Conversion

variable {c : CurveParameters}

/-- The product with `R2` is the Montgomery form (R102). -/
theorem montmul_r2 (hp : Nat.Prime c.p) (hodd : c.p % 2 = 1) (u : Nat) :
    montmul c u (2 ^ 384 * 2 ^ 384 % c.p : Nat) = u * 2 ^ 384 % c.p := by
  obtain ⟨htoMont, -⟩ := montgomeryIdentities c hp hodd u 0
  push_cast
  rw [htoMont, mont, radix_eq, ← fred_natCast]
  push_cast
  rfl

/-- The product with 1 is the number whose Montgomery form is the other factor (R102). -/
theorem montmul_one_mul_two_pow (hp : Nat.Prime c.p) (hodd : c.p % 2 = 1) (u : Nat) :
    montmul c u 1 * 2 ^ 384 % c.p = u % c.p := by
  have hR := two_pow_mul_zmod (two_pow_mul_rinv_mod hp hodd)
  rw [← ZMod.natCast_eq_natCast_iff']
  push_cast
  rw [montmul_zmod hp.pos]
  push_cast
  linear_combination (u : ZMod c.p) * hR

end Conversion

/-- Settles O57: the constant loaded is `R2` or 1, and the product with it is the conversion. -/
theorem montgomeryConversionSequences : Obligations.MontgomeryConversionSequences := by
  rintro fd fs ft s turns ⟨hp, hodd, hlt, -⟩ hidle hne
  refine ⟨?toMont, ?fromMont⟩
  case toMont =>
    have hr2 : 2 ^ 384 * 2 ^ 384 % s.curve.p < 2 ^ 384 := (Nat.mod_lt _ hp.pos).trans hlt
    rw [← montmul_r2 hp hodd]
    exact runLines_fldc_montmul (ix := 6) hidle hne (by decide) rfl hr2 hp.pos hlt fd turns
  case fromMont =>
    obtain ⟨t, hrun, hbusy, herr, hproduct, hkept⟩ :=
      runLines_fldc_montmul (ix := 7) (v := 1) hidle hne (by decide) rfl (Nat.one_lt_two_pow (by decide)) hp.pos hlt fd
        turns
    refine ⟨t, hrun, hbusy, herr, ?_, ?_, hkept⟩
    · exact hproduct ▸ montmul_lt hp.pos ..
    · rw [hproduct]
      exact montmul_one_mul_two_pow hp hodd _

/-! ### Programs of point commands (R162, R163) -/

section PointCommands

variable {c : CurveParameters} {s : State} {i : Instr} {pd : PReg} {q : Point}

/-- A canonical point value is the value of the register that stores it (R111, R116). -/
theorem val_toReg (hp : c.p < 2 ^ 384) (hq : q.Canonical c) : Spec.val q.toReg = q := by
  cases q with
  | inf => rfl
  | aff x y =>
    obtain ⟨hx, hy⟩ := hq
    rw [Point.toReg, Spec.val, if_neg Bool.false_ne_true, BitVec.toNat_ofNat, BitVec.toNat_ofNat,
      Nat.mod_eq_of_lt (hx.trans hp), Nat.mod_eq_of_lt (hy.trans hp)]

theorem isInf_val (r : PointReg) : (Spec.val r).isInf = r.inf := by
  rw [Spec.val]
  cases r.inf <;> rfl

/-- The state after a command that writes the point value `q`, and its `WAIT`. -/
def afterPoint (s : State) (i : Instr) (pd : PReg) (q : Point) : State :=
  polled (((issue i s).setPt pd q.toReg).succeed ⟨q.isInf, false, false⟩)

theorem afterPoint_get_self : (afterPoint s i pd q).pt.get pd = q.toReg := getPt_setPt_self s pd q.toReg

theorem afterPoint_get_ne {k : PReg} (h : k ≠ pd) : (afterPoint s i pd q).pt.get k = s.pt.get k :=
  getPt_setPt_ne s q.toReg h

/-- The point written is the point the next command reads (R111). -/
theorem afterPoint_readPoint (hp : c.p < 2 ^ 384) (hq : q.Canonical c) : (afterPoint s i pd q).readPoint pd = q := by
  show Spec.val ((afterPoint s i pd q).pt.get pd) = q
  rw [afterPoint_get_self, val_toReg hp hq]

/-- A command that writes a point, with its `WAIT`. -/
theorem runLines_point_command (hidle : s.busy = false) (hwf : i.WellFormed)
    (hexec : exec i (issue i s) = finishPoint pd q (issue i s)) (ls : List HostLine) (turns : List Nat) :
    runLines (.cmd i :: .wait :: ls) turns s = runLines ls (turns.drop 2) (afterPoint s i pd q) :=
  runLines_command hidle hwf (hexec.trans (finishPoint_eq ..)) ls turns

/-- Two commands that write points to `pd`, the second computing `r` from the point `q` of the first: `r` in `pd`, its `INF`
flag, and nothing else of the data changed. -/
theorem runLines_two_points {j : Instr} {r : Point} (hidle : s.busy = false) (hp : s.curve.p < 2 ^ 384)
    (hi : i.WellFormed) (hexec : exec i (issue i s) = finishPoint pd q (issue i s)) (hq : q.Canonical s.curve)
    (hj : j.WellFormed)
    (hexec' : ∀ u : State, u.curve = s.curve → u.f = s.f → u.readPoint pd = q → exec j u = finishPoint pd r u)
    (hr : r.Canonical s.curve) (turns : List Nat) :
    ∃ t : State, runLines [.cmd i, .wait, .cmd j, .wait] turns s = .next ⟨t, false, []⟩ ∧ t.busy = false ∧
      t.err = false ∧ Spec.val (t.pt.get pd) = r ∧ t.flags.inf = r.isInf ∧
      (∀ k : PReg, k ≠ pd → t.pt.get k = s.pt.get k) ∧ t.f = s.f ∧ t.buf = s.buf ∧ t.len = s.len := by
  refine ⟨afterPoint (afterPoint s i pd q) j pd r, ?run, rfl, rfl, afterPoint_readPoint hp hr, rfl, fun k hk => ?kept,
    rfl, rfl, rfl⟩
  case run =>
    rw [runLines_point_command hidle hi hexec,
      runLines_point_command rfl hj (hexec' (issue j (afterPoint s i pd q)) rfl rfl (afterPoint_readPoint hp hq))]
    exact runLines_nil_polled rfl _
  case kept => rw [afterPoint_get_ne hk, afterPoint_get_ne hk]

/-- Twice the negative is the normal form (R162). -/
theorem ptNeg_ptNeg (hp : 0 < c.p) (q : Point) : ptNeg c (ptNeg c q) = ptNorm c q := by
  cases q with
  | inf => rfl
  | aff x y =>
    simp only [ptNeg, ptNorm, Point.aff.injEq, fsub, fred_eq_iff hp]
    refine ⟨fred_modEq hp x, ?_⟩
    calc (0 : Int) - fred c (0 - y)
      _ ≡ 0 - (0 - y) [ZMOD c.p] := (fred_modEq hp _).sub_left 0
      _ = y := by ring

theorem isInf_ptNorm (c : CurveParameters) (q : Point) : (ptNorm c q).isInf = q.isInf := by
  cases q <;> rfl

theorem isInf_iff (q : Point) : q.isInf = true ↔ q = .inf := by
  cases q <;> simp [Point.isInf]

end PointCommands

/-- Settles O58: `PMOV` negates twice, `PUBKEY` multiplies the generator it has loaded. -/
theorem pointSequences : Obligations.PointSequences := by
  rintro pd s turns ⟨hprime, -, hp, hgx, hgy⟩ hidle
  have hpos := hprime.pos
  refine ⟨fun ps => ?pmov, fun fk => ?pubkey⟩
  case pmov =>
    have hinf : (ptNorm s.curve (Spec.val (s.pt.get ps))).isInf = (s.pt.get ps).inf := by rw [isInf_ptNorm, isInf_val]
    rw [← hinf, ← ptNeg_ptNeg hpos]
    refine runLines_two_points hidle hp rfl (exec_pneg pd ps _) (ptNeg_canonical hpos _) rfl (fun u hcurve _ hread => ?_)
      (ptNeg_canonical hpos _) turns
    rw [exec_pneg, hcurve, hread]
    rfl
  case pubkey =>
    obtain ⟨t, hrun, hbusy, herr, hval, hinf, hkept⟩ := runLines_two_points (i := .pldg pd) (j := .smul pd pd fk)
      (q := gen s.curve) hidle hp rfl rfl ⟨hgx, hgy⟩ rfl
      (fun u hcurve hf hread => by rw [exec_smul, hcurve, readField_eq, hf, hread]) (smul_canonical hpos _ _) turns
    exact ⟨t, hrun, hbusy, herr, hval, by rw [hinf, isInf_iff]; rfl, hkept⟩

/-! ### `ECDHX` (R164) -/

section Ecdh

variable {s : State} {pd : PReg}

/-- On a string that fails a check `PDEC` is the report of one of the codes of R141. -/
theorem exec_pdec_of_not_decodable (h : ¬ Spec.decodable s) (pd : PReg) :
    ∃ code ∈ [0x10#8, 0x11#8, 0x12#8, 0x13#8], exec (.pdec pd) s = .next (Spec.report s code) := by
  obtain ⟨hlength, htag, hrange, hcurve, -⟩ := pdecResult pd s
  by_cases hlen : s.len = 97#8
  swap
  · exact ⟨_, by decide, hlength hlen⟩
  by_cases ht : Memory.read s.buf 0 = 0x04#8
  swap
  · exact ⟨_, by decide, htag hlen ht⟩
  by_cases hr : s.curve.p ≤ Spec.coordinate s.buf 1 ∨ s.curve.p ≤ Spec.coordinate s.buf 49
  · exact ⟨_, by decide, hrange hlen ht hr⟩
  · have ⟨hx, hy⟩ := not_or.1 hr
    have hx := Nat.lt_of_not_ge hx
    have hy := Nat.lt_of_not_ge hy
    exact ⟨_, by decide, hcurve hlen ht hx hy fun hon => h ⟨hlen, ht, hx, hy, hon⟩⟩

/-- On a string that decodes `PDEC` writes the pair of its coordinates. -/
theorem exec_pdec_of_decodable (h : Spec.decodable s) (pd : PReg) :
    exec (.pdec pd) s = finishPoint pd (.aff (Spec.coordinate s.buf 1) (Spec.coordinate s.buf 49)) s := by
  obtain ⟨-, -, -, -, hpair⟩ := pdecResult pd s
  rw [hpair h, finishPoint_aff]

/-- The state of `ECDHX` at its second check: the peer's point `r` decoded into `pd`, then multiplied into `q`. -/
def afterProduct (s : State) (pd : PReg) (fk : FReg) (r q : Point) : State :=
  afterPoint (afterPoint s (.pdec pd) pd r) (.smul pd pd fk) pd q

/-- On a string that decodes `ECDHX` comes to its second check with the product in `pd`. -/
theorem runLines_ecdhx_product (hidle : s.busy = false) (hp : s.curve.p < 2 ^ 384) (hdec : Spec.decodable s) {fk : FReg}
    {r q : Point} (hr : r = .aff (Spec.coordinate s.buf 1) (Spec.coordinate s.buf 49))
    (hq : q = smul s.curve (s.f.get fk).toNat r) (turns : List Nat) :
    runLines (ecdhx pd fk) turns s =
      runLines [.stopIfInf, .cmd (.xenc pd), .wait] ((turns.drop 2).tail.drop 2) (afterProduct s pd fk r q) := by
  have hcanonical : r.Canonical s.curve := by
    obtain ⟨-, -, hx, hy, -⟩ := hdec
    exact hr ▸ ⟨hx, hy⟩
  have hpdec : exec (.pdec pd) (issue (.pdec pd) s) = finishPoint pd r (issue (.pdec pd) s) :=
    hr ▸ exec_pdec_of_decodable (s := issue (.pdec pd) s) hdec pd
  have hsmul (u : State) (hcurve : u.curve = s.curve) (hf : u.f = s.f) (hread : u.readPoint pd = r) :
      exec (.smul pd pd fk) u = finishPoint pd q u := by
    rw [exec_smul, readField_eq, hcurve, hf, hread, hq]
  have hchecked (ls : List HostLine) (turns : List Nat) :
      runLines (.stopIfErr :: ls) turns (afterPoint s (.pdec pd) pd r) =
        runLines ls turns.tail (afterPoint s (.pdec pd) pd r) :=
    runLines_stopIfErr_passed rfl rfl ls turns
  have hproduct := hsmul (issue (.smul pd pd fk) (afterPoint s (.pdec pd) pd r)) rfl rfl
    (afterPoint_readPoint hp hcanonical)
  rw [ecdhx, runLines_point_command hidle rfl hpdec, hchecked, runLines_point_command rfl rfl hproduct]
  rfl

theorem finite_of_readPoint_eq_aff {x y : Nat} (h : s.readPoint pd = .aff x y) :
    (s.pt.get pd).inf = false ∧ (s.pt.get pd).x.toNat = x := by
  cases hinf : (s.pt.get pd).inf with
  | true =>
    rw [readPoint_inf hinf] at h
    exact Point.noConfusion h
  | false =>
    rw [readPoint_aff hinf] at h
    exact ⟨rfl, (Point.aff.inj h).1⟩

/-- The last command of `ECDHX`, on a pair with a canonical `x`: its 48 bytes, and no register changed. -/
theorem runLines_xenc (hidle : s.busy = false) (hbuf : s.buf.wf) {x y : Nat} (hpair : s.readPoint pd = .aff x y)
    (hx : x < s.curve.p) (turns : List Nat) :
    ∃ t : State, runLines [.cmd (.xenc pd), .wait] turns s = .next ⟨t, false, []⟩ ∧ t.err = false ∧ t.len = 48#8 ∧
      (∀ i < 48, Memory.read t.buf i = BitVec.ofNat 8 (x / 256 ^ (47 - i))) ∧
      (∀ k, 48 ≤ k → Memory.read t.buf k = Memory.read s.buf k) ∧ t.pt = s.pt ∧ t.f = s.f := by
  obtain ⟨hfin, hxpd⟩ := finite_of_readPoint_eq_aff hpair
  obtain ⟨-, hxenc⟩ := xencResult pd (issue (.xenc pd) s) hbuf
  obtain ⟨m, -, hexec, hbytes, hkept⟩ := hxenc hfin
  have hreduced : (s.pt.get pd).x.toNat % s.curve.p = x := by rw [hxpd, Nat.mod_eq_of_lt hx]
  refine ⟨polled (Spec.success { issue (.xenc pd) s with buf := m, len := 48#8 } ⟨false, false, false⟩), ?_, rfl, rfl,
    fun i hi => hreduced ▸ hbytes i hi, hkept, rfl, rfl⟩
  rw [runLines_command hidle rfl hexec]
  exact runLines_nil_polled rfl _

end Ecdh

/-- Settles O59: a bad string stops at the first check, an infinite product at the second, and the bytes of a finite one are
what `XENC` writes. -/
theorem ecdhSequence : Obligations.EcdhSequence := by
  rintro pd fk s turns ⟨hprime, -, hp, -, -⟩ hidle hbuf
  refine ⟨fun hdec => ?badEncoding, fun hdec q hq => ⟨fun hinf => ?infinity, fun x y hpair => ?secret⟩⟩
  case badEncoding =>
    obtain ⟨code, hcode, hexec⟩ := exec_pdec_of_not_decodable (s := issue (.pdec pd) s) hdec pd
    refine ⟨polled (Spec.report (issue (.pdec pd) s) code), ?_, rfl, hcode, rfl, rfl, fun _ => rfl, rfl⟩
    rw [ecdhx, runLines_command hidle rfl hexec]
    exact runLines_stopIfErr_stopped rfl rfl _ _
  all_goals rw [runLines_ecdhx_product hidle hp hdec rfl hq]
  case infinity =>
    subst hinf
    exact ⟨_, runLines_stopIfInf_stopped rfl rfl _ _, rfl, rfl, rfl, rfl, rfl⟩
  case secret =>
    have hcanonical : q.Canonical s.curve := hq ▸ smul_canonical hprime.pos ..
    clear hq
    subst hpair
    generalize Point.aff (Spec.coordinate s.buf 1) (Spec.coordinate s.buf 49) = r
    obtain ⟨t, hrun, herr, hlen, hbytes, hkept, hpt, hf⟩ :=
      runLines_xenc (s := afterProduct s pd fk r (.aff x y)) rfl hbuf (afterPoint_readPoint hp hcanonical) hcanonical.1
        ((turns.drop 2).tail.drop 2).tail
    refine ⟨t, ?_, herr, hlen, hbytes, hkept, ?_, fun k hk => ?_, hf⟩
    · rw [← hrun]
      exact runLines_stopIfInf_passed rfl rfl _ _
    · rw [hpt]
      exact afterPoint_readPoint hp hcanonical
    · rw [hpt]
      exact (afterPoint_get_ne hk).trans (afterPoint_get_ne hk)

end Sys2Proof.Proofs
end

section
/-!
PROOFS. The scalar sequences (spec/44_host_sequences.md R166): the bytes of a serialized scalar and the words of a register
are one number, and the twelve lines that write or read those words.
-/

namespace Sys2Proof.Proofs

open Sys2Proof.Machine Sys2Proof.Laws

variable {s : State}

/-! ### The bytes of a scalar and the words of a register (R166) -/

section Serial

theorem beInt_append (as bs : List Byte) : beInt (as ++ bs) = beInt as * 256 ^ bs.length + beInt bs := by
  rw [beInt, List.foldl_append, foldl_bytes, ← beInt]

theorem wordBytes_reverse_length (v : Word) : (wordBytes v).reverse.length = 4 := rfl

/-- The bytes of a word, the most significant first, are the digits of its value. -/
theorem beInt_wordBytes_reverse (v : Word) : beInt (wordBytes v).reverse = v.toNat := by
  have hv := v.isLt
  simp only [wordBytes, List.reverse_cons, List.reverse_nil, List.nil_append, List.cons_append, beInt, List.foldl_cons,
    List.foldl_nil, BitVec.extractLsb'_toNat, Nat.shiftRight_eq_div_pow]
  omega

theorem scalarBytes_concat (ws : List Word) (w : Word) :
    scalarBytes (ws ++ [w]) = (wordBytes w).reverse ++ scalarBytes ws := by
  rw [scalarBytes, List.reverse_concat, List.flatMap_cons, ← scalarBytes]

theorem scalarBytes_length (ws : List Word) : (scalarBytes ws).length = 4 * ws.length := by
  induction ws using List.reverseRecOn with
  | nil => rfl
  | append_singleton ws w ih =>
    rw [scalarBytes_concat, List.length_append, ih, List.length_append, wordBytes_reverse_length, List.length_singleton]
    omega

/-- The bytes of the low `n` words of a value are the digits of its remainder by `2^(32n)`. -/
theorem beInt_scalarBytes_getWord (v : Felt) (n : Nat) :
    beInt (scalarBytes ((List.range n).map (getWord v))) = v.toNat % 2 ^ (32 * n) := by
  induction n with
  | zero => rw [Nat.mul_zero, pow_zero, Nat.mod_one]; rfl
  | succ n ih =>
    have hweight : 256 ^ (4 * n) = 2 ^ (32 * n) := by rw [show 256 = 2 ^ 8 from rfl, ← pow_mul]; congr 1; omega
    rw [List.range_succ, List.map_append, List.map_singleton, scalarBytes_concat, beInt_append, beInt_wordBytes_reverse,
      ih, scalarBytes_length, List.length_map, List.length_range, hweight, getWord_toNat, Nat.mul_succ, pow_add,
      Nat.mod_mul]
    ring

/-- The bytes of a register's twelve words are the 48 digits of its value. -/
theorem scalarBytes_getWord (v : Felt) : scalarBytes ((List.range 12).map (getWord v)) = beBytes v.toNat 48 := by
  have hvalue : beInt (scalarBytes ((List.range 12).map (getWord v))) = v.toNat := by
    rw [beInt_scalarBytes_getWord, Nat.mod_eq_of_lt v.isLt]
  rw [← hvalue]
  exact (beBytes_beInt (scalarBytes ((List.range 12).map (getWord v)))).symm.trans (by rw [scalarBytes_length]; rfl)

theorem wordBytes_append (a b c d : Byte) : (wordBytes (a ++ b ++ c ++ d)).reverse = [a, b, c, d] := by
  refine eq_of_beInt_eq (wordBytes_reverse_length _) ?_
  rw [beInt_wordBytes_reverse]
  simp only [toNat_append_eq_add, beInt, List.foldl_cons, List.foldl_nil]
  omega

/-- The twelve words of a serialized scalar read backwards are its 48 bytes. -/
theorem scalarBytes_scalarWord {bs : List Byte} (hbs : bs.length = 48) :
    scalarBytes ((List.range 12).map (scalarWord bs)) = bs := by
  have hwords : scalarBytes ((List.range 12).map (scalarWord bs)) = (List.range 48).map fun k => bs.getD k 0#8 := by
    simp only [scalarBytes, ← List.map_reverse, List.flatMap_map, scalarWord, wordBytes_append]
    rfl
  rw [hwords, ← hbs]
  apply List.ext_getElem
  · rw [List.length_map, List.length_range]
  · intro k _ hk
    rw [List.getElem_map, List.getElem_range, List.getD_eq_getElem _ _ hk]

/-- A value with the words at the positions `js` replaced, one after the other. -/
def setWords (w : Nat → Word) (js : List (Fin 12)) (v : Felt) : Felt :=
  js.foldl (fun v (j : Fin 12) => setWord v j (w j)) v

theorem getWord_setWords (w : Nat → Word) (js : List (Fin 12)) (v : Felt) (k : Fin 12) :
    getWord (setWords w js v) k = if k ∈ js then w k else getWord v k := by
  induction js generalizing v with
  | nil => rfl
  | cons j js ih =>
    rw [setWords, List.foldl_cons, ← setWords, ih]
    by_cases hjs : k ∈ js
    · rw [if_pos hjs, if_pos (List.mem_cons_of_mem j hjs)]
    · by_cases hj : k = j
      · subst hj
        rw [if_neg hjs, if_pos List.mem_cons_self, getWord_setWord_self]
      · rw [if_neg hjs, if_neg (List.not_mem_cons_of_ne_of_not_mem hj hjs), getWord_setWord_ne v hj]

/-- The value whose twelve words are those of a serialized scalar is the scalar (R166). -/
theorem setWords_scalarWord_toNat {bs : List Byte} (hbs : bs.length = 48) (v : Felt) :
    (setWords (scalarWord bs) (List.finRange 12) v).toNat = beInt bs := by
  have hwords (j : Fin 12) : getWord (setWords (scalarWord bs) (List.finRange 12) v) j = scalarWord bs j := by
    rw [getWord_setWords, if_pos (List.mem_finRange j)]
  have hmap : (List.range 12).map (getWord (setWords (scalarWord bs) (List.finRange 12) v)) =
      (List.range 12).map (scalarWord bs) :=
    List.map_congr_left fun j hj => hwords ⟨j, List.mem_range.1 hj⟩
  have hserial := scalarBytes_getWord (setWords (scalarWord bs) (List.finRange 12) v)
  rw [hmap, scalarBytes_scalarWord hbs] at hserial
  exact (beInt_beBytes ((BitVec.isLt _).trans_eq (pow_mul 2 8 48))).symm.trans (congrArg beInt hserial.symm)

end Serial

/-! ### The twelve writes and the twelve reads (R166) -/

section Lines

/-- The word address of word `j` of `f[i]` (R58). -/
abbrev fieldAddr (i : FReg) (j : Nat) : WordAddr := wordAddr (0x200 + 0x40 * i.val + 4 * j)

theorem hostRead_idle (hidle : s.busy = false) (w : WordAddr) : s.hostRead w = s.peek (locate w) := by
  rw [State.hostRead, hidle, Bool.false_and, if_neg Bool.false_ne_true]

theorem keepsIdle_write_field (i : FReg) (j : Fin 12) (x : Word) : keepsIdle (.write (fieldAddr i j) x) = true := by
  have hcmd : offset (fieldAddr i j) ≠ 0x00C := fun h => Loc.noConfusion ((locate_cmd h).symm.trans (locate_field i j))
  exact bne_iff_ne.2 hcmd

/-- The state after writes to words of `f[i]` that leave `v` in it. -/
def afterLoad (s : State) (i : FReg) (v : Felt) : State := { s.setF i v with inputs := [] }

theorem afterLoad_getF_self (s : State) (i : FReg) (v : Felt) : (afterLoad s i v).getF i = v := getF_setF_self s i v

theorem afterLoad_own (s : State) (i : FReg) : afterLoad s i (s.getF i) = { s with inputs := [] } := by
  simp [afterLoad, State.setF, State.getF, Vector.get_eq_getElem]

theorem afterLoad_afterLoad (s : State) (i : FReg) (u v : Felt) : afterLoad (afterLoad s i u) i v = afterLoad s i v := by
  simp [afterLoad, State.setF]

/-- A write to word `j` of `f[i]` while nothing is pending, wherever the engine has its turn. -/
theorem drive_wr_field (hidle : s.busy = false) (i : FReg) (j : Fin 12) (x : Word) (n : Nat) :
    drive (insertTurn n [.write (fieldAddr i j) x]) s = .next (afterLoad s i (setWord (s.getF i) j x)) := by
  rw [drive_insertTurn (List.forall_mem_singleton.2 (keepsIdle_write_field i j x)) n hidle, drive_write,
    hostWrite_idle (s := { s with inputs := [] }) hidle, locate_field, drive_nil]
  rfl

/-- A read of word `j` of `f[i]` while nothing is pending, wherever the engine has its turn. -/
theorem drive_rd_field (hidle : s.busy = false) (i : FReg) (j : Fin 12) (n : Nat) :
    drive (insertTurn n [.read (fieldAddr i j)]) s =
      .next { s with inputs := [], rdata := some (getWord (s.getF i) j) } := by
  rw [drive_insertTurn (List.forall_mem_singleton.2 rfl) n hidle, drive_read, hostRead_idle hidle, locate_field, drive_nil]
  rfl

/-- Writes to words of `f[i]`: the register with those words replaced, nothing else changed. -/
theorem runLines_wr_fields (hidle : s.busy = false) (i : FReg) (w : Nat → Word) (js : List (Fin 12)) (turns : List Nat) :
    runLines (js.map fun j : Fin 12 => .wr (fieldAddr i j) (w j)) turns s =
      .next ⟨afterLoad s i (setWords w js (s.getF i)), false, []⟩ := by
  induction js generalizing s turns with
  | nil =>
    rw [setWords, List.foldl_nil, afterLoad_own]
    exact finish_idle hidle false
  | cons j js ih =>
    have hfirst : drive ((HostLine.wr (fieldAddr i j) (w j)).events (turns.headD 0) s.busy) s = _ :=
      drive_wr_field hidle i j (w j) _
    have hrest := ih (s := afterLoad s i (setWord (s.getF i) j (w j))) hidle turns.tail
    rw [afterLoad_getF_self, afterLoad_afterLoad] at hrest
    rw [List.map_cons, runLines_silent rfl hfirst rfl, hrest]
    rfl

/-- Reads of words of `f[i]`: the words, and nothing changed but the word last read. -/
theorem runLines_rd_fields (hidle : s.busy = false) (i : FReg) (js : List (Fin 12)) (turns : List Nat) :
    ∃ r : Option Word, runLines (js.map fun j : Fin 12 => .rd (fieldAddr i j)) turns s =
      .next ⟨{ s with inputs := [], rdata := r }, false, js.map fun j : Fin 12 => getWord (s.f.get i) j⟩ := by
  induction js generalizing s turns with
  | nil => exact ⟨s.rdata, finish_idle hidle false⟩
  | cons j js ih =>
    obtain ⟨r, hr⟩ := ih (s := { s with inputs := [], rdata := some (getWord (s.getF i) j) }) hidle turns.tail
    have hfirst : drive ((HostLine.rd (fieldAddr i j)).events (turns.headD 0) s.busy) s = _ := drive_rd_field hidle i j _
    exact ⟨r, runLines_cons rfl hfirst hr⟩

/-- The twelve word indices of a register, as the lines number them. -/
theorem map_range_twelve {α : Type} (g : Nat → α) :
    (List.range 12).map g = (List.finRange 12).map fun j : Fin 12 => g j := rfl

end Lines

/-- Settles O60: the words written are the scalar's, so the register's value is the scalar's by its bytes; the words read are
the register's, and their bytes the digits of its value. -/
theorem scalarSequences : Obligations.ScalarSequences := by
  refine ⟨fun i bs s turns hidle hbs => ?load, fun i s turns hidle => ?store⟩
  case load =>
    refine ⟨afterLoad s i (setWords (scalarWord bs) (List.finRange 12) (s.getF i)), ?_, ?_,
      fun j hj => getF_setF_ne s _ hj, rfl, rfl, rfl, hidle⟩
    · rw [loadScalar, map_range_twelve]
      exact runLines_wr_fields hidle i (scalarWord bs) (List.finRange 12) turns
    · refine (congrArg BitVec.toNat (afterLoad_getF_self s i _)).trans ?_
      rw [setWords_scalarWord_toNat hbs, beInt_sum, hbs]
  case store =>
    obtain ⟨r, hrun⟩ := runLines_rd_fields hidle i (List.finRange 12) turns
    refine ⟨{ s with inputs := [], rdata := r }, (List.range 12).map (getWord (s.f.get i)), ?_, ?_, fun k hk => ?_,
      ⟨rfl, rfl, fun _ => rfl, rfl⟩, hidle⟩
    · rw [storeScalar, map_range_twelve, map_range_twelve]
      exact hrun
    · rw [scalarBytes_getWord, beBytes_length]
    · rw [scalarBytes_getWord, beBytes_getD _ hk]

end Sys2Proof.Proofs
end

section
/-!
PROOFS. The life of a command (spec/60_exceptions.md R170 to R178): acceptance, the engine's turn, the errors a command ends in
and what they leave unchanged, and that nothing is pending at the end of a schedule or of a host program (R214).
-/

namespace Sys2Proof.Proofs

open Sys2Proof.Machine Sys2Proof.Laws

/-! ### Acceptance (R170) -/

/-- Settles O8: the word at 0x00C is `CMD`, which takes any word while the engine is idle and none while it is busy. -/
theorem acceptanceLatchesTheWord : Obligations.AcceptanceLatchesTheWord :=
  fun _ _ _ _ hw h => ⟨step_write_cmd h hw, fun hb => step_write_dropped h hb (by omega) (by omega)⟩

/-! ### The engine's turn (R171) -/

variable {s t : State} {i : Instr}

theorem step_turn_idle (hb : s.busy = false) (hturn : Spec.enginesTurn s) :
    step s = .next { s with inputs := s.inputs.tail } := by
  rw [step_turn hturn, engineTurn_idle (s := { s with inputs := s.inputs.tail }) hb]

theorem step_turn_busy (hb : s.busy = true) (hturn : Spec.enginesTurn s) :
    step s = complete { s with inputs := s.inputs.tail } := by
  rw [step_turn hturn, engineTurn_busy (s := { s with inputs := s.inputs.tail }) hb]

/-- The engine's turn comes next where a command word has been placed. -/
theorem enginesTurn_pending (s : State) (w : Word) : Spec.enginesTurn (s.pending w) := by
  unfold Spec.enginesTurn State.pending
  cases s.inputs with
  | nil => exact .inl rfl
  | cons e es => exact .inr rfl

theorem tail_engineNext (es : List Event) : (engineNext es).tail = es := by
  cases es <;> rfl

/-- Without the turn put first, a word placed is a word accepted. -/
theorem pending_tail (s : State) (w : Word) : { s.pending w with inputs := (s.pending w).inputs.tail } = s.accept w := by
  have htail : (s.pending w).inputs.tail = s.inputs := tail_engineNext s.inputs
  rw [htail]
  rfl

/-- Settles O7: the engine's turn is `engineTurn`, which looks at `BUSY` first. -/
theorem idleEngineDoesNothing : Obligations.IdleEngineDoesNothing :=
  fun _ => step_turn_idle

/-- Settles O5: a pending command completes as the decoder reads it; with its turn taken off again, a word placed is a word
accepted. -/
theorem stepRunsTheDecodedCommand : Obligations.StepRunsTheDecodedCommand := by
  refine ⟨fun s i hb hturn hd => ?pending, fun s w i hd => ?placed⟩
  case pending =>
    rw [step_turn_busy hb hturn]
    exact complete_legal (s := { s with inputs := s.inputs.tail }) hd
  case placed =>
    rw [State.withFetchWord, step_turn_busy rfl (enginesTurn_pending s _), pending_tail]
    exact complete_legal (s := s.accept (tableWord 32 w)) hd

/-! ### Errors (R173 to R178) -/

/-- Settles O6: a word that matches no row of R76 is illegal for the decoder (DecodeReadsTheOpcodeTable). -/
theorem illegalWordEndsInIllegalCommand : Obligations.IllegalWordEndsInIllegalCommand := by
  intro s hb hturn hnone
  obtain ⟨-, hillegal⟩ := decodeReadsTheOpcodeTable s.cur
  rw [step_turn_busy hb hturn]
  exact complete_illegal (s := { s with inputs := s.inputs.tail }) (hillegal hnone)

/-- Of the ends of a command the error report alone sets `ERR` (R172, R173). -/
theorem eq_raise_of_ending (h : Ending s t) (herr : t.err = true) : ∃ e : ErrorKind, t = s.raise e := by
  cases h with
  | report e => exact ⟨e, rfl⟩
  | field | point | string | flagsOnly => exact absurd herr Bool.false_ne_true

/-- Settles O28: a completion is the end of a command, and one with `ERR` set is the error report with the code of a cause. -/
theorem failedCommandsChangeNoData : Obligations.FailedCommandsChangeNoData := by
  intro s t hb hturn hstep herr
  obtain ⟨u, hu, hend⟩ := engineTurn_ends (s := { s with inputs := s.inputs.tail }) hb
  cases hstep.symm.trans ((step_turn hturn).trans hu)
  obtain ⟨e, rfl⟩ := eq_raise_of_ending hend herr
  refine ⟨rfl, ?_⟩
  rw [raise_errcode]
  cases e <;> decide

/-- The index of `FLDC` above the table, which no legal word gives (log entry 9). -/
theorem exec_fldc_of_above {c : ConstIx} (hc : 8 < c.val) (fd : FReg) (s : State) :
    exec (.fldc fd c) s = .next (Spec.report s 0x01#8) := by
  have hnone : constVal s.curve c = none := by
    rw [← Option.isNone_iff_eq_none, ← Option.not_isSome, constVal_isSome, decide_eq_false (Nat.not_le.2 hc)]
    rfl
  simp only [exec, execFldc, hnone]
  rfl

/-- A command that answers an error report where its cause `P` is present and a success report where it is absent. -/
theorem err_iff_cause {P : Prop} (ht : exec i s = .next t)
    (hreport : P → ∃ code, exec i s = .next (Spec.report s code))
    (hsuccess : ¬ P → ∃ u fl, exec i s = .next (Spec.success u fl)) : t.err = true ↔ P := by
  by_cases hcause : P
  · obtain ⟨code, h⟩ := hreport hcause
    cases ht.symm.trans h
    exact iff_of_true rfl hcause
  · obtain ⟨u, fl, h⟩ := hsuccess hcause
    cases ht.symm.trans h
    exact iff_of_false Bool.false_ne_true hcause

/-- Settles O27: every command answers, and its answer is an end of a command; the four commands with a cause of error answer a
report where it is present, and every other answer is a success report. -/
theorem commandsEndInErrorsExactlyWhere : Obligations.CommandsEndInErrorsExactlyWhere := by
  intro i s
  obtain ⟨t, ht⟩ := exec_answers i s
  obtain ⟨hbusy, hdone, hctl⟩ := ending_control (exec_ending ht)
  refine ⟨t, ht, hbusy, hdone, hctl, ?_⟩
  cases i with
  | fldc fd c =>
    exact err_iff_cause ht (fun hc => ⟨_, exec_fldc_of_above hc fd s⟩)
      (fun hc => ⟨_, _, exec_fldc_of_constVal (constVal_eq_constTable (Nat.not_lt.1 hc)) fd⟩)
  | penc ps1 =>
    exact err_iff_cause ht (fun hinf => ⟨_, exec_penc_of_inf hinf⟩)
      (fun hfin => ⟨_, _, exec_penc_of_finite (Bool.eq_false_of_not_eq_true hfin)⟩)
  | xenc ps1 =>
    exact err_iff_cause ht (fun hinf => ⟨_, exec_xenc_of_inf hinf⟩)
      (fun hfin => ⟨_, _, exec_xenc_of_finite (Bool.eq_false_of_not_eq_true hfin)⟩)
  | pdec pd =>
    obtain ⟨-, -, -, -, hpair⟩ := pdecResult pd s
    refine err_iff_cause ht (fun hbad => ?_) (fun hdec => ⟨_, _, hpair (not_not.1 hdec)⟩)
    obtain ⟨code, -, hreport⟩ := exec_pdec_of_not_decodable hbad pd
    exact ⟨code, hreport⟩
  | montmul | modmul | modinv | pdbl | padd | pneg | pisinf | pchk | pldg | smul =>
    exact err_iff_cause ht False.elim (fun _ => ⟨_, _, rfl⟩)

/-! ### The end of a schedule and of a host program (R171, R214) -/

/-- After the engine's turn nothing is pending. -/
theorem engineTurn_idles (s : State) : ∃ t, engineTurn s = .next t ∧ t.busy = false ∧ t.inputs = s.inputs := by
  obtain ⟨t, ht, hin⟩ := handle_answers .engine s
  refine ⟨t, ht, ?_, hin⟩
  rcases engineTurn_cases ht with ⟨hidle, rfl⟩ | ⟨-, hend⟩
  · exact hidle
  · obtain ⟨hbusy, -, -⟩ := ending_control hend
    exact hbusy

/-- Every event of a schedule, and then the engine's turn. -/
theorem run_schedule {es : List Event} (h : s.inputs = es) :
    ∃ t : State, Sys2Proof.core.run (es.length + 1) s = .next t ∧ t.busy = false ∧ t.inputs = [] := by
  induction es generalizing s with
  | nil =>
    obtain ⟨t, ht, hbusy, hin⟩ := engineTurn_idles s
    exact ⟨t, run_succ_of_step ((step_empty h).trans ht) 0, hbusy, hin.trans h⟩
  | cons e es ih =>
    obtain ⟨t, ht, hin⟩ := handle_answers e { s with inputs := es }
    obtain ⟨u, hu, hend⟩ := ih hin
    exact ⟨u, (run_succ_of_step ((step_event h).trans ht) _).trans hu, hend⟩

/-- The end of a program waits for the pending command (R214). -/
theorem finish_ends (stopped : Bool) (s : State) :
    ∃ e : HostEnd, finish stopped s = .next e ∧ e.state.busy = false := by
  obtain ⟨t, ht, hbusy, -⟩ := engineTurn_idles { s with inputs := [] }
  have hturn : drive [.engine] s = .next { t with inputs := [] } := drive_cons (e := .engine) ht []
  exact ⟨⟨{ t with inputs := [] }, stopped, []⟩, by rw [finish, hturn], hbusy⟩

theorem runLines_ends (ls : List HostLine) (turns : List Nat) (s : State) :
    ∃ e : HostEnd, runLines ls turns s = .next e ∧ e.state.busy = false := by
  induction ls generalizing turns s with
  | nil => exact finish_ends false s
  | cons l ls ih =>
    cases hstop : l.stops s with
    | true =>
      rw [runLines_of_stops hstop]
      exact finish_ends true s
    | false =>
      obtain ⟨t, hline, -⟩ := drive_answers (l.events (turns.headD 0) s.busy) s
      obtain ⟨e, hrest, hbusy⟩ := ih turns.tail t
      exact ⟨_, runLines_cons hstop hline hrest, hbusy⟩

/-- Settles O26: by induction on the schedule and on the lines; every event answers, and the last is the engine's turn. -/
theorem nothingIsPendingAtTheEnd : Obligations.NothingIsPendingAtTheEnd :=
  ⟨fun _ => run_schedule rfl, runLines_ends⟩

end Sys2Proof.Proofs
end

section
/-!
PROOFS. Reset (spec/70_reset_and_hazards.md R200 to R202): what it writes, that it wins over the event before it, and that it
abandons a pending command, which nothing but a completion ends otherwise.
-/

namespace Sys2Proof.Proofs

open Sys2Proof.Machine Sys2Proof.Laws

/-! ### The reset state (R40, R201) -/

theorem reset_f_get (i : FReg) : State.reset.f.get i = 0#384 := by simp [State.reset, Vector.get_eq_getElem]

theorem reset_pt_get (k : PReg) : State.reset.pt.get k = ⟨0#384, 0#384, true⟩ := by
  simp [State.reset, Vector.get_eq_getElem]

theorem reset_buf_read (a : Nat) : Memory.read State.reset.buf a = 0x00#8 := read_nil a

/-- A reset is handled whatever is pending (R200). -/
theorem step_reset {s : State} {es : List Event} (h : s.inputs = .reset :: es) :
    step s = .next (State.resetEngine { s with inputs := es }) := step_event h

/-- `STATUS` reads 0 after a reset, whatever the record (R34, R40). -/
theorem resetEngine_statusWord (s : State) : s.resetEngine.statusWord = 0#32 := by
  obtain ⟨-, -, hreset⟩ := statusRegister
  have hsame : s.resetEngine.statusWord = State.reset.statusWord := rfl
  exact hsame.trans hreset

/-- `ID` while no command is pending (R32). -/
theorem hostRead_id_idle {s : State} (hidle : s.busy = false) : s.hostRead (wordAddr 0x000) = 0x50333834#32 := by
  rw [hostRead_idle hidle, locate_id (by decide), State.peek, Config.idWord]

/-- The constant table while no command is pending (R60). -/
theorem hostRead_const_idle {s : State} (hidle : s.busy = false) (c : Fin 9) (j : Fin 12) :
    s.hostRead (wordAddr (0x800 + 0x40 * c.val + 4 * j.val)) =
      BitVec.ofNat 32 ((Spec.constTable s.curve).getD c.val 0 / 2 ^ (32 * j.val)) := by
  rw [hostRead_idle hidle, locate_const, State.peek, getWord_constFelt]

/-- Settles O20: the step is `resetEngine`, whose registers are those of `State.reset`; `ID` and the constant table are read
from an idle engine with the record of before. -/
theorem resetWritesEverything : Obligations.ResetWritesEverything := by
  intro s es h
  exact ⟨_, step_reset h, reset_f_get, reset_pt_get, reset_buf_read, rfl, rfl, resetEngine_statusWord _, rfl,
    hostRead_id_idle rfl, hostRead_const_idle rfl, rfl, rfl, rfl⟩

/-! ### Reset wins (R200) -/

/-- Settles O22: every event answers, leaves the reset next in the schedule and keeps the record; of the state it answers the
reset keeps nothing else but the word last read. -/
theorem resetWins : Obligations.ResetWins := by
  intro s e es h
  obtain ⟨t, ht, hin⟩ := handle_answers e { s with inputs := .reset :: es }
  have hstep : step s = .next t := (step_event h).trans ht
  refine ⟨t.rdata, ?_⟩
  rw [run_succ_of_step hstep, run_succ_of_step (step_reset hin), ← step_curve hstep]
  rfl

/-! ### A pending command and a reset (R202) -/

/-- However often an idle engine has its turn, it only takes the turns off the schedule (R171). -/
theorem run_turns_idle {s : State} {es : List Event} (hidle : s.busy = false) {k : Nat}
    (h : s.inputs = List.replicate k .engine ++ es) :
    Sys2Proof.core.run k s = .next { s with inputs := es } := by
  induction k generalizing s with
  | zero =>
    subst h
    rfl
  | succ k ih =>
    have hturns : s.inputs = .engine :: (List.replicate k .engine ++ es) := h
    rw [run_succ_of_step ((step_event hturns).trans (engineTurn_idle hidle)),
      ih (s := { s with inputs := List.replicate k .engine ++ es }) hidle rfl]

/-- A pending command is ended by the engine's turn or a reset: a host transaction keeps it pending (R65). -/
theorem turn_or_reset_of_step_ends_busy {s t : State} (hb : s.busy = true) (hstep : step s = .next t)
    (hidle : t.busy = false) : Spec.enginesTurn s ∨ s.inputs.head? = some .reset := by
  rcases step_cases hstep with ⟨es, -, hturn, -⟩ | ⟨w, es, -, rfl⟩ | ⟨w, v, es, -, rfl⟩ | ⟨es, hin, -⟩
  · exact .inl hturn
  · exact absurd (hidle.symm.trans hb) Bool.false_ne_true
  · have hkept := pendingKept_hostWrite (s := { s with inputs := es }) hb w v
    exact absurd (hidle.symm.trans hkept.busy) Bool.false_ne_true
  · exact .inr (by rw [hin, List.head?_cons])

/-- Settles O21: the reset leaves the engine idle, so its turns do nothing, and the state after them is still the reset
state. -/
theorem resetAbandonsThePendingCommand : Obligations.ResetAbandonsThePendingCommand := by
  refine ⟨fun s es k _ h => ?abandoned, fun _ _ hb hstep hidle => turn_or_reset_of_step_ends_busy hb hstep hidle⟩
  case abandoned =>
    have hrun := (run_succ_of_step (step_reset h) k).trans (run_turns_idle rfl rfl)
    exact ⟨_, hrun, rfl, rfl, rfl, rfl, reset_f_get, reset_pt_get, reset_buf_read, rfl⟩

end Sys2Proof.Proofs
end

section
/-!
PROOFS. The last vectors of spec/95_test_vectors.md: the command words of section 7, by the encoder and the rows of R76, and
the generator's multiples by its order and by the number before it, by the group law.
-/

namespace Sys2Proof.Proofs

open Sys2Proof.Machine Sys2Proof.Laws

/-! ### Command words (R76, R77) -/

/-- Settles O4: each legal word is the encoding of its command; of the illegal words `0x00090113` hits the row of `FLDC` with
an index above 8, and the others hit no row. -/
theorem sampleCommandWords : Obligations.SampleCommandWords := by
  obtain ⟨decode_encode, -⟩ := decodeEncodeAgree
  exact ⟨decode_encode (.montmul 2 0 1) rfl, decode_encode (.modmul 3 2 1) rfl, decode_encode (.modinv 6 7) rfl,
    decode_encode (.fldc 1 8) rfl, decode_encode (.pdbl 3 3) rfl, decode_encode (.pneg 2 1) rfl,
    decode_encode (.pisinf 3) rfl, decode_encode (.pldg 3) rfl, decode_encode (.smul 1 0 3) rfl,
    decode_encode (.penc 3) rfl, decode_encode (.pdec 3) rfl, decode_encode (.xenc 3) rfl,
    decode_of_not_hits (by decide), decode_of_hits (i := .fldc 1 9) rfl, decode_of_not_hits (by decide),
    decode_of_not_hits (by decide), decode_of_not_hits (by decide), decode_of_not_hits (by decide)⟩

/-! ### The order of the generator (R8, R115, R130) -/

variable {c : CurveParameters}

/-- `pt_neg` negates (R115). -/
theorem represents_ptNeg (hp : 0 < c.p) {q : Point} {P : (weierstrass c).Point} (h : Represents c q P) :
    Represents c (ptNeg c q) (-P) := by
  cases q with
  | inf =>
    cases h
    exact WeierstrassCurve.Affine.Point.neg_zero
  | aff x y =>
    obtain ⟨hns, rfl⟩ := h
    have hx : ((fred c x : Nat) : ZMod c.p) = x := by rw [fred_zmod hp, Int.cast_natCast]
    have hy : ((fsub c 0 y : Nat) : ZMod c.p) = (weierstrass c).negY x y := by
      rw [weierstrass_negY, fsub_zmod hp, Int.cast_zero, Int.cast_natCast, zero_sub]
    rw [ptNeg]
    refine ⟨by rwa [hx, hy, WeierstrassCurve.Affine.nonsingular_neg], ?_⟩
    rw [WeierstrassCurve.Affine.Point.neg_some]
    simp only [hx, hy]

/-- Where `n` multiplies a point to `INF`, `n - 1` multiplies it to its negative. -/
theorem smul_sub_one_eq_ptNeg [Fact (Nat.Prime c.p)] (h2 : 2 < c.p) {n : Nat} (hpos : 0 < n) (hbound : n < 2 ^ 384)
    {q : Point} {Q : (weierstrass c).Point} (hq : Represents c q Q) (hinf : smul c n q = .inf) :
    smul c (n - 1) q = ptNeg c q := by
  have hp : 0 < c.p := by omega
  have hzero : n • Q = 0 := (represents_smul h2 hbound hq).eq_inf_iff.1 hinf
  have hsucc : (n - 1) • Q + Q = n • Q := by rw [← succ_nsmul, Nat.sub_add_cancel hpos]
  have hneg : (n - 1) • Q = -Q := eq_neg_of_add_eq_zero_left (hsucc.trans hzero)
  have hmul : Represents c (smul c (n - 1) q) (-Q) := hneg ▸ represents_smul h2 (by omega) hq
  exact hmul.eq_of_canonical (represents_ptNeg hp hq) (smul_canonical hp _ _) (ptNeg_canonical hp _)

/-- The negative of the default record's generator. -/
theorem ptNeg_gen : ptNeg Config.curve (gen Config.curve) = .aff Spec.gx (Spec.p - Spec.gy) := by decide +kernel

/-- Settles O54: `n * G = INF` by evaluation, hence in the group of the curve `(n - 1) * G` is `-G`. -/
theorem generatorTimesItsOrder : Obligations.GeneratorTimesItsOrder := by
  have : Fact (Nat.Prime Config.curve.p) := ⟨curve_p_prime⟩
  obtain ⟨-, -, -, -, -, hn⟩ := curve_bounds
  obtain ⟨G, hG⟩ := exists_represents curve_p_prime curve_p_gt_two curve_discr_ne_zero (.inr onCurve_gen)
  have hlast : smul Config.curve (Config.curve.n - 1) (gen Config.curve) = .aff Spec.gx (Spec.p - Spec.gy) :=
    (smul_sub_one_eq_ptNeg curve_p_gt_two curve_n_prime.pos hn hG smul_n_gen).trans ptNeg_gen
  exact ⟨smul_n_gen, hlast⟩

end Sys2Proof.Proofs
end
